-- ==== Sys2Proof/Word.lean ====
section
/-! DEFINITION. The plain words of the block: bytes, the 32-bit length, and how a number is laid out as bits in
stream order (spec/00_scope.md R8, R9; spec/20_memory.md R66). All values are unsigned (spec/41_code_tables.md R170). -/

namespace Sys2Proof

/-- One byte of the chunk, of the dictionary or of the output. -/
abbrev Byte := BitVec 8

/-- The declared chunk length, `LEN_W` = 32 bits, unsigned (R7, R23). -/
abbrev Len := BitVec 32

/-- Bits in stream order: the head is the bit read first (R9). -/
abbrev Bits := List Bool

end Sys2Proof
end

