-- ==== Sys2Proof/Config.lean ====
section
/-! DEFINITION. What the implementation fixes (spec/00_scope.md R7) and the one free value of the model. -/

namespace Sys2Proof.Config

/-- Bytes of the physical dictionary RAM, `DICT_RAM` (spec/00_scope.md R7, spec/10_state.md R32). -/
def ramSize : Nat := 4096

/-- `DICT_INIT`: what a dictionary slot holds that nothing has written since power-on. A FREE VALUE: no body, nothing can
be proved of it; one fixed byte per slot (spec/42_sliding_dictionary.md R195; spec/93_implementation_defined.md U1, U2;
log entry 4). Mark: DESIGN CHOICE. Safe. -/
opaque dictInit : Nat → Byte

end Sys2Proof.Config
end

