-- ==== Sys2Proof/Syntax.lean ====
section
/-! DEFINITION. The instructions of the block: one constructor per row of spec/opcode_table.json (spec/30_encoding.md R115).
Register numbers do not occur; the operands are the fields of the encodings R91, R94, R95, R100. -/

namespace Sys2Proof

/-- The header form, the three token forms, the 16 words of the length code and the 64 words of the offset-high code. -/
inductive Instr where
  /-- `HDR`: chunk byte 0 (`dictionaryMode`) and chunk byte 1 (`dictionarySizeCode`), R91. -/
  | hdr (m c : Byte)
  /-- `LIT`: the literal byte, R94. -/
  | lit (b : Byte)
  /-- `COPY`: the decoded length 2..518 and the decoded offset, R95, R113. -/
  | copy (len : BitVec 10) (off : BitVec 12)
  /-- `END`: the decoded length 519, R96. -/
  | eos
  /-- `LEN_0`, no extra bits, R100. -/
  | len0
  /-- `LEN_1`, no extra bits, R100. -/
  | len1
  /-- `LEN_2`, no extra bits, R100. -/
  | len2
  /-- `LEN_3`, no extra bits, R100. -/
  | len3
  /-- `LEN_4`, no extra bits, R100. -/
  | len4
  /-- `LEN_5`, no extra bits, R100. -/
  | len5
  /-- `LEN_6`, no extra bits, R100. -/
  | len6
  /-- `LEN_7`, no extra bits, R100. -/
  | len7
  /-- `LEN_8`: its 1 extra bits, R100. -/
  | len8 (e : BitVec 1)
  /-- `LEN_9`: its 2 extra bits, R100. -/
  | len9 (e : BitVec 2)
  /-- `LEN_10`: its 3 extra bits, R100. -/
  | len10 (e : BitVec 3)
  /-- `LEN_11`: its 4 extra bits, R100. -/
  | len11 (e : BitVec 4)
  /-- `LEN_12`: its 5 extra bits, R100. -/
  | len12 (e : BitVec 5)
  /-- `LEN_13`: its 6 extra bits, R100. -/
  | len13 (e : BitVec 6)
  /-- `LEN_14`: its 7 extra bits, R100. -/
  | len14 (e : BitVec 7)
  /-- `LEN_15`: its 8 extra bits, R100. -/
  | len15 (e : BitVec 8)
  /-- `DIST_0` .. `DIST_63`: the word of the offset-high value of that number, R104. -/
  | dist0
  | dist1
  | dist2
  | dist3
  | dist4
  | dist5
  | dist6
  | dist7
  | dist8
  | dist9
  | dist10
  | dist11
  | dist12
  | dist13
  | dist14
  | dist15
  | dist16
  | dist17
  | dist18
  | dist19
  | dist20
  | dist21
  | dist22
  | dist23
  | dist24
  | dist25
  | dist26
  | dist27
  | dist28
  | dist29
  | dist30
  | dist31
  | dist32
  | dist33
  | dist34
  | dist35
  | dist36
  | dist37
  | dist38
  | dist39
  | dist40
  | dist41
  | dist42
  | dist43
  | dist44
  | dist45
  | dist46
  | dist47
  | dist48
  | dist49
  | dist50
  | dist51
  | dist52
  | dist53
  | dist54
  | dist55
  | dist56
  | dist57
  | dist58
  | dist59
  | dist60
  | dist61
  | dist62
  | dist63
  deriving DecidableEq, Repr

/-- A token of the stream as the decoder finds it (`token ::= LIT | COPY`, or `END`, R93). -/
inductive Token where
  | lit (b : Byte)
  | copy (len : BitVec 10) (off : BitVec 12)
  | eos
  deriving DecidableEq, Repr

/-- The instruction a token is. -/
def Token.toInstr : Token → Instr
  | .lit b => .lit b
  | .copy len off => .copy len off
  | .eos => .eos

/-- Where a word is read: the same bits mean different rows at the header, at a token's first bit, at a length code and
at an offset code (R93). -/
inductive Context where
  | header
  | token
  | length
  | offsetHigh
  deriving DecidableEq, Repr

end Sys2Proof
end

