-- ==== Sys2Proof/WellFormed.lean ====
section
/-! DEFINITION. Which instructions are legal: the field values the spec calls legal (spec/30_encoding.md R91, R95, R112). -/

namespace Sys2Proof

/-- The legal dictionary size codes 4, 5, 6 (R91, `DICT_CODES` of spec/00_scope.md R7), at any width. -/
def legalSizeCode (c : Nat) : Bool := c == 4 || c == 5 || c == 6

/-- Is the instruction legal when `dict_bits` is `db`? `HDR`: mode 0 and size code 4, 5 or 6 (R91, R92). `COPY`: a length of
2..518 and an offset the code of that length reaches, below 256 for length 2 and below `64 * 2^dict_bits` = capacity
otherwise (R95, R110). Every literal byte and every row of the two code tables is legal (R112). -/
def Instr.wf (db : BitVec 3) : Instr → Bool
  | .hdr m c => m == 0 && legalSizeCode c.toNat
  | .copy len off =>
    legalSizeCode db.toNat && decide (2 ≤ len.toNat) && decide (len.toNat ≤ 518) &&
      (if len.toNat = 2 then decide (off.toNat < 256) else decide (off.toNat < 64 * 2 ^ db.toNat))
  | .lit _ => true
  | .eos => true
  | .len0 | .len1 | .len2 | .len3 | .len4 | .len5 | .len6 | .len7 | .len8 _ | .len9 _ | .len10 _ | .len11 _
  | .len12 _ | .len13 _ | .len14 _ | .len15 _ => true
  | .dist0 | .dist1 | .dist2 | .dist3 | .dist4 | .dist5 | .dist6 | .dist7 | .dist8 | .dist9 | .dist10 | .dist11
  | .dist12 | .dist13 | .dist14 | .dist15 | .dist16 | .dist17 | .dist18 | .dist19 | .dist20 | .dist21 | .dist22
  | .dist23 | .dist24 | .dist25 | .dist26 | .dist27 | .dist28 | .dist29 | .dist30 | .dist31 | .dist32 | .dist33
  | .dist34 | .dist35 | .dist36 | .dist37 | .dist38 | .dist39 | .dist40 | .dist41 | .dist42 | .dist43 | .dist44
  | .dist45 | .dist46 | .dist47 | .dist48 | .dist49 | .dist50 | .dist51 | .dist52 | .dist53 | .dist54 | .dist55
  | .dist56 | .dist57 | .dist58 | .dist59 | .dist60 | .dist61 | .dist62 | .dist63 => true

end Sys2Proof
end

