-- ==== Sys2Proof/Decode.lean ====
section
/-! DEFINITION. Decoding and encoding. The decoder is the decision tree of spec/41_code_tables.md (R161, R164, R167) and
spec/43_decoder_fsm.md R215 over bits pulled one at a time; the encoder is written from the tables of spec/30_encoding.md
(R91, R94, R95, R96, R100, R104). -/

namespace Sys2Proof

/-! ## Bits and numbers -/

/-- The `n` low bits of `v`, bit 0 first: the inverse of `readBits(n)` (R66). -/
def bitsOf : Nat → Nat → Bits
  | 0, _ => []
  | n + 1, v => (v % 2 == 1) :: bitsOf n (v / 2)

/-- A little-endian bit list as a number: first-read bit = least significant (R66). -/
def bitsVal : Bits → Nat
  | [] => 0
  | b :: bs => b.toNat + 2 * bitsVal bs

/-- The bits of bytes in stream order (R9, R66). -/
def bytesBits (bytes : List Byte) : Bits :=
  bytes.flatMap fun b => bitsOf 8 b.toNat

/-- A bit list packed into bytes, the last one filled with 0 bits (`PAD`, R114). The first argument bounds the number of
bytes. -/
def packBytes : Nat → Bits → List Byte
  | 0, _ => []
  | n + 1, bits => if bits.isEmpty then [] else BitVec.ofNat 8 (bitsVal (bits.take 8)) :: packBytes n (bits.drop 8)

/-- A code word written as in the tables, leftmost bit first (R9). -/
def codeWord (word : List Nat) : Bits := word.map (· == 1)

/-! ## Walks over the bit stream -/

/-- A walk over bits that are pulled one at a time, ending in a value: "a nested binary-tree walk over bits pulled from
the Bit Cursor" (spec/41_code_tables.md R160). It asks for no bit beyond the code word it returns (R169). -/
inductive Walk (α : Type) where
  | done (a : α)
  | ask (next : Bool → Walk α)

/-- Go on with `f` at the end of a walk. -/
def Walk.bind {α β : Type} : Walk α → (α → Walk β) → Walk β
  | .done a, f => f a
  | .ask next, f => .ask fun b => (next b).bind f

/-- `readBit()` as a walk (spec/40_bit_cursor.md R143). -/
def Walk.readBit : Walk Bool := .ask .done

/-- `readBits(n)` as a walk: first-read bit = least significant (spec/40_bit_cursor.md R144). -/
def Walk.readBits : Nat → Walk Nat
  | 0 => .done 0
  | n + 1 => Walk.readBit.bind fun b => (Walk.readBits n).bind fun v => .done (b.toNat + 2 * v)

/-- Why a bit list is not decoded: its bits end inside the encoding (R112 (e)). No bit pattern is undecodable (R97). -/
inductive DecodeError where
  | bitsExhausted
  deriving DecidableEq, Repr

/-- Run a walk on a bit list: the value and the bits left over. -/
def Walk.runBits {α : Type} : Walk α → Bits → Except DecodeError (α × Bits)
  | .done a, bits => .ok (a, bits)
  | .ask _, [] => .error .bitsExhausted
  | .ask next, b :: bits => (next b).runBits bits

/-! ## The reversal tables -/

/-- `REV3`, a literal table (spec/30_encoding.md R107, spec/41_code_tables.md R166). -/
def rev3 : List Nat := [0, 4, 2, 6, 1, 5, 3, 7]

/-- `REV4`, a literal table, with the swap 11 and 13 (spec/30_encoding.md R108, spec/90_conflicts.md C3). -/
def rev4 : List Nat := [0, 8, 4, 12, 2, 10, 6, 14, 1, 9, 5, 13, 3, 11, 7, 15]

/-- `REV3[u]`. -/
def rev3At (u : Nat) : Nat := rev3.getD u 0

/-- `REV4[u]`. -/
def rev4At (u : Nat) : Nat := rev4.getD u 0

/-! ## The decision trees -/

/-- The `0000` branch of `decodeLength()` (R161, `u = 0`): rows 11 to 15 of `LEN_TABLE`. -/
def decodeLengthLong : Walk Nat :=
  (Walk.readBits 2).bind fun w =>
  if w = 3 then (Walk.readBits 4).bind fun e => .done (24 + e)
  else if w = 1 then (Walk.readBits 5).bind fun e => .done (40 + e)
  else if w = 2 then (Walk.readBits 6).bind fun e => .done (72 + e)
  else Walk.readBit.bind fun b =>
    if b then (Walk.readBits 7).bind fun e => .done (136 + e)
    else (Walk.readBits 8).bind fun e => .done (264 + e)

/-- The `00` branch of `decodeLength()` (R161, `t = 0`): rows 6 to 15 of `LEN_TABLE`. -/
def decodeLengthZeros : Walk Nat :=
  (Walk.readBits 2).bind fun u =>
  if u = 3 then .done 8
  else if u = 1 then Walk.readBit.bind fun b =>
    if b then .done 9 else (Walk.readBits 1).bind fun e => .done (10 + e)
  else if u = 2 then Walk.readBit.bind fun b =>
    if b then (Walk.readBits 2).bind fun e => .done (12 + e)
    else (Walk.readBits 3).bind fun e => .done (16 + e)
  else decodeLengthLong

/-- `decodeLength() -> 2..519` (spec/41_code_tables.md R161). The numbers compared are `readBits` numbers: pattern `11` is
3, `10` is 1, `01` is 2, `00` is 0 (R160). Rows 6 to 15 of the code are UNVERIFIED against the source document (log entry
11). -/
def decodeLength : Walk Nat :=
  (Walk.readBits 2).bind fun t =>
  if t = 3 then .done 3
  else if t = 1 then Walk.readBit.bind fun x => .done (4 - 2 * x.toNat)
  else if t = 2 then Walk.readBit.bind fun b =>
    if b then .done 5 else Walk.readBit.bind fun y => .done (7 - y.toNat)
  else decodeLengthZeros

/-- Groups D to G of `decodeOffsetHigh()` (R164, `t = 0`). -/
def decodeOffsetHighZeros : Walk Nat :=
  (Walk.readBits 2).bind fun u =>
  if u = 3 then (Walk.readBits 3).bind fun v => .done (0x1F - rev3At v)
  else if u = 1 then (Walk.readBits 3).bind fun v => .done (0x27 - rev3At v)
  else if u = 2 then (Walk.readBits 3).bind fun v => .done (0x2F - rev3At v)
  else (Walk.readBits 4).bind fun v => .done (0x3F - rev4At v)

/-- `decodeOffsetHigh() -> 0..63` (spec/41_code_tables.md R164). Groups B and D to G are UNVERIFIED against the source
document (log entry 11). -/
def decodeOffsetHigh : Walk Nat :=
  (Walk.readBits 2).bind fun t =>
  if t = 3 then .done 0
  else if t = 1 then (Walk.readBits 2).bind fun u =>
    if u = 3 then .done 1
    else if u = 1 then .done 2
    else if u = 2 then Walk.readBit.bind fun x => .done (4 - x.toNat)
    else Walk.readBit.bind fun x => .done (6 - x.toNat)
  else if t = 2 then (Walk.readBits 4).bind fun u =>
    if u = 0 then Walk.readBit.bind fun x => .done (0x17 - x.toNat)
    else .done (0x16 - rev4At u)
  else decodeOffsetHighZeros

/-- How many raw low offset bits follow: 2 if the decoded length is 2, `dict_bits` otherwise (R103). -/
def lowBits (db : BitVec 3) (len : Nat) : Nat := if len = 2 then 2 else db.toNat

/-- `(high << nlow) | low` (spec/30_encoding.md R110). -/
def assembleOffset (high nlow low : Nat) : Nat := (high <<< nlow) ||| low

/-- `decodeOffset(len)` (spec/41_code_tables.md R167): the high part is read before the low part. -/
def decodeOffset (db : BitVec 3) (len : Nat) : Walk Nat :=
  decodeOffsetHigh.bind fun high =>
  (Walk.readBits (lowBits db len)).bind fun low =>
  .done (assembleOffset high (lowBits db len) low)

/-- The token at the cursor: the reads of `decodeStep()` (spec/43_decoder_fsm.md R215) with those of `literal()` (R220) and
`copyStart(len)` (R221), in their order; 519 is `END` (R224, `len >= 519`). -/
def decodeToken (db : BitVec 3) : Walk Token :=
  Walk.readBit.bind fun flag =>
  if flag then
    decodeLength.bind fun len =>
    if 519 ≤ len then .done .eos
    else (decodeOffset db len).bind fun off => .done (.copy (BitVec.ofNat 10 len) (BitVec.ofNat 12 off))
  else (Walk.readBits 8).bind fun v => .done (.lit (BitVec.ofNat 8 v))

/-- The header's two whole bytes (R91); any values are read, the header step checks them (R212). -/
def decodeHeader : Walk Instr :=
  (Walk.readBits 8).bind fun m => (Walk.readBits 8).bind fun c =>
  .done (.hdr (BitVec.ofNat 8 m) (BitVec.ofNat 8 c))

/-! ## Rows of the code tables -/

/-- A row of `LEN_TABLE`: code word, `LEN_EXTRA`, `LEN_BASE` (R100). -/
structure LenRow where
  code : Bits
  extra : Nat
  base : Nat
  deriving DecidableEq, Repr

/-- `LEN_TABLE` (spec/30_encoding.md R100), row number = symbol. Rows 6 to 15 UNVERIFIED (log entry 11). -/
def lenTable : List LenRow := [
  ⟨codeWord [1, 1], 0, 3⟩,
  ⟨codeWord [1, 0, 1], 0, 2⟩,
  ⟨codeWord [1, 0, 0], 0, 4⟩,
  ⟨codeWord [0, 1, 1], 0, 5⟩,
  ⟨codeWord [0, 1, 0, 1], 0, 6⟩,
  ⟨codeWord [0, 1, 0, 0], 0, 7⟩,
  ⟨codeWord [0, 0, 1, 1], 0, 8⟩,
  ⟨codeWord [0, 0, 1, 0, 1], 0, 9⟩,
  ⟨codeWord [0, 0, 1, 0, 0], 1, 10⟩,
  ⟨codeWord [0, 0, 0, 1, 1], 2, 12⟩,
  ⟨codeWord [0, 0, 0, 1, 0], 3, 16⟩,
  ⟨codeWord [0, 0, 0, 0, 1, 1], 4, 24⟩,
  ⟨codeWord [0, 0, 0, 0, 1, 0], 5, 40⟩,
  ⟨codeWord [0, 0, 0, 0, 0, 1], 6, 72⟩,
  ⟨codeWord [0, 0, 0, 0, 0, 0, 1], 7, 136⟩,
  ⟨codeWord [0, 0, 0, 0, 0, 0, 0], 8, 264⟩]

/-- Rows 0 to 15 of `DIST_TABLE` (spec/30_encoding.md R104). -/
def distTable0 : List Bits := [
  codeWord [1, 1],
  codeWord [1, 0, 1, 1],
  codeWord [1, 0, 1, 0],
  codeWord [1, 0, 0, 1, 1],
  codeWord [1, 0, 0, 1, 0],
  codeWord [1, 0, 0, 0, 1],
  codeWord [1, 0, 0, 0, 0],
  codeWord [0, 1, 1, 1, 1, 1],
  codeWord [0, 1, 1, 1, 1, 0],
  codeWord [0, 1, 1, 1, 0, 1],
  codeWord [0, 1, 1, 1, 0, 0],
  codeWord [0, 1, 1, 0, 1, 1],
  codeWord [0, 1, 1, 0, 1, 0],
  codeWord [0, 1, 1, 0, 0, 1],
  codeWord [0, 1, 1, 0, 0, 0],
  codeWord [0, 1, 0, 1, 1, 1]]

/-- Rows 16 to 31 of `DIST_TABLE` (spec/30_encoding.md R104). -/
def distTable1 : List Bits := [
  codeWord [0, 1, 0, 1, 1, 0],
  codeWord [0, 1, 0, 1, 0, 1],
  codeWord [0, 1, 0, 1, 0, 0],
  codeWord [0, 1, 0, 0, 1, 1],
  codeWord [0, 1, 0, 0, 1, 0],
  codeWord [0, 1, 0, 0, 0, 1],
  codeWord [0, 1, 0, 0, 0, 0, 1],
  codeWord [0, 1, 0, 0, 0, 0, 0],
  codeWord [0, 0, 1, 1, 1, 1, 1],
  codeWord [0, 0, 1, 1, 1, 1, 0],
  codeWord [0, 0, 1, 1, 1, 0, 1],
  codeWord [0, 0, 1, 1, 1, 0, 0],
  codeWord [0, 0, 1, 1, 0, 1, 1],
  codeWord [0, 0, 1, 1, 0, 1, 0],
  codeWord [0, 0, 1, 1, 0, 0, 1],
  codeWord [0, 0, 1, 1, 0, 0, 0]]

/-- Rows 32 to 47 of `DIST_TABLE` (spec/30_encoding.md R104). -/
def distTable2 : List Bits := [
  codeWord [0, 0, 1, 0, 1, 1, 1],
  codeWord [0, 0, 1, 0, 1, 1, 0],
  codeWord [0, 0, 1, 0, 1, 0, 1],
  codeWord [0, 0, 1, 0, 1, 0, 0],
  codeWord [0, 0, 1, 0, 0, 1, 1],
  codeWord [0, 0, 1, 0, 0, 1, 0],
  codeWord [0, 0, 1, 0, 0, 0, 1],
  codeWord [0, 0, 1, 0, 0, 0, 0],
  codeWord [0, 0, 0, 1, 1, 1, 1],
  codeWord [0, 0, 0, 1, 1, 1, 0],
  codeWord [0, 0, 0, 1, 1, 0, 1],
  codeWord [0, 0, 0, 1, 1, 0, 0],
  codeWord [0, 0, 0, 1, 0, 1, 1],
  codeWord [0, 0, 0, 1, 0, 1, 0],
  codeWord [0, 0, 0, 1, 0, 0, 1],
  codeWord [0, 0, 0, 1, 0, 0, 0]]

/-- Rows 48 to 63 of `DIST_TABLE` (spec/30_encoding.md R104). -/
def distTable3 : List Bits := [
  codeWord [0, 0, 0, 0, 1, 1, 1, 1],
  codeWord [0, 0, 0, 0, 1, 1, 1, 0],
  codeWord [0, 0, 0, 0, 1, 1, 0, 1],
  codeWord [0, 0, 0, 0, 1, 1, 0, 0],
  codeWord [0, 0, 0, 0, 1, 0, 1, 1],
  codeWord [0, 0, 0, 0, 1, 0, 1, 0],
  codeWord [0, 0, 0, 0, 1, 0, 0, 1],
  codeWord [0, 0, 0, 0, 1, 0, 0, 0],
  codeWord [0, 0, 0, 0, 0, 1, 1, 1],
  codeWord [0, 0, 0, 0, 0, 1, 1, 0],
  codeWord [0, 0, 0, 0, 0, 1, 0, 1],
  codeWord [0, 0, 0, 0, 0, 1, 0, 0],
  codeWord [0, 0, 0, 0, 0, 0, 1, 1],
  codeWord [0, 0, 0, 0, 0, 0, 1, 0],
  codeWord [0, 0, 0, 0, 0, 0, 0, 1],
  codeWord [0, 0, 0, 0, 0, 0, 0, 0]]

/-- `DIST_TABLE` (spec/30_encoding.md R104): the code word of each offset-high value 0..63. -/
def distTable : List Bits := distTable0 ++ distTable1 ++ distTable2 ++ distTable3

/-- Row `sym` of `LEN_TABLE`. -/
def lenRow (sym : Nat) : LenRow := lenTable.getD sym ⟨[], 0, 0⟩

/-- The symbol whose range `LEN_BASE .. LEN_BASE + 2^LEN_EXTRA - 1` holds the length (R100: the ranges partition 2..519). -/
def lenSym (len : Nat) : Nat :=
  lenTable.findIdx fun r => decide (r.base ≤ len) && decide (len < r.base + 2 ^ r.extra)

/-- The length field of symbol `sym` with extra value `e`: code word, then the extra bits little-endian (R99, R102). -/
def encodeLenSym (sym e : Nat) : Bits := (lenRow sym).code ++ bitsOf (lenRow sym).extra e

/-- The length field of a length (R95, R100). -/
def encodeLength (len : Nat) : Bits := encodeLenSym (lenSym len) (len - (lenRow (lenSym len)).base)

/-- The code word of an offset-high value (R104). -/
def encodeOffsetHigh (high : Nat) : Bits := distTable.getD high []

/-- The row `LEN_<sym>` that a decoded length is, with its extra bits. -/
def lenInstr (len : Nat) : Instr :=
  match lenSym len with
  | 0 => .len0
  | 1 => .len1
  | 2 => .len2
  | 3 => .len3
  | 4 => .len4
  | 5 => .len5
  | 6 => .len6
  | 7 => .len7
  | 8 => .len8 (BitVec.ofNat 1 (len - 10))
  | 9 => .len9 (BitVec.ofNat 2 (len - 12))
  | 10 => .len10 (BitVec.ofNat 3 (len - 16))
  | 11 => .len11 (BitVec.ofNat 4 (len - 24))
  | 12 => .len12 (BitVec.ofNat 5 (len - 40))
  | 13 => .len13 (BitVec.ofNat 6 (len - 72))
  | 14 => .len14 (BitVec.ofNat 7 (len - 136))
  | _ => .len15 (BitVec.ofNat 8 (len - 264))

/-- The rows `DIST_0` .. `DIST_15`, in the order of their values. -/
def distInstrs0 : List Instr :=
  [.dist0, .dist1, .dist2, .dist3, .dist4, .dist5, .dist6, .dist7,
   .dist8, .dist9, .dist10, .dist11, .dist12, .dist13, .dist14, .dist15]

/-- The rows `DIST_16` .. `DIST_31`, in the order of their values. -/
def distInstrs1 : List Instr :=
  [.dist16, .dist17, .dist18, .dist19, .dist20, .dist21, .dist22, .dist23,
   .dist24, .dist25, .dist26, .dist27, .dist28, .dist29, .dist30, .dist31]

/-- The rows `DIST_32` .. `DIST_47`, in the order of their values. -/
def distInstrs2 : List Instr :=
  [.dist32, .dist33, .dist34, .dist35, .dist36, .dist37, .dist38, .dist39,
   .dist40, .dist41, .dist42, .dist43, .dist44, .dist45, .dist46, .dist47]

/-- The rows `DIST_48` .. `DIST_63`, in the order of their values. -/
def distInstrs3 : List Instr :=
  [.dist48, .dist49, .dist50, .dist51, .dist52, .dist53, .dist54, .dist55,
   .dist56, .dist57, .dist58, .dist59, .dist60, .dist61, .dist62, .dist63]

/-- The rows `DIST_0` .. `DIST_63`, in the order of their values. -/
def distInstrs : List Instr := distInstrs0 ++ distInstrs1 ++ distInstrs2 ++ distInstrs3

/-- The row `DIST_<high>` of an offset-high value. -/
def distInstr (high : Nat) : Instr := distInstrs.getD high .dist63

/-! ## Decoding -/

/-- The walk that reads an instruction in a context (R93). -/
def decodeWalk (ctx : Context) (db : BitVec 3) : Walk Instr :=
  match ctx with
  | .header => decodeHeader
  | .token => (decodeToken db).bind fun t => .done t.toInstr
  | .length => decodeLength.bind fun len => .done (lenInstr len)
  | .offsetHigh => decodeOffsetHigh.bind fun high => .done (distInstr high)

/-- Decode a bit list in a context with `dict_bits = db`: the instruction and the bits after it, or the named rejection.
Total on every list. -/
def decodeBits (ctx : Context) (db : BitVec 3) (bits : Bits) : Except DecodeError (Instr × Bits) :=
  (decodeWalk ctx db).runBits bits

/-- Decode from bytes, the first byte's bit 0 first. -/
def decodeBytes (ctx : Context) (db : BitVec 3) (bytes : List Byte) : Except DecodeError (Instr × Bits) :=
  decodeBits ctx db (bytesBits bytes)

/-! ## Encoding -/

/-- The encoding of an instruction when `dict_bits` is `db`, in stream order, from the formats R91, R94, R95, R96 and the
tables R100, R104. -/
def encode (db : BitVec 3) : Instr → Bits
  | .hdr m c => bitsOf 8 m.toNat ++ bitsOf 8 c.toNat
  | .lit b => false :: bitsOf 8 b.toNat
  | .copy len off =>
    true :: (encodeLength len.toNat ++ (encodeOffsetHigh (off.toNat >>> lowBits db len.toNat) ++
      bitsOf (lowBits db len.toNat) off.toNat))
  | .eos => true :: encodeLength 519
  | .len0 => encodeLenSym 0 0
  | .len1 => encodeLenSym 1 0
  | .len2 => encodeLenSym 2 0
  | .len3 => encodeLenSym 3 0
  | .len4 => encodeLenSym 4 0
  | .len5 => encodeLenSym 5 0
  | .len6 => encodeLenSym 6 0
  | .len7 => encodeLenSym 7 0
  | .len8 e => encodeLenSym 8 e.toNat
  | .len9 e => encodeLenSym 9 e.toNat
  | .len10 e => encodeLenSym 10 e.toNat
  | .len11 e => encodeLenSym 11 e.toNat
  | .len12 e => encodeLenSym 12 e.toNat
  | .len13 e => encodeLenSym 13 e.toNat
  | .len14 e => encodeLenSym 14 e.toNat
  | .len15 e => encodeLenSym 15 e.toNat
  | .dist0 => encodeOffsetHigh 0
  | .dist1 => encodeOffsetHigh 1
  | .dist2 => encodeOffsetHigh 2
  | .dist3 => encodeOffsetHigh 3
  | .dist4 => encodeOffsetHigh 4
  | .dist5 => encodeOffsetHigh 5
  | .dist6 => encodeOffsetHigh 6
  | .dist7 => encodeOffsetHigh 7
  | .dist8 => encodeOffsetHigh 8
  | .dist9 => encodeOffsetHigh 9
  | .dist10 => encodeOffsetHigh 10
  | .dist11 => encodeOffsetHigh 11
  | .dist12 => encodeOffsetHigh 12
  | .dist13 => encodeOffsetHigh 13
  | .dist14 => encodeOffsetHigh 14
  | .dist15 => encodeOffsetHigh 15
  | .dist16 => encodeOffsetHigh 16
  | .dist17 => encodeOffsetHigh 17
  | .dist18 => encodeOffsetHigh 18
  | .dist19 => encodeOffsetHigh 19
  | .dist20 => encodeOffsetHigh 20
  | .dist21 => encodeOffsetHigh 21
  | .dist22 => encodeOffsetHigh 22
  | .dist23 => encodeOffsetHigh 23
  | .dist24 => encodeOffsetHigh 24
  | .dist25 => encodeOffsetHigh 25
  | .dist26 => encodeOffsetHigh 26
  | .dist27 => encodeOffsetHigh 27
  | .dist28 => encodeOffsetHigh 28
  | .dist29 => encodeOffsetHigh 29
  | .dist30 => encodeOffsetHigh 30
  | .dist31 => encodeOffsetHigh 31
  | .dist32 => encodeOffsetHigh 32
  | .dist33 => encodeOffsetHigh 33
  | .dist34 => encodeOffsetHigh 34
  | .dist35 => encodeOffsetHigh 35
  | .dist36 => encodeOffsetHigh 36
  | .dist37 => encodeOffsetHigh 37
  | .dist38 => encodeOffsetHigh 38
  | .dist39 => encodeOffsetHigh 39
  | .dist40 => encodeOffsetHigh 40
  | .dist41 => encodeOffsetHigh 41
  | .dist42 => encodeOffsetHigh 42
  | .dist43 => encodeOffsetHigh 43
  | .dist44 => encodeOffsetHigh 44
  | .dist45 => encodeOffsetHigh 45
  | .dist46 => encodeOffsetHigh 46
  | .dist47 => encodeOffsetHigh 47
  | .dist48 => encodeOffsetHigh 48
  | .dist49 => encodeOffsetHigh 49
  | .dist50 => encodeOffsetHigh 50
  | .dist51 => encodeOffsetHigh 51
  | .dist52 => encodeOffsetHigh 52
  | .dist53 => encodeOffsetHigh 53
  | .dist54 => encodeOffsetHigh 54
  | .dist55 => encodeOffsetHigh 55
  | .dist56 => encodeOffsetHigh 56
  | .dist57 => encodeOffsetHigh 57
  | .dist58 => encodeOffsetHigh 58
  | .dist59 => encodeOffsetHigh 59
  | .dist60 => encodeOffsetHigh 60
  | .dist61 => encodeOffsetHigh 61
  | .dist62 => encodeOffsetHigh 62
  | .dist63 => encodeOffsetHigh 63

/-- The context an instruction is read in. -/
def Instr.context : Instr → Context
  | .hdr _ _ => .header
  | .lit _ | .copy _ _ | .eos => .token
  | .len0 | .len1 | .len2 | .len3 | .len4 | .len5 | .len6 | .len7 | .len8 _ | .len9 _ | .len10 _ | .len11 _
  | .len12 _ | .len13 _ | .len14 _ | .len15 _ => .length
  | .dist0 | .dist1 | .dist2 | .dist3 | .dist4 | .dist5 | .dist6 | .dist7 | .dist8 | .dist9 | .dist10 | .dist11
  | .dist12 | .dist13 | .dist14 | .dist15 | .dist16 | .dist17 | .dist18 | .dist19 | .dist20 | .dist21 | .dist22
  | .dist23 | .dist24 | .dist25 | .dist26 | .dist27 | .dist28 | .dist29 | .dist30 | .dist31 | .dist32 | .dist33
  | .dist34 | .dist35 | .dist36 | .dist37 | .dist38 | .dist39 | .dist40 | .dist41 | .dist42 | .dist43 | .dist44
  | .dist45 | .dist46 | .dist47 | .dist48 | .dist49 | .dist50 | .dist51 | .dist52 | .dist53 | .dist54 | .dist55
  | .dist56 | .dist57 | .dist58 | .dist59 | .dist60 | .dist61 | .dist62 | .dist63 => .offsetHigh

/-! ## The words of spec/opcode_table.json -/

/-- The stream bits of a table word: the table numbers a row's bits with the leftmost, first-read bit most significant
(its `fixed` entry of `END` is 33023 for `1000000011111111`). DESIGN CHOICE, log entry 9. -/
def tableBits : Nat → Nat → Bits
  | 0, _ => []
  | n + 1, w => w.testBit n :: tableBits n w

/-- The instruction a bit list is in a context when it is exactly one instruction long. -/
def decodeExact (ctx : Context) (db : BitVec 3) (bits : Bits) : Option Instr :=
  match decodeBits ctx db bits with
  | .ok (i, []) => some i
  | _ => none

/-- The `dict_bits` under which a table word is read: 4, the first legal code. DESIGN CHOICE, log entry 9. -/
def tableDictBits : BitVec 3 := 4

/-- The instruction of a table word: a row whose encoding is exactly the word's bits, tried as token, header, length code
and offset code; otherwise the token its bits begin, with 0 bits after them. Log entry 9. -/
def decodeTableWord (nbits w : Nat) : Option Instr :=
  let bits := tableBits nbits w
  (decodeExact .token tableDictBits bits).or <|
  (decodeExact .header tableDictBits bits).or <|
  (decodeExact .length tableDictBits bits).or <|
  (decodeExact .offsetHigh tableDictBits bits).or <|
  match decodeBits .token tableDictBits (bits ++ List.replicate 30 false) with
  | .ok (i, _) => some i
  | .error _ => none

end Sys2Proof
end

