-- ==== Sys2Proof/Machine/State.lean ====
section
/-! DEFINITION. The state of one `implode_decompressor` as plain data (spec/10_state.md R20), the environment it runs in
(byte source, host), the reasons a step can stop, and the state after reset (R40). -/

namespace Sys2Proof.Machine

/-- The state-machine state (R21, R210). -/
inductive FsmState where
  | idle
  | init
  | headerRead
  | decoding
  | finished
  | errored
  deriving DecidableEq, Repr

/-- `err_code` (R22): no error, or one of the five errors (spec/60_exceptions.md R281). -/
inductive ErrCode where
  | none
  | chunkTooSmall
  | unsupportedStaticDictionary
  | unknownDictionarySize
  | unexpectedEndOfChunk
  | underlyingIOError
  deriving DecidableEq, Repr

/-- `mode` (R34). -/
inductive Mode where
  | literal
  | copying
  deriving DecidableEq, Repr

/-- A beat: what one step produces (spec/44_host_interface.md R257). -/
inductive Beat where
  | byte (v : Byte)
  | eos
  | err (c : ErrCode)
  deriving DecidableEq, Repr

/-- One response the byte source presents: `src_kind` and `src_data` (spec/44_host_interface.md R251). -/
structure SrcXfer where
  kind : BitVec 2
  data : Byte
  deriving DecidableEq, Repr

/-- What the host does at one model step (spec/44_host_interface.md R251 to R253, R256, R261); log entry 2. -/
structure HostInput where
  /-- `rst` (R252). -/
  rst : Bool
  /-- `start` with `start_len` (R253). -/
  start : Option Len
  /-- `out_ready`: the consumer takes the held beat (R256). -/
  outReady : Bool
  /-- The host positions its source: its coming answers are these (R250, R261). -/
  seek : Option (List SrcXfer)
  /-- Answers the source presents from now on, after the ones it has (R255). -/
  arrive : List SrcXfer
  deriving DecidableEq, Repr

/-- A walk of `code_table_lookup` asked for by itself (spec/41_code_tables.md R161, R164); log entry 6. -/
inductive Lookup where
  | length
  | offsetHigh
  deriving DecidableEq, Repr

/-- Dictionary RAM: the slots written since power-on, each with its byte, addresses strictly rising. An unlisted address is
one that nothing has written (R32; spec/42_sliding_dictionary.md R195; log entry 4). -/
abbrev Memory := List Host.Cell

/-- The machine's state: the fields of R20, the output space of spec/20_memory.md R60, the step in progress, the environment,
and the model's own three fields for table walks (log entry 6). -/
structure State where
  /-- `state` (R21). -/
  state : FsmState
  /-- `err_code` (R22). -/
  errCode : ErrCode
  /-- `chunk_len` (R23). -/
  chunkLen : Len
  /-- `dict_mode` (R24). -/
  dictMode : Byte
  /-- `dict_size_code` (R24). -/
  dictSizeCode : Byte
  /-- `dict_bits` (R25). -/
  dictBits : BitVec 3
  /-- `cur_byte` (R26). -/
  curByte : Byte
  /-- `bit_off`, 0 to 8 (R27). -/
  bitOff : Fin 9
  /-- `bytes_rem` (R28). -/
  bytesRem : Len
  /-- `bc_errored` (R29). -/
  bcErrored : Bool
  /-- `dict` (R32). -/
  dict : Memory
  /-- `first` (R33). -/
  first : BitVec 12
  /-- `mode` (R34). -/
  mode : Mode
  /-- `copy_rem` (R35). -/
  copyRem : BitVec 10
  /-- `copy_off` (R36). -/
  copyOff : BitVec 12
  /-- `out_hold` (R37): empty or the held beat. -/
  outHold : Option Beat
  /-- The space `OUT` (spec/20_memory.md R60, R65): the bytes emitted since `Start`, oldest first; log entry 7. -/
  out : List Byte
  /-- The step in progress: the bits it has read from the cursor before it came to wait for the source, first-read bit first;
  empty at a step boundary (spec/40_bit_cursor.md R148); log entry 3. -/
  stepBits : Bits
  /-- The model's own: the walk asked for by itself; log entry 6. -/
  lookupReq : Option Lookup
  /-- The model's own: the number the last `decodeLength()` returned (2..519); log entry 6. -/
  lenVal : BitVec 10
  /-- The model's own: the number the last `decodeOffsetHigh()` returned (0..63); log entry 6. -/
  highVal : BitVec 6
  /-- The environment: the source's coming answers; empty means it has not answered yet (log entry 3). -/
  source : List SrcXfer
  /-- The environment: what the host does at the coming model steps; log entry 2. -/
  host : List HostInput
  deriving DecidableEq, Repr

/-- Why the machine stops. The block's own five errors are states, not faults (spec/60_exceptions.md R283). -/
inductive Fault where
  /-- Raised by `put` and `get` on an index the 4096-byte RAM does not have (R32). Safe. It needs `dict_bits` = 7, which no
  run reaches (log entry 8). -/
  | dictAddress (index : Nat)
  deriving DecidableEq, Repr

/-- Why an instruction has no meaning. -/
inductive Refusal where
  /-- Raised by an arm of `exec` whose instruction is not modelled; no arm is. Safe. -/
  | notModelled (mnemonic : String)
  deriving DecidableEq, Repr

/-- What a step of this machine answers. -/
abbrev Outcome := Host.Outcome State Fault Refusal

/-- The machine right after reset at power-on (R40, spec/70_reset_and_hazards.md R310): `dict_bits` and `cur_byte`, which the
spec leaves unspecified, are 0 (DESIGN CHOICE, unsafe, log entry 5); no dictionary slot has been written; the source has
presented nothing and the host does nothing but take beats (log entries 2, 3). -/
def State.reset : State where
  state := .idle
  errCode := .none
  chunkLen := 0
  dictMode := 0
  dictSizeCode := 0
  dictBits := 0
  curByte := 0
  bitOff := 8
  bytesRem := 0
  bcErrored := false
  dict := []
  first := 0
  mode := .literal
  copyRem := 0
  copyOff := 0
  outHold := none
  out := []
  stepBits := []
  lookupReq := none
  lenVal := 0
  highVal := 0
  source := []
  host := []

end Sys2Proof.Machine
end

