-- ==== Sys2Proof/Machine/Ops.lean ====
section
/-! DEFINITION. The shared operations: the byte source, the bit cursor (spec/40_bit_cursor.md), the dictionary
(spec/42_sliding_dictionary.md), emitting a beat, raising an error (spec/60_exceptions.md R283: this block's taking of an
exception; it has no return from one, R286). -/

namespace Sys2Proof.Machine

/-! ## The byte source -/

/-- The three answers of `SrcNext()` (spec/44_host_interface.md R254). -/
inductive SrcAnswer where
  | byte (v : Byte)
  | endOfSource
  | ioError
  deriving DecidableEq, Repr

/-- The answer a transfer is: kind 0 `BYTE`, 1 `END`, 2 `IOERR`, 3 reserved and answered as `IoError`; the data count only
with kind 0 (R251, R254). -/
def SrcXfer.answer (x : SrcXfer) : SrcAnswer :=
  if x.kind = 0 then .byte x.data
  else if x.kind = 1 then .endOfSource
  else .ioError

/-- A transfer that delivers a byte. -/
def SrcXfer.byte (v : Byte) : SrcXfer := ⟨0, v⟩

/-! ## The bit cursor -/

/-- The outcome of reading from the cursor: a value, an error to be raised with the state the failing read left, or a wait for
the source, with the state at the `SrcNext()` that waits (R148). -/
inductive Read (α : Type) where
  | got (a : α) (s : State)
  | raised (e : ErrCode) (s : State)
  | waiting (s : State)

/-- Go on with `f` after a successful read. -/
def Read.bind {α β : Type} : Read α → (α → State → Read β) → Read β
  | .got a s, f => f a s
  | .raised e s, _ => .raised e s
  | .waiting s, _ => .waiting s

/-- `fetchByte()` (R142): the declared length is tested before the source is asked; a failure sets `bc_errored`. -/
def fetchByte (s : State) : Read Unit :=
  if s.bytesRem = 0 then .raised .unexpectedEndOfChunk { s with bcErrored := true }
  else match s.source with
    | [] => .waiting s
    | x :: rest =>
      match x.answer with
      | .byte v => .got () { s with curByte := v, bitOff := 0, bytesRem := s.bytesRem - 1, source := rest }
      | .endOfSource => .raised .unexpectedEndOfChunk { s with bcErrored := true, source := rest }
      | .ioError => .raised .underlyingIOError { s with bcErrored := true, source := rest }

/-- The read of one bit of `cur_byte` when `bit_off < 8` (the last three lines of R143). -/
def takeBit (s : State) : Read Bool :=
  .got (s.curByte.getLsbD s.bitOff.val) { s with bitOff := s.bitOff + 1 }

/-- `readBit()` (R143): sticky on `bc_errored`; lazy advance to the next byte. -/
def readBit (s : State) : Read Bool :=
  if s.bcErrored then .raised s.errCode s
  else if s.bitOff = 8 then (fetchByte s).bind fun _ t => takeBit t
  else takeBit s

/-- The next bit of the step in progress: one it read before it came to wait, otherwise the cursor's next (R143, R148; log
entry 3). -/
def nextBit (s : State) : Read Bool :=
  match s.stepBits with
  | b :: rest => .got b { s with stepBits := rest }
  | [] => readBit s

/-- A read that came to wait remembers the bit read before it; the byte the bit was in stays consumed (spec/20_memory.md R62;
log entry 3). -/
def Read.remember {α : Type} (b : Bool) : Read α → Read α
  | .got a s => .got a s
  | .raised e s => .raised e s
  | .waiting s => .waiting { s with stepBits := b :: s.stepBits }

/-- A walk over the bits of the step in progress (spec/41_code_tables.md R160): it raises what the cursor raises, and where the
cursor waits it leaves the cursor there and the bits read so far in `stepBits`. -/
def runWalk {α : Type} : Walk α → State → Read α
  | .done a, s => .got a s
  | .ask next, s =>
    match nextBit s with
    | .got b t => (runWalk (next b) t).remember b
    | .raised e t => .raised e t
    | .waiting t => .waiting t

/-- `readBits(n)` (R144). -/
def readBits (n : Nat) (s : State) : Read Nat := runWalk (Walk.readBits n) s

/-- `readHeaderByte()` (R145). -/
def readHeaderByte (s : State) : Read Byte :=
  (fetchByte s).bind fun _ t => .got t.curByte { t with bitOff := 8 }

/-- A header byte of the step in progress: the one it read before it came to wait, otherwise `readHeaderByte()`. -/
def nextHeaderByte (s : State) : Read Byte :=
  match s.stepBits with
  | [] => readHeaderByte s
  | _ :: _ => .got (BitVec.ofNat 8 (bitsVal (s.stepBits.take 8))) { s with stepBits := s.stepBits.drop 8 }

/-- A read that came to wait remembers the header byte read before it. -/
def Read.rememberByte {α : Type} (v : Byte) : Read α → Read α
  | .got a s => .got a s
  | .raised e s => .raised e s
  | .waiting s => .waiting { s with stepBits := bitsOf 8 v.toNat ++ s.stepBits }

/-- The two reads of the header step (spec/43_decoder_fsm.md R212). -/
def readHeader (s : State) : Read (Byte × Byte) :=
  (nextHeaderByte s).bind fun m t => ((nextHeaderByte t).bind fun c u => .got (m, c) u).rememberByte m

/-- The program counter `bitpos`: the chunk bits consumed so far (spec/10_state.md R31). -/
def State.bitpos (s : State) : Int :=
  8 * ((s.chunkLen.toNat : Int) - s.bytesRem.toNat) - (8 - s.bitOff.val)

/-- How many of the source's coming answers are bytes, before the first that is not. -/
def bytesPresented : List SrcXfer → Nat
  | [] => 0
  | x :: rest => match x.answer with
    | .byte _ => 1 + bytesPresented rest
    | .endOfSource => 0
    | .ioError => 0

/-- How many bits the cursor can deliver now without waiting and without an error (R143, R146). -/
def State.cursorReady (s : State) : Nat :=
  if s.bcErrored then 0
  else (8 - s.bitOff.val) + 8 * min s.bytesRem.toNat (bytesPresented s.source)

/-- How many bits the step in progress can read now without waiting and without an error: those it has read already and those
the cursor can deliver. -/
def State.bitsReady (s : State) : Nat := s.stepBits.length + s.cursorReady

/-- Has the source an answer for every request the cursor can still make? (The premise of spec/70_reset_and_hazards.md
R322 on the source.) -/
def State.sourceAnswers (s : State) : Prop :=
  s.bytesRem.toNat ≤ bytesPresented s.source ∨ bytesPresented s.source < s.source.length

/-! ## Beats and errors -/

/-- `emit`: the beat the step produces goes to `out_hold` (spec/44_host_interface.md R257, R259); a byte also extends `OUT`
(spec/20_memory.md R65). -/
def emit (b : Beat) (s : State) : State :=
  match b with
  | .byte v => { s with outHold := some b, out := s.out ++ [v] }
  | .eos => { s with outHold := some b }
  | .err _ => { s with outHold := some b }

/-- `raise X` (spec/60_exceptions.md R283), the block's one way of taking an exception: `err_code` and `state` are written,
the step's beat is the error and nothing else of the step runs. `bc_errored` was set by the failing `fetchByte()`. -/
def raise (e : ErrCode) (s : State) : Outcome :=
  .next (emit (.err e) { s with errCode := e, state := .errored })

/-- The end of a step's reads: they are complete and the step goes on, or it raises; or the source has not answered, and the
step waits in progress with every byte consumed that was delivered (spec/40_bit_cursor.md R148, spec/20_memory.md R62; log
entry 3). -/
def settle {α : Type} (r : Read α) (go : α → State → Outcome) : Outcome :=
  match r with
  | .got a t => go a { t with stepBits := [] }
  | .raised e t => raise e { t with stepBits := [] }
  | .waiting t => .next t

/-! ## The dictionary -/

/-- `capacity = 2^(6 + dict_bits)` (spec/10_state.md R25). -/
def capacity (db : BitVec 3) : Nat := 2 ^ (6 + db.toNat)

/-- What is written at an address, if anything has been. -/
def Memory.lookup (m : Memory) (a : Nat) : Option Byte :=
  match m with
  | [] => none
  | (k, v) :: rest => if k = a then some v else Memory.lookup rest a

/-- Write one byte, keeping the addresses strictly rising. -/
def Memory.store (m : Memory) (a : Nat) (b : Byte) : Memory :=
  match m with
  | [] => [(a, b)]
  | (k, v) :: rest =>
    if a < k then (a, b) :: (k, v) :: rest
    else if a = k then (a, b) :: rest
    else (k, v) :: Memory.store rest a b

/-- Are all addresses above `lo` and strictly rising? -/
def Memory.risingFrom (lo : Nat) (m : Memory) : Bool :=
  match m with
  | [] => true
  | (k, _) :: rest => decide (lo ≤ k) && Memory.risingFrom (k + 1) rest

/-- The canonical form: addresses strictly rising and inside the RAM. -/
def Memory.wf (m : Memory) : Bool :=
  Memory.risingFrom 0 m && m.all fun c => decide (c.1 < Config.ramSize)

/-- The byte a slot holds; one that nothing has written holds the free value `Config.dictInit`
(spec/42_sliding_dictionary.md R195; log entry 4). -/
def State.slot (s : State) (a : Nat) : Byte :=
  match Memory.lookup s.dict a with
  | some b => b
  | none => Config.dictInit a

/-- The store address `(first + 1) mod capacity` (R191, R199). -/
def putIndex (s : State) : Nat := (s.first.toNat + 1) % capacity s.dictBits

/-- The load address `(capacity + first - off) mod capacity`, with `first` as it is before the put (R192, R199). The
operand is below the capacity for every decoded offset (spec/41_code_tables.md R168), so nothing negative occurs. -/
def getIndex (s : State) (off : BitVec 12) : Nat :=
  (capacity s.dictBits + s.first.toNat - off.toNat) % capacity s.dictBits

/-- `put(b)` (R191). -/
def put (b : Byte) (s : State) : Except Fault State :=
  if putIndex s < Config.ramSize then
    .ok { s with first := BitVec.ofNat 12 (putIndex s), dict := Memory.store s.dict (putIndex s) b }
  else .error (.dictAddress (putIndex s))

/-- `get(off)` (R192): the read precedes the implicit put (R193). -/
def get (off : BitVec 12) (s : State) : Except Fault (Byte × State) :=
  if getIndex s off < Config.ramSize then
    (put (s.slot (getIndex s off)) s).map fun t => (s.slot (getIndex s off), t)
  else .error (.dictAddress (getIndex s off))

/-- `put(b)`, then `emit Byte(b)`: the end of `literal()` (spec/43_decoder_fsm.md R220). -/
def putEmit (b : Byte) (s : State) : Outcome :=
  match put b s with
  | .ok t => .next (emit (.byte b) t)
  | .error f => .fault f

/-- `get(off)`, then `emit Byte(v)`: the end of `copyStart` and of `copyContinue` (spec/43_decoder_fsm.md R221, R223). -/
def getEmit (off : BitVec 12) (s : State) : Outcome :=
  match get off s with
  | .ok (v, t) => .next (emit (.byte v) t)
  | .error f => .fault f

end Sys2Proof.Machine
end

