-- ==== Sys2Proof/Machine/Flags.lean ====
section
/-! DEFINITION. The block's flags: three sticky conditions and no arithmetic condition codes (spec/10_state.md R42). -/

namespace Sys2Proof.Machine

/-- `Finished`: set only by the `END` token (R42). -/
def State.finishedFlag (s : State) : Bool := s.state == .finished

/-- `Errored`: set only by `raise` (R42). -/
def State.erroredFlag (s : State) : Bool := s.state == .errored

/-- The terminal states, whose pulls have no side effect (spec/43_decoder_fsm.md R228). -/
def State.terminal (s : State) : Bool := s.finishedFlag || s.erroredFlag

end Sys2Proof.Machine
end

