-- ==== Sys2Proof/Machine/Operands.lean ====
section
/-! DEFINITION. The operand forms: the length field, the offset-high code word and the raw low bits, as reads of the cursor
that leave the number in the model's fields `lenVal` and `highVal` (spec/30_encoding.md R95, R102, R103, R110; log entry 6). -/

namespace Sys2Proof.Machine

/-- Bits of the length field of a length: code word and extra bits (R98, R100). -/
def lengthBits (len : Nat) : Nat := (encodeLength len).length

/-- Bits of the code word of an offset-high value (R104). -/
def offsetHighBits (high : Nat) : Nat := (encodeOffsetHigh high).length

/-- `decodeLength()` having found a length field of `n` bits: the cursor passes them, the number returned is `len`
(spec/41_code_tables.md R161). -/
def lookupLength (n len : Nat) (s : State) : Read Unit :=
  (readBits n s).bind fun _ t => .got () { t with lenVal := BitVec.ofNat 10 len }

/-- `decodeOffsetHigh()` having found a code word of `n` bits: the cursor passes them, the number returned is `high`
(spec/41_code_tables.md R164). -/
def lookupOffsetHigh (n high : Nat) (s : State) : Read Unit :=
  (readBits n s).bind fun _ t => .got () { t with highVal := BitVec.ofNat 6 high }

/-- A row of `LEN_TABLE` run by itself: the walk that was asked for is answered. -/
def runLength (n len : Nat) (s : State) : Outcome :=
  settle (lookupLength n len s) fun _ t => .next { t with lookupReq := none }

/-- A row of `DIST_TABLE` run by itself: the walk that was asked for is answered. -/
def runOffsetHigh (n high : Nat) (s : State) : Outcome :=
  settle (lookupOffsetHigh n high s) fun _ t => .next { t with lookupReq := none }

/-- The bits of a `COPY` token with these fields: flag, length field, offset code word, low bits (R95). -/
def copyFieldBits (db : BitVec 3) (len off : Nat) : Nat :=
  1 + lengthBits len + offsetHighBits (off >>> lowBits db len) + lowBits db len

/-- The reads of a `COPY` token: the cursor passes its bits, and the numbers found stand in `lenVal` and `highVal` (R95,
spec/43_decoder_fsm.md R221). -/
def readCopyFields (len off : Nat) (s : State) : Read Unit :=
  (readBits (copyFieldBits s.dictBits len off) s).bind fun _ t =>
    .got () { t with lenVal := BitVec.ofNat 10 len, highVal := BitVec.ofNat 6 (off >>> lowBits s.dictBits len) }

/-- The offset of a `COPY` whose high part stands in `highVal` (R110, spec/41_code_tables.md R167). -/
def copyOffset (len off : Nat) (s : State) : BitVec 12 :=
  BitVec.ofNat 12 (assembleOffset s.highVal.toNat (lowBits s.dictBits len) (off % 2 ^ lowBits s.dictBits len))

end Sys2Proof.Machine
end

