-- ==== Sys2Proof/Machine/Tokens.lean ====
section
/-! DEFINITION. The three tokens and the `DECODING` step (spec/43_decoder_fsm.md R215, R220 to R224, R227). The tests of the
state (`DECODING`, no copy in progress) are the step's; a meaning is the instruction's own effect (log entry 13). -/

namespace Sys2Proof.Machine

/-- `LIT b` (R220): nine bits, then `put(b)` and `emit Byte(b)`. -/
def execLit (b : Byte) (s : State) : Outcome :=
  settle (readBits 9 s) fun _ t => putEmit b t

/-- `copyStart` (R221) once the fields are read: `copy_off`, `copy_rem <- len - 1`, `mode <- Copying`, then
`get(off)` and `emit Byte(v)`. The length is the one `decodeLength()` left in `lenVal`. -/
def copyStart (off : BitVec 12) (s : State) : Outcome :=
  getEmit off { s with copyOff := off, copyRem := s.lenVal - 1, mode := .copying }

/-- `COPY len, off`, first step (R221). -/
def execCopy (len : BitVec 10) (off : BitVec 12) (s : State) : Outcome :=
  settle (readCopyFields len.toNat off.toNat s) fun _ t => copyStart (copyOffset len.toNat off.toNat t) t

/-- `END` (R224): sixteen bits, the length 519, `state <- FINISHED`, `emit Eos`; no offset, no dictionary access. -/
def execEos (s : State) : Outcome :=
  settle (lookupLength 16 519 s) fun _ t =>
    .next (emit .eos { t with state := .finished })

/-- `copyContinue()` (R223): a step of a copy in progress; it reads no bits. -/
def copyContinue (s : State) : Outcome :=
  getEmit s.copyOff { s with
    copyRem := s.copyRem - 1
    mode := if s.copyRem - 1 = 0 then .literal else s.mode }

/-- The meaning of a token. -/
def runToken (tok : Token) (s : State) : Outcome :=
  match tok with
  | .lit b => execLit b s
  | .copy len off => execCopy len off s
  | .eos => execEos s

/-- `decodeStep()` (R215): a copy in progress goes on; otherwise the next token runs, or its bits run out and the step raises
(R226, R227). -/
def decodeStep (s : State) : Outcome :=
  if s.copyRem = 0 then settle (runWalk (decodeToken s.dictBits) s) fun tok _ => runToken tok s
  else copyContinue s

/-- `terminalStep()` (R228): the terminal beat again, nothing else. -/
def terminalStep (s : State) : Outcome :=
  if s.finishedFlag then .next (emit .eos s) else .next (emit (.err s.errCode) s)

end Sys2Proof.Machine
end

