-- ==== Sys2Proof/Machine/Header.lean ====
section
/-! DEFINITION. The header form `HDR` (spec/43_decoder_fsm.md R212, R213, R217). -/

namespace Sys2Proof.Machine

/-- The rest of the header step once both bytes are read: they are recorded, then checked, mode before size code (R212,
R213); a valid header prepares the dictionary, passes `HEADER_READ` and goes on with the first token in the same step
(R217). The dictionary is not cleared (spec/42_sliding_dictionary.md R195). -/
def headerChecks (m c : Byte) (s : State) : Outcome :=
  if m ≠ 0 then raise .unsupportedStaticDictionary { s with dictMode := m, dictSizeCode := c }
  else if legalSizeCode c.toNat then
    decodeStep { s with dictMode := m, dictSizeCode := c, dictBits := c.setWidth 3, first := 0, state := .decoding }
  else raise .unknownDictionarySize { s with dictMode := m, dictSizeCode := c }

/-- `HDR m, c` (R212): `ChunkTooSmall` before any byte is taken, then the two header bytes, then the checks. -/
def execHdr (m c : Byte) (s : State) : Outcome :=
  if s.chunkLen.toNat ≤ 2 then raise .chunkTooSmall s
  else settle (readHeader s) fun _ t => headerChecks m c t

end Sys2Proof.Machine
end

