-- ==== Sys2Proof/Machine/LengthCodes.lean ====
section
/-! DEFINITION. The words of the length code, rows `LEN_0` to `LEN_15` of `LEN_TABLE` (spec/30_encoding.md R100; semantics
`decodeLength()`, spec/41_code_tables.md R161, R162): the bits read and the number returned. -/

namespace Sys2Proof.Machine

/-- `LEN_0`: code word `11`, length 3 (R100). -/
def execLen0 (s : State) : Outcome := runLength 2 3 s

/-- `LEN_1`: code word `101`, length 2 (R100). -/
def execLen1 (s : State) : Outcome := runLength 3 2 s

/-- `LEN_2`: code word `100`, length 4 (R100). -/
def execLen2 (s : State) : Outcome := runLength 3 4 s

/-- `LEN_3`: code word `011`, length 5 (R100). -/
def execLen3 (s : State) : Outcome := runLength 3 5 s

/-- `LEN_4`: code word `0101`, length 6 (R100). -/
def execLen4 (s : State) : Outcome := runLength 4 6 s

/-- `LEN_5`: code word `0100`, length 7 (R100). -/
def execLen5 (s : State) : Outcome := runLength 4 7 s

/-- `LEN_6`: code word `0011`, length 8 (R100). -/
def execLen6 (s : State) : Outcome := runLength 4 8 s

/-- `LEN_7`: code word `00101`, length 9 (R100). -/
def execLen7 (s : State) : Outcome := runLength 5 9 s

/-- `LEN_8`: code word `00100` and 1 extra bits, lengths from 10 (R100). -/
def execLen8 (e : BitVec 1) (s : State) : Outcome := runLength 6 (10 + e.toNat) s

/-- `LEN_9`: code word `00011` and 2 extra bits, lengths from 12 (R100). -/
def execLen9 (e : BitVec 2) (s : State) : Outcome := runLength 7 (12 + e.toNat) s

/-- `LEN_10`: code word `00010` and 3 extra bits, lengths from 16 (R100). -/
def execLen10 (e : BitVec 3) (s : State) : Outcome := runLength 8 (16 + e.toNat) s

/-- `LEN_11`: code word `000011` and 4 extra bits, lengths from 24 (R100). -/
def execLen11 (e : BitVec 4) (s : State) : Outcome := runLength 10 (24 + e.toNat) s

/-- `LEN_12`: code word `000010` and 5 extra bits, lengths from 40 (R100). -/
def execLen12 (e : BitVec 5) (s : State) : Outcome := runLength 11 (40 + e.toNat) s

/-- `LEN_13`: code word `000001` and 6 extra bits, lengths from 72 (R100). -/
def execLen13 (e : BitVec 6) (s : State) : Outcome := runLength 12 (72 + e.toNat) s

/-- `LEN_14`: code word `0000001` and 7 extra bits, lengths from 136 (R100). -/
def execLen14 (e : BitVec 7) (s : State) : Outcome := runLength 14 (136 + e.toNat) s

/-- `LEN_15`: code word `0000000` and 8 extra bits, lengths from 264 (R100). -/
def execLen15 (e : BitVec 8) (s : State) : Outcome := runLength 15 (264 + e.toNat) s

end Sys2Proof.Machine
end

