-- ==== Sys2Proof/Machine/OffsetCodes.lean ====
section
/-! DEFINITION. The words of the offset-high code, rows `DIST_0` to `DIST_63` of `DIST_TABLE` (spec/30_encoding.md R104, R105;
semantics `decodeOffsetHigh()`, spec/41_code_tables.md R164, R165): the bits read and the number returned. -/

namespace Sys2Proof.Machine

/-- `DIST_0`: code word `11` of group A (R104). -/
def execDist0 (s : State) : Outcome := runOffsetHigh 2 0 s

/-- `DIST_1`: code word `1011` of group B (R104). -/
def execDist1 (s : State) : Outcome := runOffsetHigh 4 1 s

/-- `DIST_2`: code word `1010` of group B (R104). -/
def execDist2 (s : State) : Outcome := runOffsetHigh 4 2 s

/-- `DIST_3`: code word `10011` of group B (R104). -/
def execDist3 (s : State) : Outcome := runOffsetHigh 5 3 s

/-- `DIST_4`: code word `10010` of group B (R104). -/
def execDist4 (s : State) : Outcome := runOffsetHigh 5 4 s

/-- `DIST_5`: code word `10001` of group B (R104). -/
def execDist5 (s : State) : Outcome := runOffsetHigh 5 5 s

/-- `DIST_6`: code word `10000` of group B (R104). -/
def execDist6 (s : State) : Outcome := runOffsetHigh 5 6 s

/-- `DIST_7`: code word `011111` of group C (R104). -/
def execDist7 (s : State) : Outcome := runOffsetHigh 6 7 s

/-- `DIST_8`: code word `011110` of group C (R104). -/
def execDist8 (s : State) : Outcome := runOffsetHigh 6 8 s

/-- `DIST_9`: code word `011101` of group C (R104). -/
def execDist9 (s : State) : Outcome := runOffsetHigh 6 9 s

/-- `DIST_10`: code word `011100` of group C (R104). -/
def execDist10 (s : State) : Outcome := runOffsetHigh 6 10 s

/-- `DIST_11`: code word `011011` of group C (R104). -/
def execDist11 (s : State) : Outcome := runOffsetHigh 6 11 s

/-- `DIST_12`: code word `011010` of group C (R104). -/
def execDist12 (s : State) : Outcome := runOffsetHigh 6 12 s

/-- `DIST_13`: code word `011001` of group C (R104). -/
def execDist13 (s : State) : Outcome := runOffsetHigh 6 13 s

/-- `DIST_14`: code word `011000` of group C (R104). -/
def execDist14 (s : State) : Outcome := runOffsetHigh 6 14 s

/-- `DIST_15`: code word `010111` of group C (R104). -/
def execDist15 (s : State) : Outcome := runOffsetHigh 6 15 s

/-- `DIST_16`: code word `010110` of group C (R104). -/
def execDist16 (s : State) : Outcome := runOffsetHigh 6 16 s

/-- `DIST_17`: code word `010101` of group C (R104). -/
def execDist17 (s : State) : Outcome := runOffsetHigh 6 17 s

/-- `DIST_18`: code word `010100` of group C (R104). -/
def execDist18 (s : State) : Outcome := runOffsetHigh 6 18 s

/-- `DIST_19`: code word `010011` of group C (R104). -/
def execDist19 (s : State) : Outcome := runOffsetHigh 6 19 s

/-- `DIST_20`: code word `010010` of group C (R104). -/
def execDist20 (s : State) : Outcome := runOffsetHigh 6 20 s

/-- `DIST_21`: code word `010001` of group C (R104). -/
def execDist21 (s : State) : Outcome := runOffsetHigh 6 21 s

/-- `DIST_22`: code word `0100001` of group C (R104). -/
def execDist22 (s : State) : Outcome := runOffsetHigh 7 22 s

/-- `DIST_23`: code word `0100000` of group C (R104). -/
def execDist23 (s : State) : Outcome := runOffsetHigh 7 23 s

/-- `DIST_24`: code word `0011111` of group D (R104). -/
def execDist24 (s : State) : Outcome := runOffsetHigh 7 24 s

/-- `DIST_25`: code word `0011110` of group D (R104). -/
def execDist25 (s : State) : Outcome := runOffsetHigh 7 25 s

/-- `DIST_26`: code word `0011101` of group D (R104). -/
def execDist26 (s : State) : Outcome := runOffsetHigh 7 26 s

/-- `DIST_27`: code word `0011100` of group D (R104). -/
def execDist27 (s : State) : Outcome := runOffsetHigh 7 27 s

/-- `DIST_28`: code word `0011011` of group D (R104). -/
def execDist28 (s : State) : Outcome := runOffsetHigh 7 28 s

/-- `DIST_29`: code word `0011010` of group D (R104). -/
def execDist29 (s : State) : Outcome := runOffsetHigh 7 29 s

/-- `DIST_30`: code word `0011001` of group D (R104). -/
def execDist30 (s : State) : Outcome := runOffsetHigh 7 30 s

/-- `DIST_31`: code word `0011000` of group D (R104). -/
def execDist31 (s : State) : Outcome := runOffsetHigh 7 31 s

/-- `DIST_32`: code word `0010111` of group E (R104). -/
def execDist32 (s : State) : Outcome := runOffsetHigh 7 32 s

/-- `DIST_33`: code word `0010110` of group E (R104). -/
def execDist33 (s : State) : Outcome := runOffsetHigh 7 33 s

/-- `DIST_34`: code word `0010101` of group E (R104). -/
def execDist34 (s : State) : Outcome := runOffsetHigh 7 34 s

/-- `DIST_35`: code word `0010100` of group E (R104). -/
def execDist35 (s : State) : Outcome := runOffsetHigh 7 35 s

/-- `DIST_36`: code word `0010011` of group E (R104). -/
def execDist36 (s : State) : Outcome := runOffsetHigh 7 36 s

/-- `DIST_37`: code word `0010010` of group E (R104). -/
def execDist37 (s : State) : Outcome := runOffsetHigh 7 37 s

/-- `DIST_38`: code word `0010001` of group E (R104). -/
def execDist38 (s : State) : Outcome := runOffsetHigh 7 38 s

/-- `DIST_39`: code word `0010000` of group E (R104). -/
def execDist39 (s : State) : Outcome := runOffsetHigh 7 39 s

/-- `DIST_40`: code word `0001111` of group F (R104). -/
def execDist40 (s : State) : Outcome := runOffsetHigh 7 40 s

/-- `DIST_41`: code word `0001110` of group F (R104). -/
def execDist41 (s : State) : Outcome := runOffsetHigh 7 41 s

/-- `DIST_42`: code word `0001101` of group F (R104). -/
def execDist42 (s : State) : Outcome := runOffsetHigh 7 42 s

/-- `DIST_43`: code word `0001100` of group F (R104). -/
def execDist43 (s : State) : Outcome := runOffsetHigh 7 43 s

/-- `DIST_44`: code word `0001011` of group F (R104). -/
def execDist44 (s : State) : Outcome := runOffsetHigh 7 44 s

/-- `DIST_45`: code word `0001010` of group F (R104). -/
def execDist45 (s : State) : Outcome := runOffsetHigh 7 45 s

/-- `DIST_46`: code word `0001001` of group F (R104). -/
def execDist46 (s : State) : Outcome := runOffsetHigh 7 46 s

/-- `DIST_47`: code word `0001000` of group F (R104). -/
def execDist47 (s : State) : Outcome := runOffsetHigh 7 47 s

/-- `DIST_48`: code word `00001111` of group G (R104). -/
def execDist48 (s : State) : Outcome := runOffsetHigh 8 48 s

/-- `DIST_49`: code word `00001110` of group G (R104). -/
def execDist49 (s : State) : Outcome := runOffsetHigh 8 49 s

/-- `DIST_50`: code word `00001101` of group G (R104). -/
def execDist50 (s : State) : Outcome := runOffsetHigh 8 50 s

/-- `DIST_51`: code word `00001100` of group G (R104). -/
def execDist51 (s : State) : Outcome := runOffsetHigh 8 51 s

/-- `DIST_52`: code word `00001011` of group G (R104). -/
def execDist52 (s : State) : Outcome := runOffsetHigh 8 52 s

/-- `DIST_53`: code word `00001010` of group G (R104). -/
def execDist53 (s : State) : Outcome := runOffsetHigh 8 53 s

/-- `DIST_54`: code word `00001001` of group G (R104). -/
def execDist54 (s : State) : Outcome := runOffsetHigh 8 54 s

/-- `DIST_55`: code word `00001000` of group G (R104). -/
def execDist55 (s : State) : Outcome := runOffsetHigh 8 55 s

/-- `DIST_56`: code word `00000111` of group G (R104). -/
def execDist56 (s : State) : Outcome := runOffsetHigh 8 56 s

/-- `DIST_57`: code word `00000110` of group G (R104). -/
def execDist57 (s : State) : Outcome := runOffsetHigh 8 57 s

/-- `DIST_58`: code word `00000101` of group G (R104). -/
def execDist58 (s : State) : Outcome := runOffsetHigh 8 58 s

/-- `DIST_59`: code word `00000100` of group G (R104). -/
def execDist59 (s : State) : Outcome := runOffsetHigh 8 59 s

/-- `DIST_60`: code word `00000011` of group G (R104). -/
def execDist60 (s : State) : Outcome := runOffsetHigh 8 60 s

/-- `DIST_61`: code word `00000010` of group G (R104). -/
def execDist61 (s : State) : Outcome := runOffsetHigh 8 61 s

/-- `DIST_62`: code word `00000001` of group G (R104). -/
def execDist62 (s : State) : Outcome := runOffsetHigh 8 62 s

/-- `DIST_63`: code word `00000000` of group G (R104). -/
def execDist63 (s : State) : Outcome := runOffsetHigh 8 63 s

end Sys2Proof.Machine
end

