-- ==== Sys2Proof/Machine/Dispatch.lean ====
section
/-! DEFINITION. `exec`: one arm per row of spec/opcode_table.json, each one call of that row's meaning. -/

namespace Sys2Proof.Machine

def exec (i : Instr) (s : State) : Host.Outcome State Fault Refusal :=
  match i with
  | .hdr m c => Sys2Proof.Machine.execHdr m c s
  | .lit b => Sys2Proof.Machine.execLit b s
  | .copy len off => Sys2Proof.Machine.execCopy len off s
  | .eos => Sys2Proof.Machine.execEos s
  | .len0 => Sys2Proof.Machine.execLen0 s
  | .len1 => Sys2Proof.Machine.execLen1 s
  | .len2 => Sys2Proof.Machine.execLen2 s
  | .len3 => Sys2Proof.Machine.execLen3 s
  | .len4 => Sys2Proof.Machine.execLen4 s
  | .len5 => Sys2Proof.Machine.execLen5 s
  | .len6 => Sys2Proof.Machine.execLen6 s
  | .len7 => Sys2Proof.Machine.execLen7 s
  | .len8 e => Sys2Proof.Machine.execLen8 e s
  | .len9 e => Sys2Proof.Machine.execLen9 e s
  | .len10 e => Sys2Proof.Machine.execLen10 e s
  | .len11 e => Sys2Proof.Machine.execLen11 e s
  | .len12 e => Sys2Proof.Machine.execLen12 e s
  | .len13 e => Sys2Proof.Machine.execLen13 e s
  | .len14 e => Sys2Proof.Machine.execLen14 e s
  | .len15 e => Sys2Proof.Machine.execLen15 e s
  | .dist0 => Sys2Proof.Machine.execDist0 s
  | .dist1 => Sys2Proof.Machine.execDist1 s
  | .dist2 => Sys2Proof.Machine.execDist2 s
  | .dist3 => Sys2Proof.Machine.execDist3 s
  | .dist4 => Sys2Proof.Machine.execDist4 s
  | .dist5 => Sys2Proof.Machine.execDist5 s
  | .dist6 => Sys2Proof.Machine.execDist6 s
  | .dist7 => Sys2Proof.Machine.execDist7 s
  | .dist8 => Sys2Proof.Machine.execDist8 s
  | .dist9 => Sys2Proof.Machine.execDist9 s
  | .dist10 => Sys2Proof.Machine.execDist10 s
  | .dist11 => Sys2Proof.Machine.execDist11 s
  | .dist12 => Sys2Proof.Machine.execDist12 s
  | .dist13 => Sys2Proof.Machine.execDist13 s
  | .dist14 => Sys2Proof.Machine.execDist14 s
  | .dist15 => Sys2Proof.Machine.execDist15 s
  | .dist16 => Sys2Proof.Machine.execDist16 s
  | .dist17 => Sys2Proof.Machine.execDist17 s
  | .dist18 => Sys2Proof.Machine.execDist18 s
  | .dist19 => Sys2Proof.Machine.execDist19 s
  | .dist20 => Sys2Proof.Machine.execDist20 s
  | .dist21 => Sys2Proof.Machine.execDist21 s
  | .dist22 => Sys2Proof.Machine.execDist22 s
  | .dist23 => Sys2Proof.Machine.execDist23 s
  | .dist24 => Sys2Proof.Machine.execDist24 s
  | .dist25 => Sys2Proof.Machine.execDist25 s
  | .dist26 => Sys2Proof.Machine.execDist26 s
  | .dist27 => Sys2Proof.Machine.execDist27 s
  | .dist28 => Sys2Proof.Machine.execDist28 s
  | .dist29 => Sys2Proof.Machine.execDist29 s
  | .dist30 => Sys2Proof.Machine.execDist30 s
  | .dist31 => Sys2Proof.Machine.execDist31 s
  | .dist32 => Sys2Proof.Machine.execDist32 s
  | .dist33 => Sys2Proof.Machine.execDist33 s
  | .dist34 => Sys2Proof.Machine.execDist34 s
  | .dist35 => Sys2Proof.Machine.execDist35 s
  | .dist36 => Sys2Proof.Machine.execDist36 s
  | .dist37 => Sys2Proof.Machine.execDist37 s
  | .dist38 => Sys2Proof.Machine.execDist38 s
  | .dist39 => Sys2Proof.Machine.execDist39 s
  | .dist40 => Sys2Proof.Machine.execDist40 s
  | .dist41 => Sys2Proof.Machine.execDist41 s
  | .dist42 => Sys2Proof.Machine.execDist42 s
  | .dist43 => Sys2Proof.Machine.execDist43 s
  | .dist44 => Sys2Proof.Machine.execDist44 s
  | .dist45 => Sys2Proof.Machine.execDist45 s
  | .dist46 => Sys2Proof.Machine.execDist46 s
  | .dist47 => Sys2Proof.Machine.execDist47 s
  | .dist48 => Sys2Proof.Machine.execDist48 s
  | .dist49 => Sys2Proof.Machine.execDist49 s
  | .dist50 => Sys2Proof.Machine.execDist50 s
  | .dist51 => Sys2Proof.Machine.execDist51 s
  | .dist52 => Sys2Proof.Machine.execDist52 s
  | .dist53 => Sys2Proof.Machine.execDist53 s
  | .dist54 => Sys2Proof.Machine.execDist54 s
  | .dist55 => Sys2Proof.Machine.execDist55 s
  | .dist56 => Sys2Proof.Machine.execDist56 s
  | .dist57 => Sys2Proof.Machine.execDist57 s
  | .dist58 => Sys2Proof.Machine.execDist58 s
  | .dist59 => Sys2Proof.Machine.execDist59 s
  | .dist60 => Sys2Proof.Machine.execDist60 s
  | .dist61 => Sys2Proof.Machine.execDist61 s
  | .dist62 => Sys2Proof.Machine.execDist62 s
  | .dist63 => Sys2Proof.Machine.execDist63 s

end Sys2Proof.Machine
end

