-- ==== Sys2Proof/Machine/Environment.lean ====
section
/-! DEFINITION. What the host does to the block: reset, `Start(L)`, taking the held beat, and the source's coming answers
(spec/44_host_interface.md R251 to R256, R261; spec/70_reset_and_hazards.md R310). -/

namespace Sys2Proof.Machine

/-- What the host does when its list is at an end: it takes beats and nothing else (the consumer's half of the premise R322);
log entry 2. -/
def HostInput.quiet : HostInput where
  rst := false
  start := none
  outReady := true
  seek := none
  arrive := []

/-- The host's input of this model step. -/
def State.input (s : State) : HostInput :=
  match s.host with
  | [] => HostInput.quiet
  | x :: _ => x

/-- The source's coming answers after this step's positioning and arrivals (R250, R255, R261), and the host's list without
its head. -/
def takeInput (s : State) : State :=
  { s with
    source := (s.input.seek.getD s.source) ++ s.input.arrive
    host := s.host.tail }

/-- Reset (R310, spec/10_state.md R40): every register takes its reset value; the dictionary RAM is untouched, and so is the
environment. -/
def applyReset (s : State) : State :=
  { State.reset with dict := s.dict, source := s.source, host := s.host }

/-- `Start(L)` (spec/44_host_interface.md R253, spec/10_state.md R41), accepted in every state. -/
def applyStart (len : Len) (s : State) : State :=
  { s with
    state := .init
    errCode := .none
    chunkLen := len
    bytesRem := len
    bitOff := 8
    bcErrored := false
    mode := .literal
    copyRem := 0
    copyOff := 0
    outHold := none
    out := []
    stepBits := []
    lookupReq := none }

/-- The consumer takes the held beat, if it is ready (R256): `out_hold` empties. -/
def handOver (ready : Bool) (s : State) : State :=
  if ready then { s with outHold := none } else s

end Sys2Proof.Machine
end

