-- ==== Sys2Proof/Machine/Decoder.lean ====
section
/-! DEFINITION. The decoder's step: find what it has to do, fetch and decode the instruction at the cursor, run it
(spec/43_decoder_fsm.md R211, R214, R215), and one edge of the block with its host (spec/44_host_interface.md R252, R256,
R259). -/

namespace Sys2Proof.Machine

/-- What a step of the decoder does, by state (R214). -/
inductive Activity where
  /-- `IDLE`: no step exists. -/
  | waitForStart
  /-- `FINISHED`, `ERRORED` (R228). -/
  | repeatTerminal
  /-- A copy in progress (R223). -/
  | continueCopy
  /-- An instruction is fetched, in this context. -/
  | fetch (ctx : Context)
  deriving DecidableEq, Repr

/-- The context of a table walk asked for by itself (log entry 6). -/
def Lookup.context : Lookup → Context
  | .length => .length
  | .offsetHigh => .offsetHigh

/-- What the `DECODING` state does (R215). -/
def decodingActivity (s : State) : Activity :=
  match s.lookupReq with
  | some l => .fetch l.context
  | none => if s.copyRem = 0 then .fetch .token else .continueCopy

/-- What the decoder does next (R214). -/
def State.activity (s : State) : Activity :=
  match s.state with
  | .idle => .waitForStart
  | .init => .fetch .header
  | .headerRead => decodingActivity s
  | .decoding => decodingActivity s
  | .finished => .repeatTerminal
  | .errored => .repeatTerminal

/-- Fetch and decode the instruction at the cursor in a context; the state given back with it is the cursor after the walk.
A chunk of at most two bytes raises before any byte is taken (R212). -/
def fetchInstr (ctx : Context) (s : State) : Read Instr :=
  match ctx with
  | .header =>
    if s.chunkLen.toNat ≤ 2 then .raised .chunkTooSmall s
    else (readHeader s).bind fun mc t => .got (.hdr mc.1 mc.2) t
  | .token => runWalk (decodeWalk .token s.dictBits) s
  | .length => runWalk (decodeWalk .length s.dictBits) s
  | .offsetHigh => runWalk (decodeWalk .offsetHigh s.dictBits) s

/-- `HEADER_READ` is left for `DECODING` with no condition (spec/10_state.md R21). -/
def leaveHeaderRead (s : State) : State :=
  if s.state = .headerRead then { s with state := .decoding } else s

/-- One step of the decoder (R214): it runs the instruction at the cursor, or goes on with a copy, or repeats the terminal
beat; where the instruction's bits run out it raises (R227), where the source has not answered the step waits in progress (R148; log
entry 3). -/
def decoderStep (s : State) : Outcome :=
  match s.activity with
  | .waitForStart => .next s
  | .repeatTerminal => terminalStep s
  | .continueCopy => copyContinue (leaveHeaderRead s)
  | .fetch ctx => settle (fetchInstr ctx (leaveHeaderRead s)) fun i _ => exec i (leaveHeaderRead s)

/-- The block's half of a model step: a beat still held stops it (R259: at most one step ahead of the consumer), otherwise
the decoder runs its step. -/
def blockStep (s : State) : Outcome :=
  if s.outHold.isSome then .next s else decoderStep s

/-- One edge: reset before `Start` before everything else (R252, spec/60_exceptions.md R285); then the consumer takes the held
beat if it is ready, and the decoder runs if nothing is held. -/
def edge (s : State) : Outcome :=
  if s.input.rst then .next (applyReset (takeInput s))
  else match s.input.start with
    | some len => .next (applyStart len (takeInput s))
    | none => blockStep (handOver s.input.outReady (takeInput s))

/-- The chunk bytes of a table word: its bits in stream order, filled with 0 bits to eight bytes, more than the longest
first step (a header and a token of 30 bits) needs. -/
def placedBytes (nbits w : Nat) : List Byte :=
  packBytes 8 (tableBits nbits w ++ List.replicate 64 false)

/-- The state in which an instruction of that context is fetched next, with `n` chunk bytes still to come (log entries 9,
10). -/
def stateFor (ctx : Context) (n : Nat) (s : State) : State :=
  let t := { s with
    errCode := .none
    chunkLen := BitVec.ofNat 32 n
    bytesRem := BitVec.ofNat 32 n
    bitOff := 8
    bcErrored := false
    mode := .literal
    copyRem := 0
    outHold := none
    stepBits := []
    host := [] }
  match ctx with
  | .header => { t with state := .init, lookupReq := none }
  | .token => { t with state := .decoding, lookupReq := none, dictBits := tableDictBits }
  | .length => { t with state := .decoding, lookupReq := some .length }
  | .offsetHigh => { t with state := .decoding, lookupReq := some .offsetHigh }

/-- The state with a table word placed where the next step fetches (log entry 10). -/
def placeWord (s : State) (nbits w : Nat) : State :=
  let ctx := match decodeTableWord nbits w with
    | some i => i.context
    | none => .token
  let t := stateFor ctx 8 s
  { t with source := (placedBytes nbits w).map SrcXfer.byte ++ t.source }

end Sys2Proof.Machine
end

