-- ==== Sys2Proof/Machine/Step.lean ====
section
/-! DEFINITION. The machine's step and the placing of a table word where it fetches. -/

namespace Sys2Proof.Machine

/-- One step of the machine: one edge of the block with its host (log entry 1). -/
def step (s : State) : Host.Outcome State Fault Refusal := edge s

/-- `s` with the instruction of a table word stored where `step` fetches its next instruction (log entries 9, 10). -/
def State.withFetchWord (s : State) (nbits w : Nat) : State := placeWord s nbits w

end Sys2Proof.Machine
end

