-- ==== Sys2Proof/Machine/Ports.lean ====
section
/-! DEFINITION. The output ports as views of State, with the numeric codes of this spec (spec/44_host_interface.md R251, R256,
R257, R260; spec/10_state.md R21, R22; spec/92_eei_decisions.md D11). -/

namespace Sys2Proof.Machine

/-- The numeric code of `state` (R21). -/
def FsmState.code : FsmState → BitVec 3
  | .idle => 0
  | .init => 1
  | .headerRead => 2
  | .decoding => 3
  | .finished => 4
  | .errored => 5

/-- The numeric code of `err_code` (R22). -/
def ErrCode.code : ErrCode → BitVec 3
  | .none => 0
  | .chunkTooSmall => 1
  | .unsupportedStaticDictionary => 2
  | .unknownDictionarySize => 3
  | .unexpectedEndOfChunk => 4
  | .underlyingIOError => 5

/-- `st_state`. -/
def stState (s : State) : BitVec 3 := s.state.code

/-- `st_err`. -/
def stErr (s : State) : BitVec 3 := s.errCode.code

/-- `st_consumed`: chunk bytes taken from the source since `Start`. -/
def stConsumed (s : State) : Len := s.chunkLen - s.bytesRem

/-- `st_dict_mode`. -/
def stDictMode (s : State) : Byte := s.dictMode

/-- `st_dict_size`. -/
def stDictSize (s : State) : Byte := s.dictSizeCode

/-- `out_valid`: a beat is held (R256) and `rst` is not asserted (R252). -/
def outValid (s : State) : Bool := !s.input.rst && s.outHold.isSome

/-- `out_kind` of a beat: 0 `BYTE`, 1 `EOS`, 2 `ERR` (R257). -/
def Beat.kind : Beat → BitVec 2
  | .byte _ => 0
  | .eos => 1
  | .err _ => 2

/-- `out_data` of a beat: the byte; of `Eos` and `Err` any value, here none (R257; log entry 15). -/
def Beat.data : Beat → Option Byte
  | .byte v => some v
  | .eos => none
  | .err _ => none

/-- `out_err` of a beat: the error's code, otherwise 0 (R257). -/
def Beat.errBits : Beat → BitVec 3
  | .byte _ => 0
  | .eos => 0
  | .err c => c.code

/-- Does the decoder's next step ask the source for a byte? It does exactly if it would wait for a source that presents
nothing (spec/40_bit_cursor.md R142, R148). -/
def needsSource (s : State) : Bool :=
  match s.activity with
  | .waitForStart => false
  | .repeatTerminal => false
  | .continueCopy => false
  | .fetch ctx => match fetchInstr ctx { s with source := [] } with
    | .got _ _ => false
    | .raised _ _ => false
    | .waiting _ => true

/-- `src_ready`: nothing is held, the step to come or in progress asks the source (R251, R254), and `rst` is not asserted
(R252). -/
def srcReady (s : State) : Bool := !s.input.rst && !s.outHold.isSome && needsSource s

end Sys2Proof.Machine
end

