-- ==== Sys2Proof/Safety.lean ====
section
/-! DEFINITION. The terms claims use: what a step of the cursor may move, the invariant of every step boundary
(spec/10_state.md R38), the history the dictionary holds (spec/20_memory.md R65), and what it is for an instruction to
complete. -/

namespace Sys2Proof.Machine

/-! ## What moves -/

/-- `t` is `s` with the bit cursor moved: nothing but `cur_byte`, `bit_off`, `bytes_rem`, the source and the bits of the step in
progress differs (spec/40_bit_cursor.md R140). -/
abbrev CursorMoved (s t : State) : Prop :=
  t = { s with
    curByte := t.curByte, bitOff := t.bitOff, bytesRem := t.bytesRem, source := t.source, stepBits := t.stepBits }

/-- `t` is `s` after a failed step: the cursor, the flags of the error and the beat differ, nothing else
(spec/60_exceptions.md R283, spec/43_decoder_fsm.md R227). -/
abbrev ErrorRaised (s t : State) : Prop :=
  t = { s with
    curByte := t.curByte, bitOff := t.bitOff, bytesRem := t.bytesRem, source := t.source, stepBits := t.stepBits
    bcErrored := t.bcErrored, errCode := t.errCode, state := .errored, outHold := some (.err t.errCode) }

/-- The bytes among the source's coming answers, before the first that is no byte. -/
def presentedBytes : List SrcXfer → List Byte
  | [] => []
  | x :: rest => match x.answer with
    | .byte v => v :: presentedBytes rest
    | .endOfSource => []
    | .ioError => []

/-- The chunk bits from the cursor on, in stream order, as far as the source has presented them: the rest of `cur_byte`, then
the presented bytes that lie inside the declared length (spec/20_memory.md R66, spec/40_bit_cursor.md R146). -/
def State.cursorBits (s : State) : Bits :=
  if s.bcErrored then []
  else (bitsOf 8 s.curByte.toNat).drop s.bitOff.val ++
    bytesBits ((presentedBytes s.source).take s.bytesRem.toNat)

/-- The chunk bits from the first bit of the step to come or in progress: those it has read already, then the cursor's. -/
def State.upcomingBits (s : State) : Bits := s.stepBits ++ s.cursorBits

/-! ## Invariants -/

/-- R38 item 3: the header's values in the states that follow a valid header. -/
abbrev State.headerValid (s : State) : Prop :=
  (s.state = .headerRead ∨ s.state = .decoding ∨ s.state = .finished) →
    s.dictMode = 0 ∧ legalSizeCode s.dictSizeCode.toNat = true ∧ s.dictBits = s.dictSizeCode.setWidth 3

/-- R38 item 4: the ranges of the dictionary and copy registers while decoding. -/
abbrev State.rangesOk (s : State) : Prop :=
  s.state = .decoding →
    s.first.toNat < capacity s.dictBits ∧ s.copyOff.toNat < capacity s.dictBits ∧ s.copyRem.toNat ≤ 517

/-- R38 item 7, with `copy_off` as `Start` leaves it (R41): what holds before the header is read. While the header step waits
for its second byte (R148) one byte is consumed, the one in `stepBits`. -/
abbrev State.initFresh (s : State) : Prop :=
  s.state = .init →
    (s.stepBits = [] ∧ s.bytesRem = s.chunkLen ∨
      s.stepBits.length = 8 ∧ s.bytesRem.toNat + 1 = s.chunkLen.toNat ∧ 2 < s.chunkLen.toNat) ∧
      s.bitOff = 8 ∧ s.copyRem = 0 ∧ s.mode = .literal ∧ s.errCode = .none ∧ s.bcErrored = false ∧ s.copyOff = 0 ∧
      s.lookupReq = none

/-- A step in progress is one that waits: the decoder fetches, the bits read so far do not make the instruction yet, and no
beat is held (R148, R259). -/
def State.stepOpen (s : State) : Bool :=
  match s.activity with
  | .waitForStart => s.stepBits.isEmpty
  | .repeatTerminal => s.stepBits.isEmpty
  | .continueCopy => s.stepBits.isEmpty
  | .fetch ctx =>
    (s.stepBits.isEmpty || s.outHold.isNone) &&
      match decodeBits ctx s.dictBits s.stepBits with
      | .ok _ => false
      | .error _ => true

/-- What holds at every step boundary (R38) and while a step waits, with R29's implication, R214's remark that `HEADER_READ` is
never there, the canonical form of the dictionary, and what a step in progress has read. R38 item 1 is the type of `bitOff`. -/
abbrev State.Inv (s : State) : Prop :=
  s.bytesRem ≤ s.chunkLen ∧ s.headerValid ∧ s.rangesOk ∧ (s.mode = .copying ↔ s.copyRem ≠ 0) ∧
    (s.errCode ≠ .none ↔ s.state = .errored) ∧ s.initFresh ∧ (s.bcErrored = true → s.state = .errored) ∧
    s.state ≠ .headerRead ∧ Memory.wf s.dict = true ∧ s.stepOpen = true

/-- R65 and R197: the newest `min(n, capacity)` output bytes stand in the dictionary, the newest at `first`, the byte `k`
before it at `(first - k) mod capacity`; `first` is the count of bytes emitted, modulo the capacity. Before the header is
read nothing has been emitted. -/
def State.History (s : State) : Prop :=
  (s.state = .init → s.out = []) ∧
  ((s.state = .decoding ∨ s.out ≠ []) →
    s.first.toNat = s.out.length % capacity s.dictBits ∧
    ∀ k, k < min s.out.length (capacity s.dictBits) →
      s.out.reverse[k]? = some (s.slot ((capacity s.dictBits + s.first.toNat - k) % capacity s.dictBits)))

/-- The held beat fits the state: none before the first step, only bytes while decoding, `Eos` in `FINISHED`, the recorded
error in `ERRORED` (R230 (b), R257). -/
def State.beatFits (s : State) : Bool :=
  match s.state, s.outHold with
  | _, none => true
  | .decoding, some (.byte _) => true
  | .finished, some .eos => true
  | .errored, some (.err c) => c == s.errCode
  | _, some _ => false

/-! ## The host at rest -/

/-- This model step brings neither reset nor `Start`, and the source's coming answers are left as they are. -/
abbrev State.undisturbed (s : State) : Prop :=
  s.input.rst = false ∧ s.input.start = none ∧ s.input.seek = none ∧ s.input.arrive = []

/-! ## Bits the code tables take -/

/-- How many bits `decodeLength()` consumes for each result (spec/41_code_tables.md R162). -/
def lengthConsumed (len : Nat) : Nat :=
  if len = 3 then 2 else if len ≤ 5 then 3 else if len ≤ 8 then 4 else if len = 9 then 5 else if len ≤ 11 then 6
  else if len ≤ 15 then 7 else if len ≤ 23 then 8 else if len ≤ 39 then 10 else if len ≤ 71 then 11
  else if len ≤ 135 then 12 else if len ≤ 263 then 14 else 15

/-- How many bits `decodeOffsetHigh()` consumes for each result (spec/41_code_tables.md R165). -/
def highConsumed (high : Nat) : Nat :=
  if high = 0 then 2 else if high ≤ 2 then 4 else if high ≤ 6 then 5 else if high ≤ 21 then 6
  else if high ≤ 47 then 7 else 8

/-! ## Completion of the table rows -/

/-- Of the first `n` bits of the step to come or in progress, how many are still to be taken from the cursor: all `n` at a step
boundary, fewer where the step has come to wait (R148). -/
def State.unread (s : State) (n : Nat) : Nat := n - s.stepBits.length

/-- The row `i` of `LEN_TABLE` completes in `s`: if the step can read the row's `n` bits, `exec` answers the state with the
cursor on by those of them that the step had not read before it came to wait, the number `len` returned in `lenVal` and the
walk answered (the model's own fields, log entry 6); nothing else changes (R161, R160). -/
def LengthRowCompletes (i : Instr) (n len : Nat) (s : State) : Prop :=
  n ≤ s.bitsReady →
    ∃ t, exec i s = .next t ∧ t.lenVal.toNat = len ∧ t.bitpos = s.bitpos + s.unread n ∧
      t.cursorBits = s.cursorBits.drop (s.unread n) ∧
      t = { s with
        curByte := t.curByte, bitOff := t.bitOff, bytesRem := t.bytesRem, source := t.source, stepBits := []
        lenVal := t.lenVal, lookupReq := none }

/-- The row `i` of `DIST_TABLE` completes in `s`: if the step can read the word's `n` bits, `exec` answers the state with the
cursor on by those of them that the step had not read before it came to wait, the number `high` returned in `highVal` and the
walk answered (the model's own fields, log entry 6); nothing else changes (R164, R160). -/
def OffsetRowCompletes (i : Instr) (n high : Nat) (s : State) : Prop :=
  n ≤ s.bitsReady →
    ∃ t, exec i s = .next t ∧ t.highVal.toNat = high ∧ t.bitpos = s.bitpos + s.unread n ∧
      t.cursorBits = s.cursorBits.drop (s.unread n) ∧
      t = { s with
        curByte := t.curByte, bitOff := t.bitOff, bytesRem := t.bytesRem, source := t.source, stepBits := []
        highVal := t.highVal, lookupReq := none }

end Sys2Proof.Machine
end

