-- ==== Sys2Proof/Certificates/Slice0/Obligations.lean ====
section
/-! DEFINITION. The statements for the provers. Each docstring names the rule of spec/ it formalises; a clause that rests on a
choice of the model names the log entry. `stepBits`, `bitsReady`, `unread` and `cursorBits` in the statements about reads say the
same of a step that starts and of one that goes on after a wait (R148, log entry 3). -/

open Sys2Proof Sys2Proof.Machine

/-! ## Encoding -/

/-- Decoding the encoding of a well-formed instruction, whatever bits follow, gives it back with exactly those bits left: all
84 rows, every operand value the encoding admits (formats R91, R94, R95, R96, tables R100, R104; the supplied rows: log entry
11). -/
def Obligations.DecodeOfEncode : Prop :=
  ∀ (db : BitVec 3) (i : Instr) (rest : Bits), i.wf db = true →
    decodeBits i.context db (encode db i ++ rest) = .ok (i, rest)

/-- What decodes is the encoding of what it decodes to, so every word has one meaning in its context, and outside the header
only legal instructions are decoded (R97, R112 (c); the supplied rows of the tables: log entry 11). -/
def Obligations.DecodedBitsAreTheEncoding : Prop :=
  ∀ (ctx : Context) (db : BitVec 3) (bits rest : Bits) (i : Instr), legalSizeCode db.toNat = true →
    decodeBits ctx db bits = .ok (i, rest) →
      bits = encode db i ++ rest ∧ i.context = ctx ∧ (ctx ≠ .header → i.wf db = true)

/-- No bit pattern is undecodable: 30 bits always decode, in every context (R97, R98; log entry 11). -/
def Obligations.ThirtyBitsAlwaysDecode : Prop :=
  ∀ (ctx : Context) (db : BitVec 3) (bits : Bits), legalSizeCode db.toNat = true → 30 ≤ bits.length →
    ∃ i rest, decodeBits ctx db bits = .ok (i, rest) ∧ bits.length ≤ rest.length + 30

/-- Token sizes (R98): `LIT` 9 bits, `END` 16, `COPY` 8 for length 2 with its shortest offset code, never under 8 or over 30
(the supplied rows of the tables: log entry 11). -/
def Obligations.TokenSizes : Prop :=
  (∀ db b, (encode db (.lit b)).length = 9) ∧ (∀ db, (encode db .eos).length = 16) ∧
  (∀ db len off, (Instr.copy len off).wf db = true →
    8 ≤ (encode db (.copy len off)).length ∧ (encode db (.copy len off)).length ≤ 30) ∧
  (∀ db : BitVec 3, legalSizeCode db.toNat = true → (encode db (.copy 2 0)).length = 8) ∧
  (encode 6 (.copy 518 4095)).length = 30

/-- Words written out from the encodings decode to the rows they stand for (R91, R94, R95, R96, R100, R104; the supplied
rows: log entry 11). -/
def Obligations.WrittenWordsDecode : Prop :=
  decodeBytes .header 4 [0x00, 0x04] = .ok (.hdr 0 4, []) ∧
  decodeBits .token 4 (codeWord [0, 1, 0, 0, 0, 0, 0, 1, 0]) = .ok (.lit 0x41, []) ∧
  decodeBits .token 4 (codeWord [1, 0, 0, 1, 0, 0, 1, 1, 1, 1, 0, 0, 0]) = .ok (.copy 11 1, []) ∧
  decodeBits .token 4 (codeWord [1, 0, 0, 0, 0, 0, 0, 0, 1, 1, 1, 1, 1, 1, 1, 1]) = .ok (.eos, []) ∧
  decodeBits .length 4 (codeWord [0, 0, 0, 1, 1, 1, 0]) = .ok (.len9 1, []) ∧
  decodeBits .offsetHigh 4 (codeWord [0, 1, 1, 1, 0, 1]) = .ok (.dist9, []) ∧
  decodeBits .offsetHigh 4 (codeWord [0, 0, 0, 0, 1, 1, 0, 1]) = .ok (.dist50, [])

/-- `decodeLength()` (R162): what it returns and how many bits it consumes; it is total on 15 bits; its results are exactly
2..519, each from exactly one bit pattern. The spec marks R162 as derived and rows 6 to 15 as supplied (log entry 11). -/
def Obligations.DecodeLengthProperties : Prop :=
  (∀ (bits rest : Bits) (len : Nat), decodeLength.runBits bits = .ok (len, rest) →
    2 ≤ len ∧ len ≤ 519 ∧ bits.length = rest.length + lengthConsumed len) ∧
  (∀ bits : Bits, 15 ≤ bits.length → ∃ len rest, decodeLength.runBits bits = .ok (len, rest)) ∧
  (∀ len : Nat, 2 ≤ len → len ≤ 519 →
    ∃ word : Bits, decodeLength.runBits word = .ok (len, []) ∧
      ∀ bits rest : Bits, decodeLength.runBits bits = .ok (len, rest) → bits = word ++ rest)

/-- `decodeOffsetHigh()` (R165): what it returns and how many bits it consumes; it is total on 8 bits; it is a bijection from
its code words, which are the rows of `DIST_TABLE` (R104), onto 0..63. The spec marks R165 as derived and groups B and D to G
as supplied (log entry 11). -/
def Obligations.DecodeOffsetHighProperties : Prop :=
  (∀ (bits rest : Bits) (high : Nat), decodeOffsetHigh.runBits bits = .ok (high, rest) →
    high ≤ 63 ∧ bits.length = rest.length + highConsumed high) ∧
  (∀ bits : Bits, 8 ≤ bits.length → ∃ high rest, decodeOffsetHigh.runBits bits = .ok (high, rest)) ∧
  (∀ high : Nat, high ≤ 63 →
    decodeOffsetHigh.runBits (encodeOffsetHigh high) = .ok (high, []) ∧
      ∀ bits rest : Bits, decodeOffsetHigh.runBits bits = .ok (high, rest) → bits = encodeOffsetHigh high ++ rest)

/-- Decoded offsets stay below the capacity, below 256 for length 2, and each offset of the range has exactly one encoding
(R168, which the spec marks as derived; log entry 11). -/
def Obligations.OffsetRange : Prop :=
  ∀ (db : BitVec 3) (len : Nat), legalSizeCode db.toNat = true → 2 ≤ len → len ≤ 518 →
    (∀ (bits rest : Bits) (off : Nat), (decodeOffset db len).runBits bits = .ok (off, rest) →
      off < capacity db ∧ (len = 2 → off ≤ 255)) ∧
    (∀ off : Nat, off < capacity db → (len = 2 → off ≤ 255) →
      ∃ word : Bits, (decodeOffset db len).runBits word = .ok (off, []) ∧
        ∀ bits rest : Bits, (decodeOffset db len).runBits bits = .ok (off, rest) → bits = word ++ rest)

/-- `REV3` and `REV4` are the reversals of 3 and 4 bits; `REV4` swaps 11 and 13 (R107, R108; that swap is the
spec's resolution of its conflict C3, log entry 11). -/
def Obligations.ReversalTables : Prop :=
  (∀ u, u < 8 → rev3At u = bitsVal (bitsOf 3 u).reverse) ∧ (∀ u, u < 16 → rev4At u = bitsVal (bitsOf 4 u).reverse) ∧
  rev4At 11 = 13 ∧ rev4At 13 = 11

/-! ## The bit cursor -/

/-- `fetchByte()` (R142): the declared length is tested before the source is asked; a byte moves the cursor to it; `End` and
`IoError` raise; a failure sets `bc_errored`, and the step that reads has the effects of R283. That `stepBits` is then empty is
the model's choice (log entry 3). -/
def Obligations.FetchByteRule : Prop :=
  ∀ s : State,
    (s.bytesRem = 0 → fetchByte s = .raised .unexpectedEndOfChunk { s with bcErrored := true }) ∧
    (∀ x rest, s.bytesRem ≠ 0 → s.source = x :: rest →
      (∀ v, x.answer = .byte v →
        fetchByte s = .got () { s with curByte := v, bitOff := 0, bytesRem := s.bytesRem - 1, source := rest }) ∧
      (x.answer = .endOfSource →
        fetchByte s = .raised .unexpectedEndOfChunk { s with bcErrored := true, source := rest }) ∧
      (x.answer = .ioError →
        fetchByte s = .raised .underlyingIOError { s with bcErrored := true, source := rest })) ∧
    (∀ (e : ErrCode) (u : State) (go : Unit → State → Outcome), fetchByte s = .raised e u →
      settle (fetchByte s) go = .next { u with
        stepBits := [], errCode := e, state := .errored, outHold := some (.err e) })

/-- `readBit()` (R143): sticky on `bc_errored`; the bit at `bit_off`; the next byte is fetched only when `bit_off` is 8. -/
def Obligations.ReadBitRule : Prop :=
  ∀ s : State,
    (s.bcErrored = true → readBit s = .raised s.errCode s) ∧
    (s.bcErrored = false → s.bitOff ≠ 8 →
      ∃ t, readBit s = .got (s.curByte.getLsbD s.bitOff.val) t ∧ t.bitOff.val = s.bitOff.val + 1 ∧
        t = { s with bitOff := t.bitOff }) ∧
    (s.bcErrored = false → s.bitOff = 8 →
      (∀ u, fetchByte s = .got () u → readBit s = .got (u.curByte.getLsbD 0) { u with bitOff := 1 }) ∧
      (∀ e u, fetchByte s = .raised e u → readBit s = .raised e u))

/-- `readBits(n)` (R144): the next `n` bits, first-read bit least significant, and the final `bit_off`; `readBits(0)` reads
nothing. Bits that the step read before it came to wait (log entry 3) come first and do not move the cursor again. -/
def Obligations.ReadBitsLittleEndian : Prop :=
  (∀ s : State, readBits 0 s = .got 0 s) ∧
  ∀ (n : Nat) (s : State), n ≤ 8 → n ≤ s.bitsReady →
    ∃ t, readBits n s = .got (bitsVal (s.upcomingBits.take n)) t ∧ bitsVal (s.upcomingBits.take n) < 2 ^ n ∧
      CursorMoved s t ∧ t.upcomingBits = s.upcomingBits.drop n ∧ t.bitpos = s.bitpos + s.unread n ∧
      t.bitOff.val =
        if s.bitOff.val + s.unread n ≤ 8 then s.bitOff.val + s.unread n else s.bitOff.val + s.unread n - 8

/-- After `Start(L)` the cursor delivers exactly `8 * L` bits, fewer if the source ends or fails first; the next request raises
`UnexpectedEndOfChunk` and nothing beyond byte `L - 1` is taken, whatever more the source has (R146). -/
def Obligations.ChunkDeliversExactlyItsBits : Prop :=
  ∀ (s : State) (len : Len),
    (applyStart len s).bitsReady = 8 * min len.toNat (bytesPresented s.source) ∧
    (∀ n, n ≤ 8 * min len.toNat (bytesPresented s.source) → ∃ v t, readBits n (applyStart len s) = .got v t) ∧
    (len.toNat ≤ bytesPresented s.source → ∀ n, 8 * len.toNat < n →
      ∃ t, readBits n (applyStart len s) = .raised .unexpectedEndOfChunk t ∧ t.source = s.source.drop len.toNat)

/-- A read of more bits than are ready raises one of the cursor's two errors, if the source answers every request (R142,
R143, R322). -/
def Obligations.ReadPastReadyBitsRaises : Prop :=
  ∀ (n : Nat) (s : State), s.bcErrored = false → s.sourceAnswers → s.bitsReady < n →
    ∃ e t, readBits n s = .raised e t ∧ (e = .unexpectedEndOfChunk ∨ e = .underlyingIOError) ∧ t.bcErrored = true ∧
      (s.bytesRem.toNat ≤ bytesPresented s.source → e = .unexpectedEndOfChunk ∧ t.bytesRem = 0)

/-- `readHeaderByte()` is `readBits(8)` at a byte boundary (R145), where the step has no bits left from before a wait (log
entry 3). -/
def Obligations.HeaderByteIsReadBitsEight : Prop :=
  ∀ s : State, s.bitOff = 8 → s.bcErrored = false → s.stepBits = [] →
    (∀ v t, readHeaderByte s = .got v t ↔ readBits 8 s = .got v.toNat t) ∧
    (∀ e t, readHeaderByte s = .raised e t ↔ readBits 8 s = .raised e t) ∧
    (∀ t, readHeaderByte s = .waiting t ↔ readBits 8 s = .waiting t)

/-- `bitpos`, the program counter, only grows: no step but `Start` and reset moves it back (R31). -/
def Obligations.BitposOnlyGrows : Prop :=
  ∀ s t : State, s.input.rst = false → s.input.start = none → step s = .next t → s.bitpos ≤ t.bitpos

/-! ## Tokens -/

/-- `LIT b` (R220): nine bits are consumed, `put(b)`, `emit Byte(b)`; nothing else changes. Of the nine bits those that the step
read before it came to wait are past the cursor already (R148, log entry 3). If the cursor raises, the step ends with that error,
nothing is put and nothing emitted. -/
def Obligations.LitPutsAndEmits : Prop :=
  ∀ (b : Byte) (s : State),
    (9 ≤ s.bitsReady → legalSizeCode s.dictBits.toNat = true →
      ∃ t, exec (.lit b) s = .next t ∧ t.bitpos = s.bitpos + s.unread 9 ∧
        t.cursorBits = s.cursorBits.drop (s.unread 9) ∧
        t.first.toNat = putIndex s ∧ t.slot (putIndex s) = b ∧ (∀ a, a ≠ putIndex s → t.slot a = s.slot a) ∧
        t.outHold = some (.byte b) ∧ t.out = s.out ++ [b] ∧
        t = { s with
          curByte := t.curByte, bitOff := t.bitOff, bytesRem := t.bytesRem, source := t.source, stepBits := []
          first := t.first, dict := t.dict, outHold := t.outHold, out := t.out }) ∧
    (∀ e u, readBits 9 s = .raised e u →
      ∃ t, exec (.lit b) s = .next t ∧ t.state = .errored ∧ t.errCode = e ∧ t.outHold = some (.err e) ∧
        t.out = s.out ∧ t.dict = s.dict ∧ t.first = s.first)

/-- `COPY len, off`, first step (R221): the token's bits are consumed, `copy_off <- off`, `copy_rem <- len - 1`,
`mode <- Copying`, and the byte `off` positions before the newest is emitted and put; `lenVal` and `highVal` (log entry 6)
hold the decoded numbers; nothing else changes. Of the token's bits those that the step read before it came to wait are past the
cursor already (R148, log entry 3). The token's size rests on the supplied rows of the tables (log entry 11). -/
def Obligations.CopyStarts : Prop :=
  ∀ (len : BitVec 10) (off : BitVec 12) (s : State), (Instr.copy len off).wf s.dictBits = true →
    (encode s.dictBits (.copy len off)).length ≤ s.bitsReady →
    ∃ t, exec (.copy len off) s = .next t ∧
      t.bitpos = s.bitpos + s.unread (encode s.dictBits (.copy len off)).length ∧
      t.cursorBits = s.cursorBits.drop (s.unread (encode s.dictBits (.copy len off)).length) ∧
      t.copyOff = off ∧ t.copyRem.toNat = len.toNat - 1 ∧ t.mode = .copying ∧
      t.outHold = some (.byte (s.slot (getIndex s off))) ∧ t.out = s.out ++ [s.slot (getIndex s off)] ∧
      t.first.toNat = putIndex s ∧ t.slot (putIndex s) = s.slot (getIndex s off) ∧
      (∀ a, a ≠ putIndex s → t.slot a = s.slot a) ∧
      t.lenVal = len ∧ t.highVal.toNat = off.toNat >>> lowBits s.dictBits len.toNat ∧
      t = { s with
        curByte := t.curByte, bitOff := t.bitOff, bytesRem := t.bytesRem, source := t.source, stepBits := []
        copyOff := t.copyOff, copyRem := t.copyRem, mode := t.mode, first := t.first, dict := t.dict
        outHold := t.outHold, out := t.out, lenVal := t.lenVal, highVal := t.highVal }

/-- The continuation of a copy (R223): a step in `DECODING` with `copy_rem > 0` emits and puts the byte at `copy_off`, counts
`copy_rem` down and goes back to `Literal` at 0; no chunk bits are read, nothing else changes. The step runs when nothing is held,
whether the consumer takes the next beat or not (R259). No table walk is asked for by itself (log entry 6). -/
def Obligations.CopyContinues : Prop :=
  ∀ s : State, s.input.rst = false → s.input.start = none →
    (handOver s.input.outReady (takeInput s)).outHold = none → s.state = .decoding → s.lookupReq = none → s.copyRem ≠ 0 →
    legalSizeCode s.dictBits.toNat = true →
    ∃ t, step s = .next t ∧ t.copyRem.toNat = s.copyRem.toNat - 1 ∧
      t.mode = (if s.copyRem.toNat = 1 then .literal else s.mode) ∧
      t.outHold = some (.byte (s.slot (getIndex s s.copyOff))) ∧ t.out = s.out ++ [s.slot (getIndex s s.copyOff)] ∧
      t.first.toNat = putIndex s ∧ t.slot (putIndex s) = s.slot (getIndex s s.copyOff) ∧
      (∀ a, a ≠ putIndex s → t.slot a = s.slot a) ∧
      t = { takeInput s with
        copyRem := t.copyRem, mode := t.mode, first := t.first, dict := t.dict, outHold := t.outHold, out := t.out }

/-- `END` (R224): sixteen bits are consumed, `state <- FINISHED`, `emit Eos`; no dictionary access, `copy_rem` and `err_code`
stay; `lenVal` (log entry 6) holds 519. Of the sixteen bits those that the step read before it came to wait are past the cursor
already (R148, log entry 3). The code word of length 519 is a supplied row (log entry 11). -/
def Obligations.EndFinishes : Prop :=
  ∀ s : State, 16 ≤ s.bitsReady →
    ∃ t, exec .eos s = .next t ∧ t.state = .finished ∧ t.outHold = some .eos ∧
      t.bitpos = s.bitpos + s.unread 16 ∧ t.cursorBits = s.cursorBits.drop (s.unread 16) ∧ t.lenVal = 519 ∧
      t = { s with
        curByte := t.curByte, bitOff := t.bitOff, bytesRem := t.bytesRem, source := t.source, stepBits := []
        state := t.state, outHold := t.outHold, lenVal := t.lenVal }

/-! ## The header -/

/-- A valid header (R212, R217): it is recorded, `dict_bits <- c`, `first <- 0`, `DECODING`, and the first token's step runs in
the same step: its beat is a byte, `Eos`, or the cursor's error. The header step starts at a step boundary, or has read the mode
byte before it came to wait (R148, log entry 3). -/
def Obligations.ValidHeaderRunsFirstToken : Prop :=
  ∀ (c : Byte) (s : State), legalSizeCode c.toNat = true → 2 < s.chunkLen.toNat →
    (s.stepBits = [] ∧ 2 ≤ s.bytesRem.toNat ∧ 2 ≤ bytesPresented s.source ∨
      s.stepBits.length = 8 ∧ 1 ≤ s.bytesRem.toNat ∧ 1 ≤ bytesPresented s.source) → s.sourceAnswers →
    ∃ m k u t, readHeader s = .got (m, k) u ∧
      s.stepBits ++ bytesBits (presentedBytes s.source) =
        bitsOf 8 m.toNat ++ bitsOf 8 k.toNat ++ bytesBits (presentedBytes u.source) ∧
      exec (.hdr 0 c) s = .next t ∧
      decodeStep { u with
        stepBits := [], dictMode := 0, dictSizeCode := c, dictBits := c.setWidth 3, first := 0, state := .decoding } = .next t ∧
      t.dictMode = 0 ∧ t.dictSizeCode = c ∧ t.dictBits.toNat = c.toNat ∧ t.chunkLen = s.chunkLen ∧
      ((t.state = .decoding ∧ t.first = 1 ∧ ∃ v, t.outHold = some (.byte v)) ∨
        (t.state = .finished ∧ t.first = 0 ∧ t.outHold = some .eos) ∨
        (t.state = .errored ∧ t.first = 0 ∧ t.outHold = some (.err t.errCode)))

/-- The header checks and their order (R213): `ChunkTooSmall` before any byte; an error at a header byte's read before the
format checks; the mode byte before the size code; the bytes read are recorded (R24). A step that ends is no longer in progress
(`stepBits`, log entry 3). -/
def Obligations.HeaderChecksInOrder : Prop :=
  ∀ (m c : Byte) (s : State),
    (s.chunkLen.toNat ≤ 2 →
      exec (.hdr m c) s = .next { s with
        errCode := .chunkTooSmall, state := .errored, outHold := some (.err .chunkTooSmall) }) ∧
    (2 < s.chunkLen.toNat →
      (∀ e u, readHeader s = .raised e u →
        exec (.hdr m c) s = .next { u with
          stepBits := [], errCode := e, state := .errored, outHold := some (.err e) }) ∧
      (∀ mc u, readHeader s = .got mc u →
        (m ≠ 0 → exec (.hdr m c) s = .next { u with
          stepBits := [], dictMode := m, dictSizeCode := c, errCode := .unsupportedStaticDictionary, state := .errored
          outHold := some (.err .unsupportedStaticDictionary) }) ∧
        (m = 0 → legalSizeCode c.toNat = false → exec (.hdr m c) s = .next { u with
          stepBits := [], dictMode := m, dictSizeCode := c, errCode := .unknownDictionarySize, state := .errored
          outHold := some (.err .unknownDictionarySize) })))

/-- The first step of a chunk of at most two bytes answers `Err(ChunkTooSmall)` and takes no byte, whatever the source
presents and whether or not the consumer is ready (R212, R213 (1), R259, R281). -/
def Obligations.ShortChunkTakesNoByte : Prop :=
  ∀ s : State, s.input.rst = false → s.input.start = none →
    (handOver s.input.outReady (takeInput s)).outHold = none → s.state = .init → s.chunkLen.toNat ≤ 2 →
    ∃ t, step s = .next t ∧ t.state = .errored ∧ t.errCode = .chunkTooSmall ∧
      t.outHold = some (.err .chunkTooSmall) ∧ t.bytesRem = s.bytesRem ∧ t.source = (takeInput s).source ∧
      t.dict = s.dict ∧ t.first = s.first

/-! ## The code tables' rows -/

/-- The rows of `LEN_TABLE` without extra bits (R100, R161): bits consumed and length returned, each completes.
Rows 6 and 7 are supplied (log entry 11); where the length and the request stand is the model's own (log entry 6). -/
def Obligations.LengthRowsWithoutExtraBits : Prop :=
  ∀ s : State,
    LengthRowCompletes .len0 2 3 s ∧ LengthRowCompletes .len1 3 2 s ∧ LengthRowCompletes .len2 3 4 s ∧
    LengthRowCompletes .len3 3 5 s ∧ LengthRowCompletes .len4 4 6 s ∧ LengthRowCompletes .len5 4 7 s ∧
    LengthRowCompletes .len6 4 8 s ∧ LengthRowCompletes .len7 5 9 s

/-- The rows of `LEN_TABLE` with extra bits (R100, R102, R161): `LEN_BASE` plus the extra value, each completes. These
rows are supplied (log entry 11); where the length and the request stand is the model's own (log entry 6). -/
def Obligations.LengthRowsWithExtraBits : Prop :=
  ∀ s : State,
    (∀ e, LengthRowCompletes (.len8 e) 6 (10 + e.toNat) s) ∧ (∀ e, LengthRowCompletes (.len9 e) 7 (12 + e.toNat) s) ∧
    (∀ e, LengthRowCompletes (.len10 e) 8 (16 + e.toNat) s) ∧ (∀ e, LengthRowCompletes (.len11 e) 10 (24 + e.toNat) s) ∧
    (∀ e, LengthRowCompletes (.len12 e) 11 (40 + e.toNat) s) ∧ (∀ e, LengthRowCompletes (.len13 e) 12 (72 + e.toNat) s) ∧
    (∀ e, LengthRowCompletes (.len14 e) 14 (136 + e.toNat) s) ∧
    (∀ e, LengthRowCompletes (.len15 e) 15 (264 + e.toNat) s)

/-- The rows of `DIST_TABLE` in groups A and B (R104, R105, R164): bits consumed and value returned, each completes. Group B
is supplied (log entry 11); where the value and the request stand is the model's own (log entry 6). -/
def Obligations.OffsetRowsGroupsAB : Prop :=
  ∀ s : State,
    OffsetRowCompletes .dist0 2 0 s ∧ OffsetRowCompletes .dist1 4 1 s ∧ OffsetRowCompletes .dist2 4 2 s ∧
    OffsetRowCompletes .dist3 5 3 s ∧ OffsetRowCompletes .dist4 5 4 s ∧ OffsetRowCompletes .dist5 5 5 s ∧
    OffsetRowCompletes .dist6 5 6 s

/-- The rows of `DIST_TABLE` in group C (R104, R105, R164): bits consumed and value returned, each completes. Where the
value and the request stand is the model's own (log entry 6). -/
def Obligations.OffsetRowsGroupC : Prop :=
  ∀ s : State,
    OffsetRowCompletes .dist7 6 7 s ∧ OffsetRowCompletes .dist8 6 8 s ∧ OffsetRowCompletes .dist9 6 9 s ∧
    OffsetRowCompletes .dist10 6 10 s ∧ OffsetRowCompletes .dist11 6 11 s ∧ OffsetRowCompletes .dist12 6 12 s ∧
    OffsetRowCompletes .dist13 6 13 s ∧ OffsetRowCompletes .dist14 6 14 s ∧ OffsetRowCompletes .dist15 6 15 s ∧
    OffsetRowCompletes .dist16 6 16 s ∧ OffsetRowCompletes .dist17 6 17 s ∧ OffsetRowCompletes .dist18 6 18 s ∧
    OffsetRowCompletes .dist19 6 19 s ∧ OffsetRowCompletes .dist20 6 20 s ∧ OffsetRowCompletes .dist21 6 21 s ∧
    OffsetRowCompletes .dist22 7 22 s ∧ OffsetRowCompletes .dist23 7 23 s

/-- The rows of `DIST_TABLE` in groups D to G (R104, R105, R164): bits consumed and value returned, each completes. Their
constants are supplied (log entry 11); where the value and the request stand is the model's own (log entry 6). -/
def Obligations.OffsetRowsGroupsDEFG : Prop :=
  ∀ s : State,
    OffsetRowCompletes .dist24 7 24 s ∧ OffsetRowCompletes .dist25 7 25 s ∧ OffsetRowCompletes .dist26 7 26 s ∧
    OffsetRowCompletes .dist27 7 27 s ∧ OffsetRowCompletes .dist28 7 28 s ∧ OffsetRowCompletes .dist29 7 29 s ∧
    OffsetRowCompletes .dist30 7 30 s ∧ OffsetRowCompletes .dist31 7 31 s ∧ OffsetRowCompletes .dist32 7 32 s ∧
    OffsetRowCompletes .dist33 7 33 s ∧ OffsetRowCompletes .dist34 7 34 s ∧ OffsetRowCompletes .dist35 7 35 s ∧
    OffsetRowCompletes .dist36 7 36 s ∧ OffsetRowCompletes .dist37 7 37 s ∧ OffsetRowCompletes .dist38 7 38 s ∧
    OffsetRowCompletes .dist39 7 39 s ∧ OffsetRowCompletes .dist40 7 40 s ∧ OffsetRowCompletes .dist41 7 41 s ∧
    OffsetRowCompletes .dist42 7 42 s ∧ OffsetRowCompletes .dist43 7 43 s ∧ OffsetRowCompletes .dist44 7 44 s ∧
    OffsetRowCompletes .dist45 7 45 s ∧ OffsetRowCompletes .dist46 7 46 s ∧ OffsetRowCompletes .dist47 7 47 s ∧
    OffsetRowCompletes .dist48 8 48 s ∧ OffsetRowCompletes .dist49 8 49 s ∧ OffsetRowCompletes .dist50 8 50 s ∧
    OffsetRowCompletes .dist51 8 51 s ∧ OffsetRowCompletes .dist52 8 52 s ∧ OffsetRowCompletes .dist53 8 53 s ∧
    OffsetRowCompletes .dist54 8 54 s ∧ OffsetRowCompletes .dist55 8 55 s ∧ OffsetRowCompletes .dist56 8 56 s ∧
    OffsetRowCompletes .dist57 8 57 s ∧ OffsetRowCompletes .dist58 8 58 s ∧ OffsetRowCompletes .dist59 8 59 s ∧
    OffsetRowCompletes .dist60 8 60 s ∧ OffsetRowCompletes .dist61 8 61 s ∧ OffsetRowCompletes .dist62 8 62 s ∧
    OffsetRowCompletes .dist63 8 63 s

/-! ## Frames -/

/-- The frame of every row of `LEN_TABLE` and `DIST_TABLE` (R160): only the cursor, the row's own result and the request change
(where the result and the request stand: log entry 6), and where the cursor raises, what an error changes; no slot of the
dictionary changes. The cursor here and in the frames below includes the bits of a step that waits (log entry 3). -/
def Obligations.TableRowFrame : Prop :=
  ∀ (i : Instr) (s t : State), i.context = .length ∨ i.context = .offsetHigh → exec i s = .next t →
    (ErrorRaised s t ∨
      t = { s with
        curByte := t.curByte, bitOff := t.bitOff, bytesRem := t.bytesRem, source := t.source, stepBits := t.stepBits
        lenVal := t.lenVal, highVal := t.highVal, lookupReq := t.lookupReq }) ∧
    (i.context = .length → t.highVal = s.highVal) ∧ (i.context = .offsetHigh → t.lenVal = s.lenVal) ∧
    ∀ a, t.slot a = s.slot a

/-- The frame of `LIT` (R220, R227): either an error is raised, which changes neither the dictionary nor its registers; or only
the cursor, `first`, the one slot `(first + 1) mod capacity`, the beat and `OUT` change. -/
def Obligations.LitFrame : Prop :=
  ∀ (b : Byte) (s t : State), exec (.lit b) s = .next t →
    (ErrorRaised s t ∨
      t = { s with
        curByte := t.curByte, bitOff := t.bitOff, bytesRem := t.bytesRem, source := t.source, stepBits := t.stepBits
        first := t.first, dict := t.dict, outHold := t.outHold, out := t.out }) ∧
    ∀ a, a ≠ putIndex s → t.slot a = s.slot a

/-- The frame of `COPY` (R221, R227): either an error is raised, which changes neither the dictionary nor the copy registers; or
only the cursor, the copy registers, `first`, the one slot `(first + 1) mod capacity`, the beat, `OUT` and the table results
change. -/
def Obligations.CopyFrame : Prop :=
  ∀ (len : BitVec 10) (off : BitVec 12) (s t : State), exec (.copy len off) s = .next t →
    (ErrorRaised s t ∨
      t = { s with
        curByte := t.curByte, bitOff := t.bitOff, bytesRem := t.bytesRem, source := t.source, stepBits := t.stepBits
        copyOff := t.copyOff, copyRem := t.copyRem, mode := t.mode, first := t.first, dict := t.dict
        outHold := t.outHold, out := t.out, lenVal := t.lenVal, highVal := t.highVal }) ∧
    ∀ a, a ≠ putIndex s → t.slot a = s.slot a

/-- The frame of `END` (R224, R227): only the cursor, `state`, the beat and `lenVal` change, or an error is raised; no slot of
the dictionary changes. -/
def Obligations.EndFrame : Prop :=
  ∀ s t : State, exec .eos s = .next t →
    (ErrorRaised s t ∨
      t = { s with
        curByte := t.curByte, bitOff := t.bitOff, bytesRem := t.bytesRem, source := t.source, stepBits := t.stepBits
        state := t.state, outHold := t.outHold, lenVal := t.lenVal }) ∧
    ∀ a, t.slot a = s.slot a

/-- The frame of `HDR` with its first token (R212, R217): `chunk_len`, the request and the host stay; `OUT` grows by at most one
byte; no slot of the dictionary changes but the one its first put goes to, slot 1 (R197). -/
def Obligations.HdrFrame : Prop :=
  ∀ (m c : Byte) (s t : State), exec (.hdr m c) s = .next t →
    t.chunkLen = s.chunkLen ∧ t.lookupReq = s.lookupReq ∧ t.host = s.host ∧
    (t.out = s.out ∨ ∃ v, t.out = s.out ++ [v] ∧ t.outHold = some (.byte v)) ∧ ∀ a, a ≠ 1 → t.slot a = s.slot a

/-! ## The dictionary -/

/-- `put(b)` (R191): `first <- (first + 1) mod capacity`, then `dict[first] <- b`; it cannot fail, and nothing else changes.
`dict_bits` is 4, 5 or 6 (R25). -/
def Obligations.PutAdvancesAndStores : Prop :=
  ∀ (b : Byte) (s : State), legalSizeCode s.dictBits.toNat = true →
    ∃ t, put b s = .ok t ∧ t.first.toNat = (s.first.toNat + 1) % 2 ^ (6 + s.dictBits.toNat) ∧
      t.slot t.first.toNat = b ∧ (∀ a, a ≠ t.first.toNat → t.slot a = s.slot a) ∧
      t = { s with first := t.first, dict := t.dict }

/-- `get(off)` (R192, R193): the byte is read at `(capacity + first - off) mod capacity` before the implicit put; with
`off = capacity - 1` the two slots are the same and no slot's content changes; otherwise they differ. -/
def Obligations.GetReadsBeforePut : Prop :=
  ∀ (off : BitVec 12) (s : State), legalSizeCode s.dictBits.toNat = true → s.first.toNat < capacity s.dictBits →
    off.toNat < capacity s.dictBits →
    ∃ t, get off s = .ok (s.slot ((capacity s.dictBits + s.first.toNat - off.toNat) % capacity s.dictBits), t) ∧
      put (s.slot ((capacity s.dictBits + s.first.toNat - off.toNat) % capacity s.dictBits)) s = .ok t ∧
      (getIndex s off = putIndex s ↔ off.toNat = capacity s.dictBits - 1) ∧
      (off.toNat = capacity s.dictBits - 1 → ∀ a, t.slot a = s.slot a)

/-- A slot that nothing has written (R195): `get` is no fault, it gives the free value of that slot, which re-enters history.
The free value is the model's form of the spec's any value (log entry 4). -/
def Obligations.UnwrittenSlotGivesFreeByte : Prop :=
  ∀ (off : BitVec 12) (s : State), legalSizeCode s.dictBits.toNat = true → Memory.lookup s.dict (getIndex s off) = none →
    ∃ t, get off s = .ok (Config.dictInit (getIndex s off), t) ∧
      t.slot (putIndex s) = Config.dictInit (getIndex s off)

/-- A whole copy (R194, R222 (f), R223): from a `DECODING` state with `copy_rem > 0`, with the consumer taking every beat, the
remaining `copy_rem` steps emit exactly `copy_rem` bytes; the `j`-th of them is the byte that stood at offset `off - j` before
the run if `j <= off`, and repeats the run's own output with period `off + 1` after that. -/
def Obligations.CopyRunRepeatsItsOutput : Prop :=
  ∀ s : State, s.Inv → s.state = .decoding → s.lookupReq = none → s.host = [] → s.copyRem ≠ 0 →
    ∃ t, Host.Core.run core s.copyRem.toNat s = .next t ∧ t.copyRem = 0 ∧ t.mode = .literal ∧ t.state = .decoding ∧
      t.bitpos = s.bitpos ∧ t.out.length = s.out.length + s.copyRem.toNat ∧ t.out.take s.out.length = s.out ∧
      ∀ j, j < s.copyRem.toNat →
        t.out[s.out.length + j]? =
          if j ≤ s.copyOff.toNat then
            some (s.slot ((capacity s.dictBits + s.first.toNat - (s.copyOff.toNat - j)) % capacity s.dictBits))
          else t.out[s.out.length + j - (s.copyOff.toNat + 1)]?

/-! ## The machine -/

/-- Reset leaves the values the spec gives (R40). `dict_bits`, `cur_byte` and the dictionary, to which R40 gives none, are not
part of this statement. -/
def Obligations.ResetValues : Prop :=
  State.reset.state = .idle ∧ State.reset.errCode = .none ∧ State.reset.chunkLen = 0 ∧ State.reset.dictMode = 0 ∧
    State.reset.dictSizeCode = 0 ∧ State.reset.bitOff = 8 ∧ State.reset.bytesRem = 0 ∧ State.reset.bcErrored = false ∧
    State.reset.first = 0 ∧ State.reset.mode = .literal ∧ State.reset.copyRem = 0 ∧ State.reset.copyOff = 0 ∧
    State.reset.outHold = none

/-- The invariants hold at reset (R38, R65; the model's empty `OUT`, log entry 7). -/
def Obligations.ResetMeetsInvariants : Prop :=
  State.reset.Inv ∧ State.reset.History ∧ State.reset.beatFits = true

/-- The reset input (R252, R310): in every state, whatever else the host does, the registers take their reset values, the
dictionary RAM is untouched, no beat is valid and the source is not asked, while it is asserted and after it; after it the block
does nothing until `Start`. -/
def Obligations.ResetFromAnyState : Prop :=
  ∀ s : State, s.input.rst = true →
    ∃ t, step s = .next t ∧ t.state = .idle ∧ t.errCode = .none ∧ t.chunkLen = 0 ∧ t.bytesRem = 0 ∧ t.bitOff = 8 ∧
      t.bcErrored = false ∧ t.first = 0 ∧ t.mode = .literal ∧ t.copyRem = 0 ∧ t.copyOff = 0 ∧ t.dictMode = 0 ∧
      t.dictSizeCode = 0 ∧ t.outHold = none ∧ t.dict = s.dict ∧ (∀ a, t.slot a = s.slot a) ∧
      outValid s = false ∧ srcReady s = false ∧ outValid t = false ∧ srcReady t = false ∧
      (t.input.rst = false → t.input.start = none → step t = .next (takeInput t))

/-- `Start(L)` (R41, R253), accepted in every state: the values it writes, and the registers it leaves. -/
def Obligations.StartFromAnyState : Prop :=
  ∀ (s : State) (len : Len), s.input.rst = false → s.input.start = some len →
    ∃ t, step s = .next t ∧ t.state = .init ∧ t.errCode = .none ∧ t.chunkLen = len ∧ t.bytesRem = len ∧ t.bitOff = 8 ∧
      t.bcErrored = false ∧ t.mode = .literal ∧ t.copyRem = 0 ∧ t.copyOff = 0 ∧ t.outHold = none ∧
      t.dictMode = s.dictMode ∧ t.dictSizeCode = s.dictSizeCode ∧ t.dictBits = s.dictBits ∧ t.curByte = s.curByte ∧
      t.first = s.first ∧ t.dict = s.dict ∧ ∀ a, t.slot a = s.slot a

/-- What R38 lists holds after every step from a state where it holds; so does `stepOpen`: a step in progress is one that waits
(the model's own, log entry 3). -/
def Obligations.StepKeepsInvariant : Prop :=
  ∀ s t : State, s.Inv → step s = .next t → t.Inv

/-- From a state where the invariant holds a step always answers a next state: no fault, no refusal (R295, R64). -/
def Obligations.StepNeverStops : Prop :=
  ∀ s : State, s.Inv → ∃ t, step s = .next t

/-- The dictionary holds the newest output bytes, at every step boundary (R65, R197). -/
def Obligations.StepKeepsHistory : Prop :=
  ∀ s t : State, s.Inv → s.History → step s = .next t → t.History

/-- The held beat always fits the state: a byte never follows `Eos` or an error (R230 (b), R257). -/
def Obligations.StepKeepsBeatFits : Prop :=
  ∀ s t : State, s.beatFits = true → step s = .next t → t.beatFits = true

/-- The transitions of R211 and no other: what a step without reset and `Start` can do to the state. -/
def Obligations.OnlyListedTransitions : Prop :=
  ∀ s t : State, s.input.rst = false → s.input.start = none → step s = .next t →
    (s.state = .idle → t.state = .idle) ∧
    (s.state = .init → t.state = .init ∨ t.state = .decoding ∨ t.state = .finished ∨ t.state = .errored) ∧
    (s.state = .headerRead →
      t.state = .headerRead ∨ t.state = .decoding ∨ t.state = .finished ∨ t.state = .errored) ∧
    (s.state = .decoding → t.state = .decoding ∨ t.state = .finished ∨ t.state = .errored) ∧
    (s.state = .finished → t.state = .finished) ∧ (s.state = .errored → t.state = .errored)

/-- The terminal states are sticky (R228, R286): without reset and `Start` a pull there changes nothing but the held beat, which
is the terminal beat again; no source request, no register, no slot. Nothing is held when the step runs, whether the consumer
took the beat or there was none (R259). -/
def Obligations.TerminalStatesAreSticky : Prop :=
  ∀ s : State, s.input.rst = false → s.input.start = none →
    (handOver s.input.outReady (takeInput s)).outHold = none →
    (s.state = .finished → step s = .next { takeInput s with outHold := some .eos }) ∧
    (s.state = .errored → step s = .next { takeInput s with outHold := some (.err s.errCode) })

/-- An error inside a token's step (R227, R283): `state`, `err_code` and the beat report it, `bc_errored` is set, and nothing but
these and the cursor differs from what the previous step left: no byte is emitted, no dictionary, copy or header register
changes. Nothing is held when the step runs, whether the consumer took a beat or there was none (R259). -/
def Obligations.ErrorInTokenIsPrecise : Prop :=
  ∀ (s u : State) (e : ErrCode), s.input.rst = false → s.input.start = none →
    (handOver s.input.outReady (takeInput s)).outHold = none → s.state = .decoding → s.lookupReq = none → s.copyRem = 0 →
    runWalk (decodeToken s.dictBits) (handOver s.input.outReady (takeInput s)) = .raised e u →
    ∃ t, step s = .next t ∧ t.state = .errored ∧ t.errCode = e ∧ t.outHold = some (.err e) ∧ t.bcErrored = true ∧
      t.stepBits = [] ∧ s.bitpos ≤ t.bitpos ∧ ErrorRaised (takeInput s) t

/-- `raise X` (R283): `err_code`, `state` and the beat, nothing else. -/
def Obligations.RaiseRule : Prop :=
  ∀ (e : ErrCode) (s : State), raise e s = .next { s with errCode := e, state := .errored, outHold := some (.err e) }

/-- A step runs the decoded instruction: when nothing is held after the host's input and the decoder fetches in a context, the
step is `exec` of the instruction fetched (R214, R215; log entry 1). -/
def Obligations.StepRunsFetchedInstruction : Prop :=
  ∀ (s u : State) (ctx : Context) (i : Instr), s.input.rst = false → s.input.start = none →
    (handOver s.input.outReady (takeInput s)).outHold = none → s.state ≠ .headerRead → s.activity = .fetch ctx →
    fetchInstr ctx (handOver s.input.outReady (takeInput s)) = .got i u →
    step s = exec i (handOver s.input.outReady (takeInput s))

/-- A step runs the instruction its coming bits decode to: for a token or a table walk, when the bits at the cursor decode to
`i`, whatever follows, the step is `exec i`; for the header, at a byte boundary of a chunk of more than two bytes (R169,
R212, R215). The coming bits begin with those that the step read before it came to wait (R148, log entry 3). -/
def Obligations.StepRunsUpcomingBits : Prop :=
  ∀ (s : State) (ctx : Context) (i : Instr) (rest : Bits), s.input.rst = false → s.input.start = none →
    (handOver s.input.outReady (takeInput s)).outHold = none → s.state ≠ .headerRead → s.activity = .fetch ctx →
    (ctx = .header → s.bitOff = 8 ∧ s.bcErrored = false ∧ 2 < s.chunkLen.toNat ∧ s.stepBits.length % 8 = 0) →
    decodeBits ctx s.dictBits (takeInput s).upcomingBits = .ok (i, rest) →
    step s = exec i (handOver s.input.outReady (takeInput s))

/-- The walk that finds a token and the meaning that runs it move the cursor alike: reading as many bits as the token's encoding
has ends where the walk ended, and gives the encoding's bits (R169, R221). -/
def Obligations.WalkAndEncodingAgree : Prop :=
  ∀ (s u : State) (tok : Token), legalSizeCode s.dictBits.toNat = true →
    runWalk (decodeToken s.dictBits) s = .got tok u →
    readBits (encode s.dictBits tok.toInstr).length s = .got (bitsVal (encode s.dictBits tok.toInstr)) u

/-- Waiting for the source (R148, R62, R254): a read waits exactly when it needs a byte inside the declared length that the source
has not presented, and changes nothing. A step that comes to wait has consumed every byte presented, one by one; the cursor is at
the `SrcNext()` that waits, the bits read stand in `stepBits` (log entry 3), no other register differs, and as long as the source
presents nothing the next step changes nothing. -/
def Obligations.WaitingForTheSource : Prop :=
  (∀ s t : State, fetchByte s = .waiting t ↔ t = s ∧ s.bytesRem ≠ 0 ∧ s.source = []) ∧
  (∀ s t : State, readBit s = .waiting t ↔
    t = s ∧ s.bcErrored = false ∧ s.bitOff = 8 ∧ s.bytesRem ≠ 0 ∧ s.source = []) ∧
  ∀ (s u t : State) (ctx : Context), s.input.rst = false → s.input.start = none →
    u = leaveHeaderRead (handOver s.input.outReady (takeInput s)) → u.outHold = none → s.activity = .fetch ctx →
    (ctx = .header → u.bitOff = 8 ∧ u.bcErrored = false ∧ u.stepBits.length % 8 = 0) →
    fetchInstr ctx u = .waiting t →
    step s = .next t ∧ CursorMoved u t ∧ t.source = [] ∧ t.bitOff = 8 ∧ t.bytesRem ≠ 0 ∧
      (∀ x ∈ u.source, ∃ v, x.answer = .byte v) ∧ t.bytesRem.toNat + u.source.length = u.bytesRem.toNat ∧
      t.stepBits = u.upcomingBits ∧ fetchInstr ctx t = .waiting t

/-- When the source answers makes no difference (R255, R258, R148): what a step that waits does once the answers `late` come is
what it would have done with them in the source from the start. That a step's reads before the wait are kept in `stepBits` is the
model's form (log entry 3). -/
def Obligations.LateAnswersMakeNoDifference : Prop :=
  ∀ s t : State, s.Inv → s.host = [] → s.state ≠ .idle → step s = .next t → t.outHold = none →
    t.lookupReq = s.lookupReq →
    t.source = [] ∧ ∀ late, step { t with source := late } = step { s with source := s.source ++ late }

/-- A held beat that the consumer does not take stops the block, which is at most one step ahead (R256, R259); in `IDLE` a step
does nothing and no beat appears (R214, R258). -/
def Obligations.HeldBeatAndIdleWait : Prop :=
  ∀ s : State, s.input.rst = false → s.input.start = none →
    (s.outHold ≠ none → s.input.outReady = false → step s = .next (takeInput s)) ∧
    (s.state = .idle → step s = .next (handOver s.input.outReady (takeInput s)))

/-- The source is asked only for bytes inside the declared length, in order, each once (R62, R254, R230 (d)): a step takes the
front of the source's answers, `bytes_rem` falls by the number of bytes among them, and at most one further answer is taken,
which was no byte and put the decoder into `ERRORED`. -/
def Obligations.SourceAskedWithinTheChunk : Prop :=
  ∀ s t : State, s.undisturbed → step s = .next t →
    ∃ used last, s.source = used ++ (last ++ t.source) ∧ (∀ x ∈ used, ∃ v, x.answer = .byte v) ∧ last.length ≤ 1 ∧
      (∀ x ∈ last, ∀ v, x.answer ≠ .byte v) ∧
      (last ≠ [] → t.state = .errored) ∧ t.bytesRem.toNat + used.length = s.bytesRem.toNat

/-- `src_ready` is raised exactly when `fetchByte()` needs a byte (R254, R251, R252, R259): never while `rst` is asserted, a beat is
held or `bytes_rem` is 0, never in `IDLE`, `FINISHED`, `ERRORED` or a copy in progress; in `INIT`, with more than two bytes
declared, until both header bytes are read; for a token or a table walk, when the bits read and those left in `cur_byte` do not
make the instruction. -/
def Obligations.SourceRequestedExactlyWhenNeeded : Prop :=
  ∀ s : State,
    (s.input.rst = true ∨ s.state = .idle ∨ s.state = .finished ∨ s.state = .errored ∨ s.bytesRem = 0 ∨ s.outHold ≠ none ∨
      s.activity = .continueCopy → srcReady s = false) ∧
    (s.input.rst = false → s.outHold = none → s.bytesRem ≠ 0 →
      (s.state = .init → (srcReady s = true ↔ 2 < s.chunkLen.toNat ∧ s.stepBits.length ≤ 8)) ∧
      ∀ ctx, s.activity = .fetch ctx → ctx ≠ .header →
        (srcReady s = true ↔ s.bcErrored = false ∧
          decodeBits ctx s.dictBits (s.stepBits ++ (bitsOf 8 s.curByte.toNat).drop s.bitOff.val) = .error .bitsExhausted))

/-- No read-ahead (R320, R169): from a state with the invariant, a step that produces a beat depends on no answer of the source
beyond those it took. -/
def Obligations.StepReadsNoFurtherThanItTakes : Prop :=
  ∀ (s t : State) (used rest rest' : List SrcXfer), s.Inv → s.undisturbed → s.source = used ++ rest →
    step s = .next t → t.source = rest → t.outHold ≠ none →
    step { s with source := used ++ rest' } = .next { t with source := rest' }

/-- Nothing of one chunk carries into the next but the dictionary's bytes (R262, R312): two blocks with the same dictionary,
source and host run alike after `Start`, whatever their registers were. -/
def Obligations.StartForgetsTheRegisters : Prop :=
  ∀ (n : Nat) (len : Len) (s s' t : State), s.dict = s'.dict → s.source = s'.source → s.host = s'.host →
    Host.Core.run core n (applyStart len s) = .next t →
    ∃ t', Host.Core.run core n (applyStart len s') = .next t' ∧ t'.state = t.state ∧ t'.errCode = t.errCode ∧
      t'.outHold = t.outHold ∧ t'.out = t.out ∧ t'.dict = t.dict ∧ t'.source = t.source

/-- Decoding ends (R219, R322): after `Start(L)`, with a source that answers every request and a consumer that takes every beat,
a terminal state is reached within `518 * (L - 2) + 1` steps. -/
def Obligations.DecodingEnds : Prop :=
  ∀ (s : State) (len : Len), s.host = [] → (applyStart len s).sourceAnswers →
    ∃ n t, n ≤ 518 * (len.toNat - 2) + 1 ∧ Host.Core.run core n (applyStart len s) = .next t ∧
      (t.state = .finished ∨ t.state = .errored)
end

