-- ==== Sys2Proof/Laws/State.lean ====
section
/-! SUPPORT. What each named update of State does to each field: one lemma a field, so that no proof unfolds an update. -/

namespace Sys2Proof.Machine

variable (s : State)

/-! ## `emit` -/

@[simp] theorem emit_state (b : Beat) : (emit b s).state = s.state := by cases b <;> rfl
@[simp] theorem emit_errCode (b : Beat) : (emit b s).errCode = s.errCode := by cases b <;> rfl
@[simp] theorem emit_chunkLen (b : Beat) : (emit b s).chunkLen = s.chunkLen := by cases b <;> rfl
@[simp] theorem emit_dictMode (b : Beat) : (emit b s).dictMode = s.dictMode := by cases b <;> rfl
@[simp] theorem emit_dictSizeCode (b : Beat) : (emit b s).dictSizeCode = s.dictSizeCode := by cases b <;> rfl
@[simp] theorem emit_dictBits (b : Beat) : (emit b s).dictBits = s.dictBits := by cases b <;> rfl
@[simp] theorem emit_curByte (b : Beat) : (emit b s).curByte = s.curByte := by cases b <;> rfl
@[simp] theorem emit_bitOff (b : Beat) : (emit b s).bitOff = s.bitOff := by cases b <;> rfl
@[simp] theorem emit_bytesRem (b : Beat) : (emit b s).bytesRem = s.bytesRem := by cases b <;> rfl
@[simp] theorem emit_bcErrored (b : Beat) : (emit b s).bcErrored = s.bcErrored := by cases b <;> rfl
@[simp] theorem emit_dict (b : Beat) : (emit b s).dict = s.dict := by cases b <;> rfl
@[simp] theorem emit_first (b : Beat) : (emit b s).first = s.first := by cases b <;> rfl
@[simp] theorem emit_mode (b : Beat) : (emit b s).mode = s.mode := by cases b <;> rfl
@[simp] theorem emit_copyRem (b : Beat) : (emit b s).copyRem = s.copyRem := by cases b <;> rfl
@[simp] theorem emit_copyOff (b : Beat) : (emit b s).copyOff = s.copyOff := by cases b <;> rfl
@[simp] theorem emit_outHold (b : Beat) : (emit b s).outHold = some b := by cases b <;> rfl
@[simp] theorem emit_out_byte (v : Byte) : (emit (.byte v) s).out = s.out ++ [v] := rfl
@[simp] theorem emit_out_eos : (emit .eos s).out = s.out := rfl
@[simp] theorem emit_out_err (c : ErrCode) : (emit (.err c) s).out = s.out := rfl
@[simp] theorem emit_stepBits (b : Beat) : (emit b s).stepBits = s.stepBits := by cases b <;> rfl
@[simp] theorem emit_lookupReq (b : Beat) : (emit b s).lookupReq = s.lookupReq := by cases b <;> rfl
@[simp] theorem emit_lenVal (b : Beat) : (emit b s).lenVal = s.lenVal := by cases b <;> rfl
@[simp] theorem emit_highVal (b : Beat) : (emit b s).highVal = s.highVal := by cases b <;> rfl
@[simp] theorem emit_source (b : Beat) : (emit b s).source = s.source := by cases b <;> rfl
@[simp] theorem emit_host (b : Beat) : (emit b s).host = s.host := by cases b <;> rfl

/-! ## `Start` -/

@[simp] theorem applyStart_state (len : Len) : (applyStart len s).state = .init := rfl
@[simp] theorem applyStart_errCode (len : Len) : (applyStart len s).errCode = .none := rfl
@[simp] theorem applyStart_chunkLen (len : Len) : (applyStart len s).chunkLen = len := rfl
@[simp] theorem applyStart_dictMode (len : Len) : (applyStart len s).dictMode = s.dictMode := rfl
@[simp] theorem applyStart_dictSizeCode (len : Len) : (applyStart len s).dictSizeCode = s.dictSizeCode := rfl
@[simp] theorem applyStart_dictBits (len : Len) : (applyStart len s).dictBits = s.dictBits := rfl
@[simp] theorem applyStart_curByte (len : Len) : (applyStart len s).curByte = s.curByte := rfl
@[simp] theorem applyStart_bitOff (len : Len) : (applyStart len s).bitOff = 8 := rfl
@[simp] theorem applyStart_bytesRem (len : Len) : (applyStart len s).bytesRem = len := rfl
@[simp] theorem applyStart_bcErrored (len : Len) : (applyStart len s).bcErrored = false := rfl
@[simp] theorem applyStart_dict (len : Len) : (applyStart len s).dict = s.dict := rfl
@[simp] theorem applyStart_first (len : Len) : (applyStart len s).first = s.first := rfl
@[simp] theorem applyStart_mode (len : Len) : (applyStart len s).mode = .literal := rfl
@[simp] theorem applyStart_copyRem (len : Len) : (applyStart len s).copyRem = 0 := rfl
@[simp] theorem applyStart_copyOff (len : Len) : (applyStart len s).copyOff = 0 := rfl
@[simp] theorem applyStart_outHold (len : Len) : (applyStart len s).outHold = none := rfl
@[simp] theorem applyStart_out (len : Len) : (applyStart len s).out = [] := rfl
@[simp] theorem applyStart_stepBits (len : Len) : (applyStart len s).stepBits = [] := rfl
@[simp] theorem applyStart_lookupReq (len : Len) : (applyStart len s).lookupReq = none := rfl
@[simp] theorem applyStart_lenVal (len : Len) : (applyStart len s).lenVal = s.lenVal := rfl
@[simp] theorem applyStart_highVal (len : Len) : (applyStart len s).highVal = s.highVal := rfl
@[simp] theorem applyStart_source (len : Len) : (applyStart len s).source = s.source := rfl
@[simp] theorem applyStart_host (len : Len) : (applyStart len s).host = s.host := rfl

/-! ## Reset -/

@[simp] theorem applyReset_state : (applyReset s).state = .idle := rfl
@[simp] theorem applyReset_errCode : (applyReset s).errCode = .none := rfl
@[simp] theorem applyReset_chunkLen : (applyReset s).chunkLen = 0 := rfl
@[simp] theorem applyReset_dictMode : (applyReset s).dictMode = 0 := rfl
@[simp] theorem applyReset_dictSizeCode : (applyReset s).dictSizeCode = 0 := rfl
@[simp] theorem applyReset_dictBits : (applyReset s).dictBits = 0 := rfl
@[simp] theorem applyReset_curByte : (applyReset s).curByte = 0 := rfl
@[simp] theorem applyReset_bitOff : (applyReset s).bitOff = 8 := rfl
@[simp] theorem applyReset_bytesRem : (applyReset s).bytesRem = 0 := rfl
@[simp] theorem applyReset_bcErrored : (applyReset s).bcErrored = false := rfl
@[simp] theorem applyReset_dict : (applyReset s).dict = s.dict := rfl
@[simp] theorem applyReset_first : (applyReset s).first = 0 := rfl
@[simp] theorem applyReset_mode : (applyReset s).mode = .literal := rfl
@[simp] theorem applyReset_copyRem : (applyReset s).copyRem = 0 := rfl
@[simp] theorem applyReset_copyOff : (applyReset s).copyOff = 0 := rfl
@[simp] theorem applyReset_outHold : (applyReset s).outHold = none := rfl
@[simp] theorem applyReset_out : (applyReset s).out = [] := rfl
@[simp] theorem applyReset_stepBits : (applyReset s).stepBits = [] := rfl
@[simp] theorem applyReset_lookupReq : (applyReset s).lookupReq = none := rfl
@[simp] theorem applyReset_lenVal : (applyReset s).lenVal = 0 := rfl
@[simp] theorem applyReset_highVal : (applyReset s).highVal = 0 := rfl
@[simp] theorem applyReset_source : (applyReset s).source = s.source := rfl
@[simp] theorem applyReset_host : (applyReset s).host = s.host := rfl

/-! ## Taking the host's input -/

@[simp] theorem takeInput_state : (takeInput s).state = s.state := rfl
@[simp] theorem takeInput_errCode : (takeInput s).errCode = s.errCode := rfl
@[simp] theorem takeInput_chunkLen : (takeInput s).chunkLen = s.chunkLen := rfl
@[simp] theorem takeInput_dictMode : (takeInput s).dictMode = s.dictMode := rfl
@[simp] theorem takeInput_dictSizeCode : (takeInput s).dictSizeCode = s.dictSizeCode := rfl
@[simp] theorem takeInput_dictBits : (takeInput s).dictBits = s.dictBits := rfl
@[simp] theorem takeInput_curByte : (takeInput s).curByte = s.curByte := rfl
@[simp] theorem takeInput_bitOff : (takeInput s).bitOff = s.bitOff := rfl
@[simp] theorem takeInput_bytesRem : (takeInput s).bytesRem = s.bytesRem := rfl
@[simp] theorem takeInput_bcErrored : (takeInput s).bcErrored = s.bcErrored := rfl
@[simp] theorem takeInput_dict : (takeInput s).dict = s.dict := rfl
@[simp] theorem takeInput_first : (takeInput s).first = s.first := rfl
@[simp] theorem takeInput_mode : (takeInput s).mode = s.mode := rfl
@[simp] theorem takeInput_copyRem : (takeInput s).copyRem = s.copyRem := rfl
@[simp] theorem takeInput_copyOff : (takeInput s).copyOff = s.copyOff := rfl
@[simp] theorem takeInput_outHold : (takeInput s).outHold = s.outHold := rfl
@[simp] theorem takeInput_out : (takeInput s).out = s.out := rfl
@[simp] theorem takeInput_stepBits : (takeInput s).stepBits = s.stepBits := rfl
@[simp] theorem takeInput_lookupReq : (takeInput s).lookupReq = s.lookupReq := rfl
@[simp] theorem takeInput_lenVal : (takeInput s).lenVal = s.lenVal := rfl
@[simp] theorem takeInput_highVal : (takeInput s).highVal = s.highVal := rfl
@[simp] theorem takeInput_source : (takeInput s).source = (s.input.seek.getD s.source) ++ s.input.arrive := rfl
@[simp] theorem takeInput_host : (takeInput s).host = s.host.tail := rfl

/-! ## Handing over the held beat -/

@[simp] theorem handOver_state (r : Bool) : (handOver r s).state = s.state := by cases r <;> rfl
@[simp] theorem handOver_errCode (r : Bool) : (handOver r s).errCode = s.errCode := by cases r <;> rfl
@[simp] theorem handOver_chunkLen (r : Bool) : (handOver r s).chunkLen = s.chunkLen := by cases r <;> rfl
@[simp] theorem handOver_dictMode (r : Bool) : (handOver r s).dictMode = s.dictMode := by cases r <;> rfl
@[simp] theorem handOver_dictSizeCode (r : Bool) : (handOver r s).dictSizeCode = s.dictSizeCode := by cases r <;> rfl
@[simp] theorem handOver_dictBits (r : Bool) : (handOver r s).dictBits = s.dictBits := by cases r <;> rfl
@[simp] theorem handOver_curByte (r : Bool) : (handOver r s).curByte = s.curByte := by cases r <;> rfl
@[simp] theorem handOver_bitOff (r : Bool) : (handOver r s).bitOff = s.bitOff := by cases r <;> rfl
@[simp] theorem handOver_bytesRem (r : Bool) : (handOver r s).bytesRem = s.bytesRem := by cases r <;> rfl
@[simp] theorem handOver_bcErrored (r : Bool) : (handOver r s).bcErrored = s.bcErrored := by cases r <;> rfl
@[simp] theorem handOver_dict (r : Bool) : (handOver r s).dict = s.dict := by cases r <;> rfl
@[simp] theorem handOver_first (r : Bool) : (handOver r s).first = s.first := by cases r <;> rfl
@[simp] theorem handOver_mode (r : Bool) : (handOver r s).mode = s.mode := by cases r <;> rfl
@[simp] theorem handOver_copyRem (r : Bool) : (handOver r s).copyRem = s.copyRem := by cases r <;> rfl
@[simp] theorem handOver_copyOff (r : Bool) : (handOver r s).copyOff = s.copyOff := by cases r <;> rfl
@[simp] theorem handOver_outHold_true : (handOver true s).outHold = none := rfl
@[simp] theorem handOver_outHold_false : (handOver false s).outHold = s.outHold := rfl
@[simp] theorem handOver_out (r : Bool) : (handOver r s).out = s.out := by cases r <;> rfl
@[simp] theorem handOver_stepBits (r : Bool) : (handOver r s).stepBits = s.stepBits := by cases r <;> rfl
@[simp] theorem handOver_lookupReq (r : Bool) : (handOver r s).lookupReq = s.lookupReq := by cases r <;> rfl
@[simp] theorem handOver_lenVal (r : Bool) : (handOver r s).lenVal = s.lenVal := by cases r <;> rfl
@[simp] theorem handOver_highVal (r : Bool) : (handOver r s).highVal = s.highVal := by cases r <;> rfl
@[simp] theorem handOver_source (r : Bool) : (handOver r s).source = s.source := by cases r <;> rfl
@[simp] theorem handOver_host (r : Bool) : (handOver r s).host = s.host := by cases r <;> rfl

/-! ## Leaving `HEADER_READ` -/

@[simp] theorem leaveHeaderRead_errCode : (leaveHeaderRead s).errCode = s.errCode := by unfold leaveHeaderRead; split <;> rfl
@[simp] theorem leaveHeaderRead_chunkLen : (leaveHeaderRead s).chunkLen = s.chunkLen := by unfold leaveHeaderRead; split <;> rfl
@[simp] theorem leaveHeaderRead_dictMode : (leaveHeaderRead s).dictMode = s.dictMode := by unfold leaveHeaderRead; split <;> rfl
@[simp] theorem leaveHeaderRead_dictSizeCode : (leaveHeaderRead s).dictSizeCode = s.dictSizeCode := by unfold leaveHeaderRead; split <;> rfl
@[simp] theorem leaveHeaderRead_dictBits : (leaveHeaderRead s).dictBits = s.dictBits := by unfold leaveHeaderRead; split <;> rfl
@[simp] theorem leaveHeaderRead_curByte : (leaveHeaderRead s).curByte = s.curByte := by unfold leaveHeaderRead; split <;> rfl
@[simp] theorem leaveHeaderRead_bitOff : (leaveHeaderRead s).bitOff = s.bitOff := by unfold leaveHeaderRead; split <;> rfl
@[simp] theorem leaveHeaderRead_bytesRem : (leaveHeaderRead s).bytesRem = s.bytesRem := by unfold leaveHeaderRead; split <;> rfl
@[simp] theorem leaveHeaderRead_bcErrored : (leaveHeaderRead s).bcErrored = s.bcErrored := by unfold leaveHeaderRead; split <;> rfl
@[simp] theorem leaveHeaderRead_dict : (leaveHeaderRead s).dict = s.dict := by unfold leaveHeaderRead; split <;> rfl
@[simp] theorem leaveHeaderRead_first : (leaveHeaderRead s).first = s.first := by unfold leaveHeaderRead; split <;> rfl
@[simp] theorem leaveHeaderRead_mode : (leaveHeaderRead s).mode = s.mode := by unfold leaveHeaderRead; split <;> rfl
@[simp] theorem leaveHeaderRead_copyRem : (leaveHeaderRead s).copyRem = s.copyRem := by unfold leaveHeaderRead; split <;> rfl
@[simp] theorem leaveHeaderRead_copyOff : (leaveHeaderRead s).copyOff = s.copyOff := by unfold leaveHeaderRead; split <;> rfl
@[simp] theorem leaveHeaderRead_outHold : (leaveHeaderRead s).outHold = s.outHold := by unfold leaveHeaderRead; split <;> rfl
@[simp] theorem leaveHeaderRead_out : (leaveHeaderRead s).out = s.out := by unfold leaveHeaderRead; split <;> rfl
@[simp] theorem leaveHeaderRead_stepBits : (leaveHeaderRead s).stepBits = s.stepBits := by unfold leaveHeaderRead; split <;> rfl
@[simp] theorem leaveHeaderRead_lookupReq : (leaveHeaderRead s).lookupReq = s.lookupReq := by unfold leaveHeaderRead; split <;> rfl
@[simp] theorem leaveHeaderRead_lenVal : (leaveHeaderRead s).lenVal = s.lenVal := by unfold leaveHeaderRead; split <;> rfl
@[simp] theorem leaveHeaderRead_highVal : (leaveHeaderRead s).highVal = s.highVal := by unfold leaveHeaderRead; split <;> rfl
@[simp] theorem leaveHeaderRead_source : (leaveHeaderRead s).source = s.source := by unfold leaveHeaderRead; split <;> rfl
@[simp] theorem leaveHeaderRead_host : (leaveHeaderRead s).host = s.host := by unfold leaveHeaderRead; split <;> rfl

/-- At a step boundary the state is never `HEADER_READ` (R214), so leaving it changes nothing. -/
theorem leaveHeaderRead_eq (h : s.state ≠ .headerRead) : leaveHeaderRead s = s := by
  unfold leaveHeaderRead; exact if_neg h

end Sys2Proof.Machine
end

