-- ==== Sys2Proof/Laws/Cursor.lean ====
section
/-! SUPPORT. The laws of the bit cursor: one reading of a bit, a byte, a walk, each said once in full (spec/40_bit_cursor.md).
Callers cite these and unfold neither `readBit` nor `runWalk`. -/

namespace Sys2Proof.Machine

/-! ## Bits -/

@[simp] theorem bitsOf_length (n v : Nat) : (bitsOf n v).length = n := by
  induction n generalizing v with
  | zero => rfl
  | succ n ih => simp [bitsOf, ih]

/-- Bit `k` of the layout is bit `k` of the number. -/
theorem bitsOf_getElem? (n v k : Nat) (h : k < n) : (bitsOf n v)[k]? = some (v.testBit k) := by
  induction n generalizing v k with
  | zero => omega
  | succ n ih =>
    cases k with
    | zero => simp only [bitsOf, List.getElem?_cons_zero, Nat.testBit_zero]; congr 1
    | succ k => simpa [bitsOf, Nat.testBit_succ] using ih (v / 2) k (by omega)

/-- Laying out a number and reading it back gives its low `n` bits (R66). -/
theorem bitsVal_bitsOf (n v : Nat) : bitsVal (bitsOf n v) = v % 2 ^ n := by
  induction n generalizing v with
  | zero => simp [bitsOf, bitsVal, Nat.mod_one]
  | succ n ih =>
    have h2 : (v % 2 == 1).toNat = v % 2 := by rcases Nat.mod_two_eq_zero_or_one v with h | h <;> rw [h] <;> rfl
    simp only [bitsOf, bitsVal, ih, h2]
    rw [Nat.pow_succ, Nat.mul_comm (2 ^ n) 2, Nat.mod_mul]

/-- A bit list is the layout of its own value. -/
theorem bitsOf_bitsVal (bs : Bits) : bitsOf bs.length (bitsVal bs) = bs := by
  induction bs with
  | nil => rfl
  | cons b bs ih =>
    have h : (b.toNat + 2 * bitsVal bs) / 2 = bitsVal bs := by
      have : b.toNat ≤ 1 := Bool.toNat_le b
      omega
    have h1 : ((b.toNat + 2 * bitsVal bs) % 2 == 1) = b := by
      cases b
      · simp
      · have : (1 + 2 * bitsVal bs) % 2 = 1 := by omega
        simp [this]
    simp only [List.length_cons, bitsVal, bitsOf, h, h1, ih]

theorem bitsVal_lt (bs : Bits) : bitsVal bs < 2 ^ bs.length := by
  induction bs with
  | nil => simp [bitsVal]
  | cons b bs ih =>
    have : b.toNat ≤ 1 := Bool.toNat_le b
    simp only [bitsVal, List.length_cons, Nat.pow_succ]; omega

@[simp] theorem bytesBits_nil : bytesBits [] = [] := rfl
@[simp] theorem bytesBits_cons (b : Byte) (bs : List Byte) : bytesBits (b :: bs) = bitsOf 8 b.toNat ++ bytesBits bs := by
  simp [bytesBits]

@[simp] theorem bytesBits_length (bs : List Byte) : (bytesBits bs).length = 8 * bs.length := by
  induction bs with
  | nil => rfl
  | cons b bs ih => simp [ih]; omega

/-! ## Walks -/

@[simp] theorem Walk.bind_done {α β : Type} (a : α) (f : α → Walk β) : (Walk.done a).bind f = f a := rfl
@[simp] theorem Walk.bind_ask {α β : Type} (g : Bool → Walk α) (f : α → Walk β) :
    (Walk.ask g).bind f = .ask fun b => (g b).bind f := rfl

/-- A walk run on bits, then its continuation on the bits left. -/
theorem Walk.runBits_bind {α β : Type} (w : Walk α) (f : α → Walk β) (bits : Bits) :
    (w.bind f).runBits bits =
      match w.runBits bits with
      | .ok (a, rest) => (f a).runBits rest
      | .error e => .error e := by
  induction w generalizing bits with
  | done a => rfl
  | ask g ih =>
    cases bits with
    | nil => rfl
    | cons b bits => exact ih b bits

/-- `readBits(n)` on a bit list of at least `n` bits takes the first `n`, little-endian (R144). -/
theorem Walk.runBits_readBits (n : Nat) (bits : Bits) (h : n ≤ bits.length) :
    (Walk.readBits n).runBits bits = .ok (bitsVal (bits.take n), bits.drop n) := by
  induction n generalizing bits with
  | zero => simp [Walk.readBits, Walk.runBits, bitsVal]
  | succ n ih =>
    cases bits with
    | nil => simp at h
    | cons b bits =>
      have hb : n ≤ bits.length := by simpa using h
      simp [Walk.readBits, Walk.readBit, Walk.bind, Walk.runBits, Walk.runBits_bind, ih bits hb, bitsVal]

/-- `readBits(n)` on fewer than `n` bits runs out of them. -/
theorem Walk.runBits_readBits_short (n : Nat) (bits : Bits) (h : bits.length < n) :
    (Walk.readBits n).runBits bits = .error .bitsExhausted := by
  induction n generalizing bits with
  | zero => omega
  | succ n ih =>
    cases bits with
    | nil => rfl
    | cons b bits =>
      have hb : bits.length < n := by simpa using h
      simp [Walk.readBits, Walk.readBit, Walk.bind, Walk.runBits, Walk.runBits_bind, ih bits hb]

/-- A walk that ends on some bits takes the same bits whatever follows them (R169: no read-ahead). -/
theorem Walk.runBits_append {α : Type} (w : Walk α) (bits rest : Bits) (a : α) (left : Bits)
    (h : w.runBits bits = .ok (a, left)) : w.runBits (bits ++ rest) = .ok (a, left ++ rest) := by
  induction w generalizing bits with
  | done x =>
    simp only [Walk.runBits, Except.ok.injEq, Prod.mk.injEq] at h ⊢
    exact ⟨h.1, by rw [h.2]⟩
  | ask g ih =>
    cases bits with
    | nil => simp [Walk.runBits] at h
    | cons b bits => exact ih b bits h

/-! ## The cursor -/

/-- The cursor has as many bits ready as bits are coming. -/
theorem bytesPresented_eq (xs : List SrcXfer) : bytesPresented xs = (presentedBytes xs).length := by
  induction xs with
  | nil => rfl
  | cons x xs ih =>
    simp only [bytesPresented, presentedBytes]
    split <;> simp_all [Nat.add_comm]

theorem cursorBits_length (s : State) : s.cursorBits.length = s.cursorReady := by
  unfold State.cursorBits State.cursorReady
  split
  · rfl
  · simp [bytesPresented_eq]

theorem upcomingBits_length (s : State) : s.upcomingBits.length = s.bitsReady := by
  simp [State.upcomingBits, State.bitsReady, cursorBits_length]

/-- What a read can answer after a bit was remembered: the same, with the bit in front of a wait's. -/
theorem remember_got {α : Type} {b : Bool} {r : Read α} {a : α} {t : State} (h : r.remember b = .got a t) : r = .got a t := by
  cases r <;> simp_all [Read.remember]

theorem remember_raised {α : Type} {b : Bool} {r : Read α} {e : ErrCode} {t : State} (h : r.remember b = .raised e t) :
    r = .raised e t := by
  cases r <;> simp_all [Read.remember]

theorem remember_waiting {α : Type} {b : Bool} {r : Read α} {t : State} (h : r.remember b = .waiting t) :
    ∃ u, r = .waiting u ∧ t = { u with stepBits := b :: u.stepBits } := by
  cases r <;> simp_all [Read.remember]

/-- One bit read when `bit_off < 8` (R143). -/
theorem takeBit_spec (s : State) (h : s.bitOff.val < 8) :
    takeBit s = .got (s.curByte.toNat.testBit s.bitOff.val) { s with bitOff := s.bitOff + 1 } ∧
      (s.bitOff + 1 : Fin 9).val = s.bitOff.val + 1 := by
  refine ⟨?_, by simp [Fin.val_add, Nat.mod_eq_of_lt (show s.bitOff.val + 1 < 9 by omega)]⟩
  simp [takeBit, BitVec.getLsbD]

theorem bytesRem_pred (n : Len) (h : n ≠ 0) : (n - 1).toNat = n.toNat - 1 ∧ 0 < n.toNat := by
  have h0 : n.toNat ≠ 0 := fun h' => h (BitVec.eq_of_toNat_eq (by simpa using h'))
  have hlt := n.isLt
  constructor
  · rw [BitVec.toNat_sub]; simp; omega
  · omega

/-- `fetchByte()` delivering a byte (R142). -/
theorem fetchByte_got (s t : State) (h : fetchByte s = .got () t) :
    s.bytesRem ≠ 0 ∧ ∃ x v rest, s.source = x :: rest ∧ x.answer = .byte v ∧
      t = { s with curByte := v, bitOff := 0, bytesRem := s.bytesRem - 1, source := rest } := by
  unfold fetchByte at h
  split at h
  · cases h
  · next hr =>
    split at h
    · cases h
    · next x rest hs =>
      split at h
      · next v hv => cases h; exact ⟨hr, x, v, rest, hs, hv, rfl⟩
      · cases h
      · cases h

/-- `fetchByte()` failing: only `bc_errored` and the source differ, and one of R142's three causes holds. -/
theorem fetchByte_raised (s t : State) (e : ErrCode) (h : fetchByte s = .raised e t) :
    t = { s with bcErrored := true, source := t.source } ∧
    ((s.bytesRem = 0 ∧ e = .unexpectedEndOfChunk ∧ t.source = s.source) ∨
      (s.bytesRem ≠ 0 ∧ ∃ x rest, s.source = x :: rest ∧ t.source = rest ∧
        ((x.answer = .endOfSource ∧ e = .unexpectedEndOfChunk) ∨ (x.answer = .ioError ∧ e = .underlyingIOError)))) := by
  unfold fetchByte at h
  split at h
  · next hr => cases h; exact ⟨rfl, .inl ⟨hr, rfl, rfl⟩⟩
  · next hr =>
    split at h
    · cases h
    · next x rest hs =>
      split at h
      · cases h
      · next hv => cases h; exact ⟨rfl, .inr ⟨hr, x, rest, hs, rfl, .inl ⟨hv, rfl⟩⟩⟩
      · next hv => cases h; exact ⟨rfl, .inr ⟨hr, x, rest, hs, rfl, .inr ⟨hv, rfl⟩⟩⟩

/-- Waiting means the source presents nothing and a byte is due (R148). -/
theorem fetchByte_waiting (s t : State) (h : fetchByte s = .waiting t) : t = s ∧ s.bytesRem ≠ 0 ∧ s.source = [] := by
  unfold fetchByte at h
  split at h
  · cases h
  · next hr =>
    split at h
    · next hs => cases h; exact ⟨rfl, hr, hs⟩
    · split at h <;> cases h

theorem Fin9_lt (b : Fin 9) (h : b ≠ 8) : b.val < 8 := by
  have := b.isLt
  have h' : b.val ≠ 8 := fun hv => h (Fin.ext hv)
  omega

theorem drop_bitsOf (v k : Nat) (h : k < 8) :
    (bitsOf 8 v).drop k = v.testBit k :: (bitsOf 8 v).drop (k + 1) := by
  have hl : k < (bitsOf 8 v).length := by simpa using h
  rw [List.drop_eq_getElem_cons hl]
  congr 1
  have := bitsOf_getElem? 8 v k h
  rw [List.getElem?_eq_getElem hl] at this
  exact Option.some.inj this

/-- From `s` to `t` the source delivered bytes, and `bytes_rem` fell by their number (R28, spec/20_memory.md R62). -/
def BytesTaken (s t : State) : Prop :=
  ∃ used, s.source = used ++ t.source ∧ (∀ x ∈ used, ∃ v, x.answer = .byte v) ∧
    t.bytesRem.toNat + used.length = s.bytesRem.toNat

/-- The same, and perhaps one answer more, which was no byte (spec/44_host_interface.md R254). -/
def BytesAsked (s t : State) : Prop :=
  ∃ used last, s.source = used ++ (last ++ t.source) ∧ (∀ x ∈ used, ∃ v, x.answer = .byte v) ∧ last.length ≤ 1 ∧
    t.bytesRem.toNat + used.length = s.bytesRem.toNat

theorem BytesTaken.refl (s : State) : BytesTaken s s := ⟨[], by simp, by simp, by simp⟩

theorem BytesTaken.trans {s t u : State} (h : BytesTaken s t) (h' : BytesTaken t u) : BytesTaken s u := by
  obtain ⟨a, ha, hb, hc⟩ := h
  obtain ⟨a', ha', hb', hc'⟩ := h'
  refine ⟨a ++ a', by rw [ha, ha', List.append_assoc], ?_, by rw [List.length_append]; omega⟩
  intro x hx
  rcases List.mem_append.mp hx with h1 | h1
  · exact hb x h1
  · exact hb' x h1

theorem BytesTaken.asked {s t u : State} (h : BytesTaken s t) (h' : BytesAsked t u) : BytesAsked s u := by
  obtain ⟨a, ha, hb, hc⟩ := h
  obtain ⟨a', last, ha', hb', hl, hc'⟩ := h'
  refine ⟨a ++ a', last, by rw [ha, ha', List.append_assoc], ?_, hl, by rw [List.length_append]; omega⟩
  intro x hx
  rcases List.mem_append.mp hx with h1 | h1
  · exact hb x h1
  · exact hb' x h1

theorem BytesTaken.le {s t : State} (h : BytesTaken s t) : t.bytesRem.toNat ≤ s.bytesRem.toNat := by
  obtain ⟨a, -, -, hc⟩ := h; omega

theorem BytesAsked.le {s t : State} (h : BytesAsked s t) : t.bytesRem.toNat ≤ s.bytesRem.toNat := by
  obtain ⟨a, l, -, -, -, hc⟩ := h; omega

/-- The bits of the step in progress are no bytes. -/
theorem BytesAsked.clear {s t : State} (h : BytesAsked s t) : BytesAsked s { t with stepBits := [] } := h

/-- A failing fetch has asked for at most one answer, which was no byte. -/
theorem fetchByte_raised_asked (s t : State) (e : ErrCode) (h : fetchByte s = .raised e t) : BytesAsked s t := by
  obtain ⟨ht, hc⟩ := fetchByte_raised s t e h
  have hn : t.bytesRem = s.bytesRem := by rw [ht]
  rcases hc with ⟨-, -, he⟩ | ⟨-, x, rest, hs, he, -⟩
  · exact ⟨[], [], by simp [he], by simp, by simp, by simp [hn]⟩
  · exact ⟨[], [x], by simp [hs, he], by simp, by simp, by simp [hn]⟩

/-- Reading one bit: the cursor alone moves, one bit on, and the bit is the first of those the cursor had (R143, R31). -/
theorem readBit_got (s t : State) (b : Bool) (h : readBit s = .got b t) :
    CursorMoved s t ∧ t.bitpos = s.bitpos + 1 ∧ s.cursorBits = b :: t.cursorBits ∧ t.stepBits = s.stepBits ∧
      BytesTaken s t := by
  unfold readBit at h
  split at h
  · cases h
  · next hbc =>
    split at h
    · next ho =>
      cases hf : fetchByte s with
      | raised e u => rw [hf] at h; cases h
      | waiting u => rw [hf] at h; cases h
      | got u0 u =>
        rw [hf] at h
        obtain ⟨hr, x, v, rest, hs, hv, rfl⟩ := fetchByte_got s u hf
        simp only [Read.bind, takeBit, Read.got.injEq] at h
        obtain ⟨rfl, rfl⟩ := h
        obtain ⟨hp, hpos⟩ := bytesRem_pred s.bytesRem hr
        refine ⟨rfl, ?_, ?_, rfl, [x], by simp [hs], by simp [hv], by simp only [hp, List.length_singleton]; omega⟩
        · have e1 : ((0 : Fin 9) + 1).val = 1 := rfl
          have e8 : (8 : Fin 9).val = 8 := rfl
          simp only [State.bitpos, ho, hp, e1, e8]
          omega
        · have hn : s.bytesRem.toNat = (s.bytesRem.toNat - 1) + 1 := by omega
          have hb : s.bcErrored = false := by simpa using hbc
          have e1 : ((0 : Fin 9) + 1).val = 1 := rfl
          have e0 : (0 : Fin 9).val = 0 := rfl
          have e8 : (bitsOf 8 s.curByte.toNat).drop (8 : Fin 9).val = [] := rfl
          have hd := drop_bitsOf v.toNat 0 (by omega)
          rw [List.drop_zero] at hd
          simp only [State.cursorBits, ho, hs, presentedBytes, hv, hb, hp, e1, e0, e8, Bool.false_eq_true, if_false,
            List.nil_append]
          rw [hn, List.take_succ_cons, bytesBits_cons, hd]
          rfl
    · next ho =>
      have hlt := Fin9_lt s.bitOff ho
      obtain ⟨hb1, hb2⟩ := takeBit_spec s hlt
      rw [hb1] at h
      simp only [Read.got.injEq] at h
      obtain ⟨rfl, rfl⟩ := h
      have hb : s.bcErrored = false := by simpa using hbc
      refine ⟨rfl, ?_, ?_, rfl, [], rfl, by simp, rfl⟩
      · simp only [State.bitpos, hb2]; omega
      · simp only [State.cursorBits, hb, hb2]
        rw [drop_bitsOf _ _ hlt]; simp

/-- A failing read of a bit: the cursor's registers stand, no bit was coming, and either the sticky flag or a failing fetch is
the cause (R143). -/
theorem readBit_raised (s t : State) (e : ErrCode) (h : readBit s = .raised e t) :
    t = { s with bcErrored := true, source := t.source } ∧ s.cursorBits = [] ∧ BytesAsked s t ∧
    ((s.bcErrored = true ∧ e = s.errCode ∧ t = s) ∨ (s.bcErrored = false ∧ fetchByte s = .raised e t)) := by
  unfold readBit at h
  split at h
  · next hbc =>
    cases h
    refine ⟨?_, by simp [State.cursorBits, hbc], ⟨[], [], rfl, by simp, by simp, by simp⟩, .inl ⟨hbc, rfl, rfl⟩⟩
    cases s; simp_all
  · next hbc =>
    have hb : s.bcErrored = false := by simpa using hbc
    split at h
    · next ho =>
      cases hf : fetchByte s with
      | got u0 u => rw [hf] at h; simp [Read.bind, takeBit] at h
      | waiting u => rw [hf] at h; cases h
      | raised e' u =>
        rw [hf] at h
        simp only [Read.bind, Read.raised.injEq] at h
        obtain ⟨rfl, rfl⟩ := h
        obtain ⟨ht, hc⟩ := fetchByte_raised s u e' hf
        refine ⟨ht, ?_, fetchByte_raised_asked s u e' hf, .inr ⟨hb, rfl⟩⟩
        simp only [State.cursorBits, hb, ho]
        rcases hc with ⟨h0, -, -⟩ | ⟨-, x, rest, hs, -, ⟨hv, -⟩ | ⟨hv, -⟩⟩
        · simp [h0]
        · simp [hs, presentedBytes, hv]
        · simp [hs, presentedBytes, hv]
    · simp [takeBit] at h

/-- Waiting for a bit: the cursor had none, a byte is due and the source presents nothing (R148). -/
theorem readBit_waiting (s t : State) (h : readBit s = .waiting t) :
    t = s ∧ s.bcErrored = false ∧ s.bitOff = 8 ∧ s.cursorBits = [] ∧ s.source = [] ∧ s.bytesRem ≠ 0 := by
  unfold readBit at h
  split at h
  · cases h
  · next hbc =>
    have hb : s.bcErrored = false := by simpa using hbc
    split at h
    · next ho =>
      cases hf : fetchByte s with
      | got u0 u => rw [hf] at h; simp [Read.bind, takeBit] at h
      | raised e u => rw [hf] at h; cases h
      | waiting u =>
        obtain ⟨hu, hr, hs⟩ := fetchByte_waiting s u hf
        rw [hf] at h
        simp only [Read.bind, Read.waiting.injEq] at h
        refine ⟨by rw [← h, hu], hb, ho, ?_, hs, hr⟩
        simp [State.cursorBits, hb, ho, hs, presentedBytes]
    · simp [takeBit] at h

/-- `CursorMoved` composes. -/
theorem CursorMoved.trans {s t u : State} (h : CursorMoved s t) (h' : CursorMoved t u) : CursorMoved s u := by
  rw [CursorMoved] at *; rw [h', h]

theorem CursorMoved.refl (s : State) : CursorMoved s s := rfl

/-- The next bit of the step in progress: the first of those that were coming. A bit read before costs the cursor nothing, a
new one moves it by one. -/
theorem nextBit_got (s t : State) (b : Bool) (h : nextBit s = .got b t) :
    CursorMoved s t ∧ t.bitpos - t.stepBits.length = s.bitpos - s.stepBits.length + 1 ∧
      s.upcomingBits = b :: t.upcomingBits ∧ t.stepBits = s.stepBits.drop 1 ∧ BytesTaken s t := by
  unfold nextBit at h
  split at h
  · next b' rest hs =>
    simp only [Read.got.injEq] at h
    obtain ⟨rfl, rfl⟩ := h
    have hp : ({ s with stepBits := rest } : State).bitpos = s.bitpos := rfl
    have hc : ({ s with stepBits := rest } : State).cursorBits = s.cursorBits := rfl
    refine ⟨rfl, ?_, by simp [State.upcomingBits, hs, hc], by simp [hs], .refl s⟩
    rw [hp, hs, List.length_cons]; push_cast; omega
  · next hs =>
    obtain ⟨hc, hp, hu, hk, hb⟩ := readBit_got s t b h
    refine ⟨hc, by rw [hp, hk, hs]; omega, by simp [State.upcomingBits, hk, hs, hu], by simp [hk, hs], hb⟩

theorem nextBit_raised (s t : State) (e : ErrCode) (h : nextBit s = .raised e t) :
    s.stepBits = [] ∧ readBit s = .raised e t ∧ s.upcomingBits = [] := by
  unfold nextBit at h
  split at h
  · cases h
  · next hs => exact ⟨hs, h, by simp [State.upcomingBits, hs, (readBit_raised s t e h).2.1]⟩

theorem nextBit_waiting (s t : State) (h : nextBit s = .waiting t) :
    s.stepBits = [] ∧ readBit s = .waiting t ∧ t = s ∧ s.upcomingBits = [] := by
  unfold nextBit at h
  split at h
  · cases h
  · next hs =>
    obtain ⟨ht, -, -, hc, -⟩ := readBit_waiting s t h
    exact ⟨hs, h, ht, by simp [State.upcomingBits, hs, hc]⟩

/-- A walk that ends: the cursor alone moves, the bits the walk took are the first of those that were coming, and the same
walk on those bits ends in the same value (spec/41_code_tables.md R160, R169). -/
theorem runWalk_got {α : Type} (w : Walk α) (s t : State) (a : α) (h : runWalk w s = .got a t) :
    CursorMoved s t ∧ t.bitpos - t.stepBits.length = s.bitpos - s.stepBits.length + (s.bitsReady - t.bitsReady : Nat) ∧
      t.bitsReady ≤ s.bitsReady ∧ w.runBits s.upcomingBits = .ok (a, t.upcomingBits) ∧
      t.stepBits = s.stepBits.drop (s.bitsReady - t.bitsReady) ∧ BytesTaken s t := by
  induction w generalizing s with
  | done x =>
    simp only [runWalk, Read.got.injEq] at h
    obtain ⟨rfl, rfl⟩ := h
    simp [Walk.runBits, BytesTaken.refl]
  | ask g ih =>
    simp only [runWalk] at h
    cases hr : nextBit s with
    | raised e u => rw [hr] at h; cases h
    | waiting u => rw [hr] at h; cases h
    | got b u =>
      rw [hr] at h
      obtain ⟨hc, hp, hu, hs, hk⟩ := nextBit_got s u b hr
      obtain ⟨hc', hp', hl', hw, hs', hk'⟩ := ih b u (remember_got h)
      have hlen : s.bitsReady = u.bitsReady + 1 := by
        rw [← upcomingBits_length, ← upcomingBits_length, hu]; rfl
      refine ⟨hc.trans hc', ?_, by omega, ?_, ?_, hk.trans hk'⟩
      · rw [hp', hp]; omega
      · rw [hu]; exact hw
      · rw [hs', hs, List.drop_drop]; congr 1; omega

/-- A walk the coming bits suffice for ends. -/
theorem runWalk_of_runBits {α : Type} (w : Walk α) (s : State) (a : α) (rest : Bits)
    (h : w.runBits s.upcomingBits = .ok (a, rest)) : ∃ t, runWalk w s = .got a t ∧ t.upcomingBits = rest := by
  induction w generalizing s with
  | done x =>
    simp only [Walk.runBits, Except.ok.injEq, Prod.mk.injEq] at h
    exact ⟨s, by simp [runWalk, h.1], h.2⟩
  | ask g ih =>
    cases hr : nextBit s with
    | got b t =>
      obtain ⟨-, -, hu, -, -⟩ := nextBit_got s t b hr
      rw [hu] at h
      obtain ⟨u, h1, h2⟩ := ih b t h
      exact ⟨u, by simp [runWalk, hr, h1, Read.remember], h2⟩
    | raised e t =>
      obtain ⟨-, -, hu⟩ := nextBit_raised s t e hr
      rw [hu] at h; simp [Walk.runBits] at h
    | waiting t =>
      obtain ⟨-, -, -, hu⟩ := nextBit_waiting s t hr
      rw [hu] at h; simp [Walk.runBits] at h

/-- A walk that raises: the cursor and `bc_errored` alone differ, the coming bits did not suffice, and the error is the one of
the failing read, made in a state `u` with the cursor moved to the end of the coming bits. -/
theorem runWalk_raised {α : Type} (w : Walk α) (s t : State) (e : ErrCode) (h : runWalk w s = .raised e t) :
    ∃ u, CursorMoved s u ∧ s.bitpos ≤ u.bitpos ∧ BytesTaken s u ∧ u.stepBits = [] ∧ readBit u = .raised e t ∧
      w.runBits s.upcomingBits = .error .bitsExhausted := by
  induction w generalizing s with
  | done x => simp [runWalk] at h
  | ask g ih =>
    simp only [runWalk] at h
    cases hr : nextBit s with
    | waiting u => rw [hr] at h; cases h
    | raised e' u =>
      rw [hr] at h
      simp only [Read.raised.injEq] at h
      obtain ⟨rfl, rfl⟩ := h
      obtain ⟨hs, hr', hu⟩ := nextBit_raised s u e' hr
      exact ⟨s, rfl, Int.le_refl _, .refl s, hs, hr', by rw [hu]; rfl⟩
    | got b u =>
      rw [hr] at h
      obtain ⟨hc, hp, hu, hs, hk⟩ := nextBit_got s u b hr
      obtain ⟨v, hv, hle, hk', hs', hraise, hw⟩ := ih b u (remember_raised h)
      have hlen : u.stepBits.length + 1 ≥ s.stepBits.length := by rw [hs]; simp; omega
      exact ⟨v, hc.trans hv, by omega, hk.trans hk', hs', hraise, by rw [hu]; exact hw⟩

/-- A walk that waits (R148): every bit that was coming is read and stands in `stepBits`, every byte that was presented is
consumed, the cursor waits for the next, and the bits read do not suffice for the walk. -/
theorem runWalk_waiting {α : Type} (w : Walk α) (s t : State) (h : runWalk w s = .waiting t) :
    CursorMoved s t ∧ BytesTaken s t ∧ t.stepBits = s.upcomingBits ∧ t.source = [] ∧ t.bitOff = 8 ∧ t.bytesRem ≠ 0 ∧
      t.bcErrored = false ∧ t.cursorBits = [] ∧ w.runBits s.upcomingBits = .error .bitsExhausted := by
  induction w generalizing s t with
  | done x => simp [runWalk] at h
  | ask g ih =>
    simp only [runWalk] at h
    cases hr : nextBit s with
    | raised e u => rw [hr] at h; cases h
    | waiting u =>
      rw [hr] at h
      simp only [Read.waiting.injEq] at h
      subst h
      obtain ⟨hs, hr', ht, hu⟩ := nextBit_waiting s u hr
      subst ht
      obtain ⟨-, hb, ho, hc, hsrc, hrem⟩ := readBit_waiting u u hr'
      exact ⟨rfl, .refl u, by rw [hs, hu], hsrc, ho, hrem, hb, hc, by rw [hu]; rfl⟩
    | got b u =>
      rw [hr] at h
      obtain ⟨v, hv, rfl⟩ := remember_waiting h
      obtain ⟨hc, -, hu, -, hk⟩ := nextBit_got s u b hr
      obtain ⟨h1, h2, h3, h4, h5, h6, h7, h8, h9⟩ := ih b u v hv
      refine ⟨?_, ?_, by rw [h3, hu], h4, h5, h6, h7, h8, by rw [hu]; exact h9⟩
      · have := hc.trans h1
        rw [CursorMoved] at this ⊢; rw [this]
      · exact hk.trans h2

/-- Answers that come behind those a bit's read takes do not matter to it (R320). -/
theorem readBit_append (s t : State) (b : Bool) (late : List SrcXfer) (h : readBit s = .got b t) :
    readBit { s with source := s.source ++ late } = .got b { t with source := t.source ++ late } := by
  unfold readBit at h ⊢
  split at h
  · cases h
  · next hb =>
    rw [if_neg hb]
    split at h
    · next ho =>
      rw [if_pos ho]
      cases hf : fetchByte s with
      | raised e u => rw [hf] at h; cases h
      | waiting u => rw [hf] at h; cases h
      | got a u =>
        rw [hf] at h
        obtain ⟨hr, x, v, rest, hsrc, hx, rfl⟩ := fetchByte_got s u hf
        simp only [Read.bind, takeBit, Read.got.injEq] at h
        obtain ⟨rfl, rfl⟩ := h
        unfold fetchByte
        rw [if_neg hr]
        simp only [hsrc, List.cons_append, hx]
        rfl
    · next ho =>
      rw [if_neg ho]
      simp only [takeBit, Read.got.injEq] at h
      obtain ⟨rfl, rfl⟩ := h
      rfl

/-- The same of the next bit of the step in progress. -/
theorem nextBit_append (s t : State) (b : Bool) (late : List SrcXfer) (h : nextBit s = .got b t) :
    nextBit { s with source := s.source ++ late } = .got b { t with source := t.source ++ late } := by
  unfold nextBit at h
  split at h
  · next b' rest hs =>
    simp only [Read.got.injEq] at h
    obtain ⟨rfl, rfl⟩ := h
    simp only [nextBit, hs]
  · next hs =>
    have hr := readBit_append s t b late h
    unfold nextBit
    split
    · next hs' => rw [hs] at hs'; cases hs'
    · exact hr

/-- A walk that waited goes on, once answers come, as it would have gone with those answers in the source from the start (R148,
R255). -/
theorem runWalk_late {α : Type} (w : Walk α) (s t : State) (late : List SrcXfer) (h : runWalk w s = .waiting t) :
    runWalk w { t with source := late } = runWalk w { s with source := s.source ++ late } := by
  induction w generalizing s t with
  | done x => simp [runWalk] at h
  | ask g ih =>
    simp only [runWalk] at h
    cases hr : nextBit s with
    | raised e u => rw [hr] at h; cases h
    | waiting u =>
      rw [hr] at h
      simp only [Read.waiting.injEq] at h
      subst h
      obtain ⟨-, hr', rfl, -⟩ := nextBit_waiting s u hr
      obtain ⟨-, -, -, -, hsrc, -⟩ := readBit_waiting u u hr'
      simp [hsrc]
    | got b u =>
      rw [hr] at h
      obtain ⟨v, hv, rfl⟩ := remember_waiting h
      have h1 : nextBit { v with stepBits := b :: v.stepBits, source := late } = .got b { v with source := late } := rfl
      simp only [runWalk, h1, nextBit_append s u b late hr, ih b u v hv]

/-- `readBits(n)` with `n` bits ready: they are taken little-endian, those read before from `stepBits`, the others from the
cursor (R144). -/
theorem readBits_ready (n : Nat) (s : State) (h : n ≤ s.bitsReady) :
    ∃ t, readBits n s = .got (bitsVal (s.upcomingBits.take n)) t ∧ CursorMoved s t ∧ t.bitpos = s.bitpos + s.unread n ∧
      t.upcomingBits = s.upcomingBits.drop n ∧ t.stepBits = s.stepBits.drop n ∧
      t.cursorBits = s.cursorBits.drop (s.unread n) ∧ t.bitsReady = s.bitsReady - n ∧ BytesTaken s t := by
  have hl : n ≤ s.upcomingBits.length := by rw [upcomingBits_length]; exact h
  obtain ⟨t, ht, hu⟩ := runWalk_of_runBits _ s _ _ (Walk.runBits_readBits n s.upcomingBits hl)
  obtain ⟨hc, hp, hle, -, hs, hk⟩ := runWalk_got _ s t _ ht
  have hready : t.bitsReady = s.bitsReady - n := by
    rw [← upcomingBits_length, ← upcomingBits_length, hu, List.length_drop]
  have hn : s.bitsReady - t.bitsReady = n := by omega
  rw [hn] at hp hs
  refine ⟨t, ht, hc, ?_, hu, hs, ?_, hready, hk⟩
  · have hlen : t.stepBits.length = s.stepBits.length - n := by rw [hs, List.length_drop]
    simp only [State.unread]; omega
  · have h1 : t.stepBits ++ t.cursorBits = s.stepBits.drop n ++ s.cursorBits.drop (s.unread n) := by
      rw [State.unread, ← List.drop_append]; exact hu
    rw [hs] at h1
    exact List.append_cancel_left h1

/-- `readBits(n)` returning: exactly `n` of the ready bits are gone. -/
theorem readBits_got (n : Nat) (s t : State) (v : Nat) (h : readBits n s = .got v t) :
    n ≤ s.bitsReady ∧ v = bitsVal (s.upcomingBits.take n) ∧ CursorMoved s t ∧ t.bitpos = s.bitpos + s.unread n ∧
      t.upcomingBits = s.upcomingBits.drop n ∧ t.stepBits = s.stepBits.drop n ∧
      t.cursorBits = s.cursorBits.drop (s.unread n) ∧ t.bitsReady = s.bitsReady - n ∧ BytesTaken s t := by
  have hn : n ≤ s.bitsReady := by
    by_contra hlt
    obtain ⟨-, -, -, hw, -⟩ := runWalk_got _ s t v h
    rw [Walk.runBits_readBits_short n _ (by rw [upcomingBits_length]; omega)] at hw
    cases hw
  obtain ⟨u, hu, hrest⟩ := readBits_ready n s hn
  rw [h] at hu
  simp only [Read.got.injEq] at hu
  obtain ⟨rfl, rfl⟩ := hu
  exact ⟨hn, rfl, hrest⟩

end Sys2Proof.Machine
end

