-- ==== Sys2Proof/Laws/Memory.lean ====
section
/-! SUPPORT. The laws of the dictionary memory: read after write, the canonical form, and that canonical memories which read
alike are equal. -/

namespace Sys2Proof.Machine

@[simp] theorem Memory.lookup_nil (a : Nat) : Memory.lookup [] a = none := rfl

/-- Read after write at the same address gives the byte written. -/
@[simp] theorem Memory.lookup_store_same (m : Memory) (a : Nat) (b : Byte) :
    Memory.lookup (Memory.store m a b) a = some b := by
  induction m with
  | nil => simp [Memory.store, Memory.lookup]
  | cons c rest ih =>
    obtain ⟨k, v⟩ := c
    simp only [Memory.store]
    split
    · simp [Memory.lookup]
    · split
      · simp [Memory.lookup]
      · next h => simp [Memory.lookup, ih, Ne.symm h]

/-- A write leaves every other address alone. -/
theorem Memory.lookup_store_other (m : Memory) (a x : Nat) (b : Byte) (h : x ≠ a) :
    Memory.lookup (Memory.store m a b) x = Memory.lookup m x := by
  induction m with
  | nil => simp [Memory.store, Memory.lookup, h.symm]
  | cons c rest ih =>
    obtain ⟨k, v⟩ := c
    simp only [Memory.store]
    split
    · simp [Memory.lookup, h.symm]
    · split
      · next hk => subst hk; simp [Memory.lookup, h.symm]
      · simp [Memory.lookup, ih]

/-- Below its bound, a rising memory lists nothing. -/
theorem Memory.lookup_of_risingFrom (m : Memory) (lo a : Nat) (h : Memory.risingFrom lo m = true) (ha : a < lo) :
    Memory.lookup m a = none := by
  induction m generalizing lo with
  | nil => rfl
  | cons c rest ih =>
    obtain ⟨k, v⟩ := c
    simp only [Memory.risingFrom, Bool.and_eq_true, decide_eq_true_eq] at h
    have hk : k ≠ a := by omega
    simpa [Memory.lookup, hk] using ih (k + 1) h.2 (by omega)

/-- A write at or above the bound keeps the addresses rising. -/
theorem Memory.risingFrom_store (m : Memory) (lo a : Nat) (b : Byte) (h : Memory.risingFrom lo m = true) (ha : lo ≤ a) :
    Memory.risingFrom lo (Memory.store m a b) = true := by
  induction m generalizing lo with
  | nil => simp [Memory.store, Memory.risingFrom, ha]
  | cons c rest ih =>
    obtain ⟨k, v⟩ := c
    simp only [Memory.risingFrom, Bool.and_eq_true, decide_eq_true_eq] at h
    simp only [Memory.store]
    split
    · next hlt => simp [Memory.risingFrom, ha, h.2, Nat.succ_le_of_lt hlt]
    · split
      · next he => subst he; simp [Memory.risingFrom, ha, h.2]
      · next hlt he => simp [Memory.risingFrom, h.1, ih (k + 1) h.2 (by omega)]

/-- A write inside the RAM keeps all addresses inside it. -/
theorem Memory.all_store (m : Memory) (a : Nat) (b : Byte) (p : Nat → Bool) (h : m.all (fun c => p c.1) = true)
    (ha : p a = true) : (Memory.store m a b).all (fun c => p c.1) = true := by
  induction m with
  | nil => simp [Memory.store, ha]
  | cons c rest ih =>
    obtain ⟨k, v⟩ := c
    simp only [List.all_cons, Bool.and_eq_true] at h
    simp only [Memory.store]
    split
    · simp [ha, h.1, h.2]
    · split
      · simp [ha, h.2]
      · simp [h.1, ih h.2]

/-- Every write keeps the canonical form. -/
theorem Memory.wf_store (m : Memory) (a : Nat) (b : Byte) (h : Memory.wf m = true) (ha : a < Config.ramSize) :
    Memory.wf (Memory.store m a b) = true := by
  simp only [Memory.wf, Bool.and_eq_true] at h ⊢
  exact ⟨Memory.risingFrom_store m 0 a b h.1 (Nat.zero_le a),
    Memory.all_store m a b (fun x => decide (x < Config.ramSize)) h.2 (by simpa using ha)⟩

/-- Rising memories that read alike are the same data. -/
theorem Memory.eq_of_lookup_eq (m m' : Memory) (lo : Nat) (h : Memory.risingFrom lo m = true)
    (h' : Memory.risingFrom lo m' = true) (he : ∀ a, Memory.lookup m a = Memory.lookup m' a) : m = m' := by
  induction m generalizing m' lo with
  | nil =>
    cases m' with
    | nil => rfl
    | cons c rest => simpa [Memory.lookup] using he c.1
  | cons c rest ih =>
    obtain ⟨k, v⟩ := c
    cases m' with
    | nil => simpa [Memory.lookup] using he k
    | cons c' rest' =>
      obtain ⟨k', v'⟩ := c'
      simp only [Memory.risingFrom, Bool.and_eq_true, decide_eq_true_eq] at h h'
      have hk : k = k' := by
        rcases Nat.lt_trichotomy k k' with hlt | heq | hgt
        · have e := he k
          rw [Memory.lookup, if_pos rfl, Memory.lookup, if_neg (by omega),
            Memory.lookup_of_risingFrom rest' (k' + 1) k h'.2 (by omega)] at e
          cases e
        · exact heq
        · have e := he k'
          rw [Memory.lookup, if_neg (by omega), Memory.lookup_of_risingFrom rest (k + 1) k' h.2 (by omega),
            Memory.lookup, if_pos rfl] at e
          cases e
      subst hk
      have hv : v = v' := by simpa [Memory.lookup] using he k
      subst hv
      have hr : rest = rest' := ih rest' (k + 1) h.2 h'.2 fun a => by
        by_cases ha : a < k + 1
        · rw [Memory.lookup_of_risingFrom rest _ a h.2 ha, Memory.lookup_of_risingFrom rest' _ a h'.2 ha]
        · have hne : k ≠ a := by omega
          simpa [Memory.lookup, hne] using he a
      rw [hr]

/-- Equal memories are equal data: canonical memories that read alike are the same list. -/
theorem Memory.ext_of_wf (m m' : Memory) (h : Memory.wf m = true) (h' : Memory.wf m' = true)
    (he : ∀ a, Memory.lookup m a = Memory.lookup m' a) : m = m' := by
  simp only [Memory.wf, Bool.and_eq_true] at h h'
  exact Memory.eq_of_lookup_eq m m' 0 h.1 h'.1 he

/-- The memory after reset has the canonical form. -/
theorem Memory.wf_reset : Memory.wf State.reset.dict = true := rfl

end Sys2Proof.Machine
end

