-- ==== Sys2Proof/Laws/Ops.lean ====
section
/-! SUPPORT. What each shared operation can do, said once: the end of a step's reads, the field reads, put, get, raise. -/

namespace Sys2Proof.Machine

/-! ## The end of a step's reads -/

/-- `t` is `s` after a step's reads of `n` bits: the cursor is on by those of them the step had not read before it came to
wait, nothing of the step is left to read, the table results may be new, nothing else changed. -/
structure AfterBits (n : Nat) (s t : State) : Prop where
  enough : n ≤ s.bitsReady
  bitpos : t.bitpos = s.bitpos + s.unread n
  cursor : t.cursorBits = s.cursorBits.drop (s.unread n)
  taken : BytesTaken s t
  frame : t = { s with
    curByte := t.curByte, bitOff := t.bitOff, bytesRem := t.bytesRem, source := t.source, stepBits := []
    lenVal := t.lenVal, highVal := t.highVal }

/-- A step whose bits run out: nothing but the cursor, `bc_errored` and the step in progress differ from the state before. -/
structure FailedRead (s t : State) : Prop where
  flag : t.bcErrored = true
  mono : s.bitpos ≤ t.bitpos
  asked : BytesAsked s t
  frame : t = { s with
    curByte := t.curByte, bitOff := t.bitOff, bytesRem := t.bytesRem, source := t.source, stepBits := []
    bcErrored := t.bcErrored }

/-- A step that waits for the source (R148): every byte presented is consumed, the bits read stand in `stepBits`, the cursor is
at the `SrcNext()` that waits, nothing else changed. -/
structure Waits (s t : State) : Prop where
  frame : CursorMoved s t
  taken : BytesTaken s t
  source : t.source = []
  due : t.bytesRem ≠ 0
  byteEnd : t.bitOff = 8
  cursor : t.cursorBits = []
  bits : t.stepBits = s.upcomingBits

/-- What `settle` can answer: the step goes on, it raises, or it waits (R148). -/
theorem settle_next {α : Type} (t : State) (r : Read α) (go : α → State → Outcome) (h : settle r go = .next t) :
    (∃ a u, r = .got a u ∧ go a { u with stepBits := [] } = .next t) ∨
      (∃ e u, r = .raised e u ∧ t = emit (.err e) { u with stepBits := [], errCode := e, state := .errored }) ∨
      r = .waiting t := by
  cases r with
  | got a u => exact .inl ⟨a, u, rfl, h⟩
  | raised e u =>
    simp only [settle, raise, Host.Outcome.next.injEq] at h
    exact .inr (.inl ⟨e, u, rfl, h.symm⟩)
  | waiting u =>
    simp only [settle, Host.Outcome.next.injEq] at h
    exact .inr (.inr (by rw [h]))

/-! ## Reads of fields -/

theorem readBits_afterBits (n : Nat) (s t : State) (v : Nat) (h : readBits n s = .got v t) :
    AfterBits n s { t with stepBits := [] } ∧ t.lenVal = s.lenVal ∧ t.highVal = s.highVal := by
  obtain ⟨h1, -, h2, h3, -, -, h5, -, h6⟩ := readBits_got n s t v h
  have e1 : t.lenVal = s.lenVal := by rw [h2]
  have e2 : t.highVal = s.highVal := by rw [h2]
  refine ⟨⟨h1, h3, h5, h6, ?_⟩, e1, e2⟩
  rw [h2]

theorem runWalk_failed {α : Type} (w : Walk α) (s t : State) (e : ErrCode) (h : runWalk w s = .raised e t) :
    FailedRead s { t with stepBits := [] } := by
  obtain ⟨u, hc, hp, hk, -, hr, -⟩ := runWalk_raised w s t e h
  obtain ⟨ht, -, hask, hcause⟩ := readBit_raised u t e hr
  refine ⟨?_, ?_, hk.asked hask, ?_⟩
  · show t.bcErrored = true
    rw [ht]
  · have : ({ t with stepBits := [] } : State).bitpos = u.bitpos := by rw [ht]; rfl
    omega
  · rw [ht, hc]

theorem runWalk_waits {α : Type} (w : Walk α) (s t : State) (h : runWalk w s = .waiting t) : Waits s t := by
  obtain ⟨h1, h2, h3, h4, h5, h6, -, h8, -⟩ := runWalk_waiting w s t h
  exact ⟨h1, h2, h4, h6, h5, h8, h3⟩

/-- A length field read: `lenVal` holds its length (R161). -/
theorem lookupLength_cases (n len : Nat) (s : State) :
    (∃ t, lookupLength n len s = .got () t ∧ AfterBits n s { t with stepBits := [] } ∧ t.lenVal = BitVec.ofNat 10 len ∧
        t.highVal = s.highVal) ∨
      (∃ e t, lookupLength n len s = .raised e t ∧ FailedRead s { t with stepBits := [] }) ∨
      ∃ t, lookupLength n len s = .waiting t ∧ Waits s t := by
  unfold lookupLength
  cases hr : readBits n s with
  | got v u =>
    obtain ⟨a1, -, a5, a2, -, -, a3, -, a4⟩ := readBits_got n s u v hr
    exact .inl ⟨_, rfl, ⟨a1, a2, a3, a4, by rw [a5]⟩, rfl, by rw [a5]⟩
  | raised e u => exact .inr (.inl ⟨e, u, rfl, runWalk_failed _ _ _ _ hr⟩)
  | waiting u => exact .inr (.inr ⟨u, rfl, runWalk_waits _ _ _ hr⟩)

/-- An offset-high code word read: `highVal` holds its value (R164). -/
theorem lookupOffsetHigh_cases (n high : Nat) (s : State) :
    (∃ t, lookupOffsetHigh n high s = .got () t ∧ AfterBits n s { t with stepBits := [] } ∧
        t.highVal = BitVec.ofNat 6 high ∧ t.lenVal = s.lenVal) ∨
      (∃ e t, lookupOffsetHigh n high s = .raised e t ∧ FailedRead s { t with stepBits := [] }) ∨
      ∃ t, lookupOffsetHigh n high s = .waiting t ∧ Waits s t := by
  unfold lookupOffsetHigh
  cases hr : readBits n s with
  | got v u =>
    obtain ⟨a1, -, a5, a2, -, -, a3, -, a4⟩ := readBits_got n s u v hr
    exact .inl ⟨_, rfl, ⟨a1, a2, a3, a4, by rw [a5]⟩, rfl, by rw [a5]⟩
  | raised e u => exact .inr (.inl ⟨e, u, rfl, runWalk_failed _ _ _ _ hr⟩)
  | waiting u => exact .inr (.inr ⟨u, rfl, runWalk_waits _ _ _ hr⟩)

/-- The fields of a `COPY` read: length and high part stand in the table results (R95, R221). -/
theorem readCopyFields_cases (len off : Nat) (s : State) :
    (∃ t, readCopyFields len off s = .got () t ∧
        AfterBits (copyFieldBits s.dictBits len off) s { t with stepBits := [] } ∧ t.lenVal = BitVec.ofNat 10 len ∧
        t.highVal = BitVec.ofNat 6 (off >>> lowBits s.dictBits len)) ∨
      (∃ e t, readCopyFields len off s = .raised e t ∧ FailedRead s { t with stepBits := [] }) ∨
      ∃ t, readCopyFields len off s = .waiting t ∧ Waits s t := by
  unfold readCopyFields
  cases hr : readBits (copyFieldBits s.dictBits len off) s with
  | got v u =>
    obtain ⟨a1, -, a5, a2, -, -, a3, -, a4⟩ := readBits_got _ s u v hr
    exact .inl ⟨_, rfl, ⟨a1, a2, a3, a4, by rw [a5]⟩, rfl, rfl⟩
  | raised e u => exact .inr (.inl ⟨e, u, rfl, runWalk_failed _ _ _ _ hr⟩)
  | waiting u => exact .inr (.inr ⟨u, rfl, runWalk_waits _ _ _ hr⟩)

theorem lookupLength_ready (n len : Nat) (s : State) (h : n ≤ s.bitsReady) : ∃ t, lookupLength n len s = .got () t := by
  obtain ⟨t, ht, -⟩ := readBits_ready n s h
  exact ⟨_, by unfold lookupLength; rw [ht]; rfl⟩

theorem lookupOffsetHigh_ready (n high : Nat) (s : State) (h : n ≤ s.bitsReady) :
    ∃ t, lookupOffsetHigh n high s = .got () t := by
  obtain ⟨t, ht, -⟩ := readBits_ready n s h
  exact ⟨_, by unfold lookupOffsetHigh; rw [ht]; rfl⟩

/-- With a `COPY` token's bits ready, its fields are read. -/
theorem readCopyFields_ready (len off : Nat) (s : State) (h : copyFieldBits s.dictBits len off ≤ s.bitsReady) :
    ∃ t, readCopyFields len off s = .got () t := by
  obtain ⟨t, ht, -⟩ := readBits_ready _ s h
  exact ⟨_, by unfold readCopyFields; rw [ht]; rfl⟩

/-- Raising after a failed read is `ErrorRaised` (R283). -/
theorem FailedRead.errorRaised {s u : State} (e : ErrCode) (h : FailedRead s u) :
    ErrorRaised s (emit (.err e) { u with errCode := e, state := .errored }) := by
  have hf := h.frame
  simp only [ErrorRaised, emit]
  rw [hf]

/-! ## The dictionary -/

/-- `put(b)` (R191): `first` advances by one modulo the capacity, that slot takes the byte, nothing else changes. -/
theorem put_ok (b : Byte) (s t : State) (h : put b s = .ok t) :
    putIndex s < Config.ramSize ∧ t.first.toNat = putIndex s ∧ t.slot (putIndex s) = b ∧
      (∀ a, a ≠ putIndex s → t.slot a = s.slot a) ∧
      t = { s with first := t.first, dict := Memory.store s.dict (putIndex s) b } := by
  unfold put at h
  split at h
  · next hlt =>
    cases h
    have hmod : (BitVec.ofNat 12 (putIndex s)).toNat = putIndex s := by
      rw [BitVec.toNat_ofNat]; exact Nat.mod_eq_of_lt hlt
    refine ⟨hlt, hmod, ?_, ?_, rfl⟩
    · simp [State.slot]
    · intro a ha
      simp [State.slot, Memory.lookup_store_other _ _ _ _ ha]
  · cases h

theorem capacity_pos (db : BitVec 3) : 0 < capacity db := Nat.two_pow_pos _

/-- For `dict_bits` up to 6 the capacity fits the RAM, so no index leaves it (R64). -/
theorem capacity_le (db : BitVec 3) (h : db ≠ 7) : capacity db ≤ Config.ramSize := by
  revert h; revert db; decide

theorem putIndex_lt (s : State) (h : s.dictBits ≠ 7) : putIndex s < Config.ramSize :=
  Nat.lt_of_lt_of_le (Nat.mod_lt _ (capacity_pos _)) (capacity_le _ h)

theorem getIndex_lt (s : State) (off : BitVec 12) (h : s.dictBits ≠ 7) : getIndex s off < Config.ramSize :=
  Nat.lt_of_lt_of_le (Nat.mod_lt _ (capacity_pos _)) (capacity_le _ h)

/-- `put(b)` and `emit Byte(b)`: whatever it answers is this (R191, R220). -/
theorem putEmit_next (b : Byte) (s t : State) (h : putEmit b s = .next t) :
    putIndex s < Config.ramSize ∧ t.first.toNat = putIndex s ∧ t.slot (putIndex s) = b ∧
      (∀ a, a ≠ putIndex s → t.slot a = s.slot a) ∧
      t = { s with
        first := t.first, dict := Memory.store s.dict (putIndex s) b
        outHold := some (.byte b), out := s.out ++ [b] } := by
  unfold putEmit at h
  cases hp : put b s with
  | error f => rw [hp] at h; cases h
  | ok u =>
    rw [hp] at h
    simp only [Host.Outcome.next.injEq] at h
    subst h
    obtain ⟨h1, h2, h3, h4, h5⟩ := put_ok b s u hp
    refine ⟨h1, h2, h3, h4, ?_⟩
    simp only [emit]
    rw [h5]

theorem putEmit_of_lt (b : Byte) (s : State) (h : putIndex s < Config.ramSize) : ∃ t, putEmit b s = .next t := by
  unfold putEmit put; rw [if_pos h]; exact ⟨_, rfl⟩

/-- `get(off)` and `emit Byte(v)` is `putEmit` of the byte at the load address (R192). -/
theorem getEmit_eq (off : BitVec 12) (s : State) (h : getIndex s off < Config.ramSize) :
    getEmit off s = putEmit (s.slot (getIndex s off)) s := by
  unfold getEmit get
  rw [if_pos h]
  unfold putEmit
  cases put (s.slot (getIndex s off)) s <;> rfl

/-- `getEmit` answers a next state only with the load address inside the RAM. -/
theorem getEmit_next (off : BitVec 12) (s t : State) (h : getEmit off s = .next t) :
    getIndex s off < Config.ramSize ∧ putEmit (s.slot (getIndex s off)) s = .next t := by
  by_cases hlt : getIndex s off < Config.ramSize
  · exact ⟨hlt, by rw [← getEmit_eq off s hlt]; exact h⟩
  · unfold getEmit get at h
    rw [if_neg hlt] at h
    cases h

/-! ## The decoded offset -/

/-- `(high << nlow) | low` of an offset's own parts is the offset (R110). -/
theorem assembleOffset_parts (off n : Nat) : assembleOffset (off >>> n) n (off % 2 ^ n) = off := by
  unfold assembleOffset
  apply Nat.eq_of_testBit_eq
  intro i
  simp only [Nat.testBit_or, Nat.testBit_shiftLeft, Nat.testBit_shiftRight, Nat.testBit_mod_two_pow]
  by_cases h : i < n
  · simp [h]
  · have hn : n ≤ i := by omega
    simp [h, hn]

end Sys2Proof.Machine
end

