-- ==== Sys2Proof/Laws/PerInstr.lean ====
section
/-! SUPPORT. Statements made for every instruction, one lemma per constructor: the size of its encoding. -/

namespace Sys2Proof.Laws.EncodedSize

open Sys2Proof Sys2Proof.Machine

/-- The size in bits of each row (spec/30_encoding.md R91, R94, R95, R96, R98, R100, R104; the bits consumed, by result, of
spec/41_code_tables.md R162, R165). A `COPY` is its flag, length field, offset code word and raw low bits. -/
def size (db : BitVec 3) : Instr → Nat
  | .hdr _ _ => 16
  | .lit _ => 9
  | .copy len off =>
    1 + lengthConsumed len.toNat + highConsumed (off.toNat >>> lowBits db len.toNat) + lowBits db len.toNat
  | .eos => 16
  | .len0 => 2
  | .len1 => 3
  | .len2 => 3
  | .len3 => 3
  | .len4 => 4
  | .len5 => 4
  | .len6 => 4
  | .len7 => 5
  | .len8 _ => 6
  | .len9 _ => 7
  | .len10 _ => 8
  | .len11 _ => 10
  | .len12 _ => 11
  | .len13 _ => 12
  | .len14 _ => 14
  | .len15 _ => 15
  | .dist0 => 2
  | .dist1 => 4
  | .dist2 => 4
  | .dist3 => 5
  | .dist4 => 5
  | .dist5 => 5
  | .dist6 => 5
  | .dist7 => 6
  | .dist8 => 6
  | .dist9 => 6
  | .dist10 => 6
  | .dist11 => 6
  | .dist12 => 6
  | .dist13 => 6
  | .dist14 => 6
  | .dist15 => 6
  | .dist16 => 6
  | .dist17 => 6
  | .dist18 => 6
  | .dist19 => 6
  | .dist20 => 6
  | .dist21 => 6
  | .dist22 => 7
  | .dist23 => 7
  | .dist24 => 7
  | .dist25 => 7
  | .dist26 => 7
  | .dist27 => 7
  | .dist28 => 7
  | .dist29 => 7
  | .dist30 => 7
  | .dist31 => 7
  | .dist32 => 7
  | .dist33 => 7
  | .dist34 => 7
  | .dist35 => 7
  | .dist36 => 7
  | .dist37 => 7
  | .dist38 => 7
  | .dist39 => 7
  | .dist40 => 7
  | .dist41 => 7
  | .dist42 => 7
  | .dist43 => 7
  | .dist44 => 7
  | .dist45 => 7
  | .dist46 => 7
  | .dist47 => 7
  | .dist48 => 8
  | .dist49 => 8
  | .dist50 => 8
  | .dist51 => 8
  | .dist52 => 8
  | .dist53 => 8
  | .dist54 => 8
  | .dist55 => 8
  | .dist56 => 8
  | .dist57 => 8
  | .dist58 => 8
  | .dist59 => 8
  | .dist60 => 8
  | .dist61 => 8
  | .dist62 => 8
  | .dist63 => 8

/-- A legal instruction's encoding has the size of its row. -/
def Statement (i : Instr) : Prop := ∀ db : BitVec 3, i.wf db = true → (encode db i).length = size db i

/-- The length field has the bits R162 lists for its result. -/
theorem encodeLength_length (len : Nat) (h : 2 ≤ len) (h' : len ≤ 519) : (encodeLength len).length = lengthConsumed len := by
  have key : (List.range 520).all (fun n => decide (n < 2) || (encodeLength n).length == lengthConsumed n) = true := by
    decide +kernel
  have := List.all_eq_true.mp key len (List.mem_range.mpr (by omega))
  simpa [show ¬ len < 2 by omega] using this

/-- The offset code word has the bits R165 lists for its result. -/
theorem encodeOffsetHigh_length (high : Nat) (h : high < 64) : (encodeOffsetHigh high).length = highConsumed high := by
  have key : ∀ n : Fin 64, (encodeOffsetHigh n.val).length = highConsumed n.val := by decide
  exact key ⟨high, h⟩

/-- The high part of a legal `COPY`'s offset is one of 0..63. -/
theorem high_lt (db : BitVec 3) (len : BitVec 10) (off : BitVec 12) (h : (Instr.copy len off).wf db = true) :
    off.toNat >>> lowBits db len.toNat < 64 := by
  simp only [Instr.wf, Bool.and_eq_true] at h
  obtain ⟨_, h⟩ := h
  rw [Nat.shiftRight_eq_div_pow, lowBits]
  split at h
  · rw [if_pos ‹_›]; simp at h; omega
  · rw [if_neg ‹_›]
    exact Nat.div_lt_of_lt_mul (by simpa [Nat.mul_comm] using h)

theorem hdr (m c : Byte) : Statement (.hdr m c) := fun db _ => by simp [encode, size]

theorem lit (b : Byte) : Statement (.lit b) := fun db _ => by simp [encode, size]

theorem copy (len : BitVec 10) (off : BitVec 12) : Statement (.copy len off) := fun db h => by
  have h' := h
  simp only [Instr.wf, Bool.and_eq_true, decide_eq_true_eq] at h'
  simp only [encode, size, List.length_cons, List.length_append, bitsOf_length,
    encodeLength_length len.toNat (by omega) (by omega), encodeOffsetHigh_length _ (high_lt db len off h)]
  omega

theorem eos : Statement .eos := fun _ _ => rfl

theorem len0 : Statement .len0 := fun _ _ => rfl
theorem len1 : Statement .len1 := fun _ _ => rfl
theorem len2 : Statement .len2 := fun _ _ => rfl
theorem len3 : Statement .len3 := fun _ _ => rfl
theorem len4 : Statement .len4 := fun _ _ => rfl
theorem len5 : Statement .len5 := fun _ _ => rfl
theorem len6 : Statement .len6 := fun _ _ => rfl
theorem len7 : Statement .len7 := fun _ _ => rfl
theorem len8 (e : BitVec 1) : Statement (.len8 e) := fun _ _ => rfl
theorem len9 (e : BitVec 2) : Statement (.len9 e) := fun _ _ => rfl
theorem len10 (e : BitVec 3) : Statement (.len10 e) := fun _ _ => rfl
theorem len11 (e : BitVec 4) : Statement (.len11 e) := fun _ _ => rfl
theorem len12 (e : BitVec 5) : Statement (.len12 e) := fun _ _ => rfl
theorem len13 (e : BitVec 6) : Statement (.len13 e) := fun _ _ => rfl
theorem len14 (e : BitVec 7) : Statement (.len14 e) := fun _ _ => rfl
theorem len15 (e : BitVec 8) : Statement (.len15 e) := fun _ _ => rfl
theorem dist0 : Statement .dist0 := fun _ _ => rfl
theorem dist1 : Statement .dist1 := fun _ _ => rfl
theorem dist2 : Statement .dist2 := fun _ _ => rfl
theorem dist3 : Statement .dist3 := fun _ _ => rfl
theorem dist4 : Statement .dist4 := fun _ _ => rfl
theorem dist5 : Statement .dist5 := fun _ _ => rfl
theorem dist6 : Statement .dist6 := fun _ _ => rfl
theorem dist7 : Statement .dist7 := fun _ _ => rfl
theorem dist8 : Statement .dist8 := fun _ _ => rfl
theorem dist9 : Statement .dist9 := fun _ _ => rfl
theorem dist10 : Statement .dist10 := fun _ _ => rfl
theorem dist11 : Statement .dist11 := fun _ _ => rfl
theorem dist12 : Statement .dist12 := fun _ _ => rfl
theorem dist13 : Statement .dist13 := fun _ _ => rfl
theorem dist14 : Statement .dist14 := fun _ _ => rfl
theorem dist15 : Statement .dist15 := fun _ _ => rfl
theorem dist16 : Statement .dist16 := fun _ _ => rfl
theorem dist17 : Statement .dist17 := fun _ _ => rfl
theorem dist18 : Statement .dist18 := fun _ _ => rfl
theorem dist19 : Statement .dist19 := fun _ _ => rfl
theorem dist20 : Statement .dist20 := fun _ _ => rfl
theorem dist21 : Statement .dist21 := fun _ _ => rfl
theorem dist22 : Statement .dist22 := fun _ _ => rfl
theorem dist23 : Statement .dist23 := fun _ _ => rfl
theorem dist24 : Statement .dist24 := fun _ _ => rfl
theorem dist25 : Statement .dist25 := fun _ _ => rfl
theorem dist26 : Statement .dist26 := fun _ _ => rfl
theorem dist27 : Statement .dist27 := fun _ _ => rfl
theorem dist28 : Statement .dist28 := fun _ _ => rfl
theorem dist29 : Statement .dist29 := fun _ _ => rfl
theorem dist30 : Statement .dist30 := fun _ _ => rfl
theorem dist31 : Statement .dist31 := fun _ _ => rfl
theorem dist32 : Statement .dist32 := fun _ _ => rfl
theorem dist33 : Statement .dist33 := fun _ _ => rfl
theorem dist34 : Statement .dist34 := fun _ _ => rfl
theorem dist35 : Statement .dist35 := fun _ _ => rfl
theorem dist36 : Statement .dist36 := fun _ _ => rfl
theorem dist37 : Statement .dist37 := fun _ _ => rfl
theorem dist38 : Statement .dist38 := fun _ _ => rfl
theorem dist39 : Statement .dist39 := fun _ _ => rfl
theorem dist40 : Statement .dist40 := fun _ _ => rfl
theorem dist41 : Statement .dist41 := fun _ _ => rfl
theorem dist42 : Statement .dist42 := fun _ _ => rfl
theorem dist43 : Statement .dist43 := fun _ _ => rfl
theorem dist44 : Statement .dist44 := fun _ _ => rfl
theorem dist45 : Statement .dist45 := fun _ _ => rfl
theorem dist46 : Statement .dist46 := fun _ _ => rfl
theorem dist47 : Statement .dist47 := fun _ _ => rfl
theorem dist48 : Statement .dist48 := fun _ _ => rfl
theorem dist49 : Statement .dist49 := fun _ _ => rfl
theorem dist50 : Statement .dist50 := fun _ _ => rfl
theorem dist51 : Statement .dist51 := fun _ _ => rfl
theorem dist52 : Statement .dist52 := fun _ _ => rfl
theorem dist53 : Statement .dist53 := fun _ _ => rfl
theorem dist54 : Statement .dist54 := fun _ _ => rfl
theorem dist55 : Statement .dist55 := fun _ _ => rfl
theorem dist56 : Statement .dist56 := fun _ _ => rfl
theorem dist57 : Statement .dist57 := fun _ _ => rfl
theorem dist58 : Statement .dist58 := fun _ _ => rfl
theorem dist59 : Statement .dist59 := fun _ _ => rfl
theorem dist60 : Statement .dist60 := fun _ _ => rfl
theorem dist61 : Statement .dist61 := fun _ _ => rfl
theorem dist62 : Statement .dist62 := fun _ _ => rfl
theorem dist63 : Statement .dist63 := fun _ _ => rfl

end Sys2Proof.Laws.EncodedSize
end

