-- ==== Sys2Proof/Laws/Tokens.lean ====
section
/-! SUPPORT. One inversion lemma for each meaning: whatever it answers is one of the cases listed. Later proofs cite these and
unfold no meaning. -/

namespace Sys2Proof.Machine

/-- The state of a step that raises `e` after a failed read that left `u` (R283). -/
abbrev raisedState (e : ErrCode) (u : State) : State := emit (.err e) { u with errCode := e, state := .errored }

theorem execLit_next (b : Byte) (s t : State) (h : execLit b s = .next t) :
    (∃ u, AfterBits 9 s u ∧ u.lenVal = s.lenVal ∧ u.highVal = s.highVal ∧ putEmit b u = .next t) ∨
      (∃ e u, FailedRead s u ∧ t = raisedState e u) ∨ Waits s t := by
  rcases settle_next _ _ _ h with ⟨a, u, hr, hg⟩ | ⟨e, u, hr, ht⟩ | hr
  · obtain ⟨h1, h2, h3⟩ := readBits_afterBits _ _ _ _ hr
    exact .inl ⟨_, h1, h2, h3, hg⟩
  · exact .inr (.inl ⟨e, _, runWalk_failed _ _ _ _ hr, ht⟩)
  · exact .inr (.inr (runWalk_waits _ _ _ hr))

theorem copyStart_next (off : BitVec 12) (s t : State) (h : copyStart off s = .next t) :
    ∃ u, u = { s with copyOff := off, copyRem := s.lenVal - 1, mode := .copying } ∧
      putEmit (s.slot (getIndex s off)) u = .next t := by
  obtain ⟨-, h2⟩ := getEmit_next _ _ _ h
  exact ⟨_, rfl, h2⟩

theorem execCopy_next (len : BitVec 10) (off : BitVec 12) (s t : State) (h : execCopy len off s = .next t) :
    (∃ u, AfterBits (copyFieldBits s.dictBits len.toNat off.toNat) s u ∧ u.lenVal = len ∧
        u.highVal = BitVec.ofNat 6 (off.toNat >>> lowBits s.dictBits len.toNat) ∧
        copyStart (copyOffset len.toNat off.toNat u) u = .next t) ∨
      (∃ e u, FailedRead s u ∧ t = raisedState e u) ∨ Waits s t := by
  unfold execCopy at h
  rcases readCopyFields_cases len.toNat off.toNat s with ⟨u, hr, h1, h2, h3⟩ | ⟨e, u, hr, hf⟩ | ⟨u, hr, hw⟩
  · rw [hr] at h; exact .inl ⟨_, h1, by simpa using h2, h3, h⟩
  · rw [hr] at h; cases h; exact .inr (.inl ⟨e, _, hf, rfl⟩)
  · rw [hr] at h; cases h; exact .inr (.inr hw)

theorem execEos_next (s t : State) (h : execEos s = .next t) :
    (∃ u, AfterBits 16 s u ∧ u.lenVal = 519 ∧ u.highVal = s.highVal ∧ t = emit .eos { u with state := .finished }) ∨
      (∃ e u, FailedRead s u ∧ t = raisedState e u) ∨ Waits s t := by
  unfold execEos at h
  rcases lookupLength_cases 16 519 s with ⟨u, hr, h1, h2, h3⟩ | ⟨e, u, hr, hf⟩ | ⟨u, hr, hw⟩
  · rw [hr] at h; cases h; exact .inl ⟨_, h1, h2, h3, rfl⟩
  · rw [hr] at h; cases h; exact .inr (.inl ⟨e, _, hf, rfl⟩)
  · rw [hr] at h; cases h; exact .inr (.inr hw)

/-- A row of `LEN_TABLE` run by itself. -/
theorem runLength_next (n len : Nat) (s t : State) (h : runLength n len s = .next t) :
    (∃ u, AfterBits n s u ∧ u.lenVal = BitVec.ofNat 10 len ∧ u.highVal = s.highVal ∧ t = { u with lookupReq := none }) ∨
      (∃ e u, FailedRead s u ∧ t = raisedState e u) ∨ Waits s t := by
  unfold runLength at h
  rcases lookupLength_cases n len s with ⟨u, hr, h1, h2, h3⟩ | ⟨e, u, hr, hf⟩ | ⟨u, hr, hw⟩
  · rw [hr] at h; cases h; exact .inl ⟨_, h1, h2, h3, rfl⟩
  · rw [hr] at h; cases h; exact .inr (.inl ⟨e, _, hf, rfl⟩)
  · rw [hr] at h; cases h; exact .inr (.inr hw)

/-- A row of `DIST_TABLE` run by itself. -/
theorem runOffsetHigh_next (n high : Nat) (s t : State) (h : runOffsetHigh n high s = .next t) :
    (∃ u, AfterBits n s u ∧ u.highVal = BitVec.ofNat 6 high ∧ u.lenVal = s.lenVal ∧ t = { u with lookupReq := none }) ∨
      (∃ e u, FailedRead s u ∧ t = raisedState e u) ∨ Waits s t := by
  unfold runOffsetHigh at h
  rcases lookupOffsetHigh_cases n high s with ⟨u, hr, h1, h2, h3⟩ | ⟨e, u, hr, hf⟩ | ⟨u, hr, hw⟩
  · rw [hr] at h; cases h; exact .inl ⟨_, h1, h2, h3, rfl⟩
  · rw [hr] at h; cases h; exact .inr (.inl ⟨e, _, hf, rfl⟩)
  · rw [hr] at h; cases h; exact .inr (.inr hw)

/-- The continuation of a copy (R223). -/
theorem copyContinue_next (s t : State) (h : copyContinue s = .next t) :
    ∃ u, u = { s with copyRem := s.copyRem - 1, mode := if s.copyRem - 1 = 0 then .literal else s.mode } ∧
      putEmit (s.slot (getIndex s s.copyOff)) u = .next t := by
  obtain ⟨-, h2⟩ := getEmit_next _ _ _ h
  exact ⟨_, rfl, h2⟩

/-- The `DECODING` step (R215). -/
theorem decodeStep_next (s t : State) (h : decodeStep s = .next t) :
    (s.copyRem ≠ 0 ∧ copyContinue s = .next t) ∨
      (s.copyRem = 0 ∧
        ((∃ tok u, runWalk (decodeToken s.dictBits) s = .got tok u ∧ runToken tok s = .next t) ∨
          (∃ e u, FailedRead s u ∧ t = raisedState e u) ∨
          (Waits s t ∧ (decodeToken s.dictBits).runBits t.stepBits = .error .bitsExhausted))) := by
  unfold decodeStep at h
  split at h
  · next hc =>
    refine .inr ⟨hc, ?_⟩
    rcases settle_next _ _ _ h with ⟨a, u, hr, hg⟩ | ⟨e, u, hr, ht⟩ | hr
    · exact .inl ⟨a, u, hr, hg⟩
    · exact .inr (.inl ⟨e, _, runWalk_failed _ _ _ _ hr, ht⟩)
    · refine .inr (.inr ⟨runWalk_waits _ _ _ hr, ?_⟩)
      obtain ⟨-, -, h3, -, -, -, -, -, h9⟩ := runWalk_waiting _ _ _ hr
      rw [h3]; exact h9
  · next hc => exact .inl ⟨hc, h⟩

/-- A header byte read (R145): the cursor alone moves, one byte on. -/
theorem readHeaderByte_got (s t : State) (v : Byte) (h : readHeaderByte s = .got v t) :
    CursorMoved s t ∧ s.bytesRem ≠ 0 ∧ t.bytesRem = s.bytesRem - 1 ∧ t.bitOff = 8 ∧ t.curByte = v ∧
      ∃ x, s.source = x :: t.source ∧ x.answer = .byte v := by
  unfold readHeaderByte at h
  cases hf : fetchByte s with
  | raised e u => rw [hf] at h; cases h
  | waiting u => rw [hf] at h; cases h
  | got a u =>
    rw [hf] at h
    obtain ⟨hr, x, w, rest, hs, hx, rfl⟩ := fetchByte_got s u hf
    simp only [Read.bind, Read.got.injEq] at h
    obtain ⟨rfl, rfl⟩ := h
    exact ⟨rfl, hr, rfl, rfl, rfl, x, hs, hx⟩

theorem readHeaderByte_raised (s t : State) (e : ErrCode) (h : readHeaderByte s = .raised e t) :
    fetchByte s = .raised e t := by
  unfold readHeaderByte at h
  cases hf : fetchByte s with
  | got a u => rw [hf] at h; cases h
  | waiting u => rw [hf] at h; cases h
  | raised e' u => rw [hf] at h; simp only [Read.bind, Read.raised.injEq] at h; rw [h.1, h.2]

/-- A header byte that waits (R148): the source presents nothing and a byte is due. -/
theorem readHeaderByte_waiting (s t : State) (h : readHeaderByte s = .waiting t) :
    t = s ∧ s.bytesRem ≠ 0 ∧ s.source = [] := by
  unfold readHeaderByte at h
  cases hf : fetchByte s with
  | got a u => rw [hf] at h; cases h
  | raised e u => rw [hf] at h; cases h
  | waiting u =>
    rw [hf] at h
    simp only [Read.bind, Read.waiting.injEq] at h
    subst h
    exact fetchByte_waiting _ _ hf

/-- The next header byte of the step in progress: one it read before it came to wait, or one from the source. -/
theorem nextHeaderByte_got (s t : State) (v : Byte) (h : nextHeaderByte s = .got v t) :
    CursorMoved s t ∧ BytesTaken s t ∧ s.bitpos ≤ t.bitpos ∧ t.stepBits = s.stepBits.drop 8 ∧
      (s.stepBits = [] ∧ readHeaderByte s = .got v t ∨
        s.stepBits ≠ [] ∧ v = BitVec.ofNat 8 (bitsVal (s.stepBits.take 8)) ∧ t = { s with stepBits := s.stepBits.drop 8 }) := by
  unfold nextHeaderByte at h
  split at h
  · next hs =>
    obtain ⟨c1, r1, n1, o1, -, x, hx, ax⟩ := readHeaderByte_got _ _ _ h
    have p1 := bytesRem_pred _ r1
    have hl : t.chunkLen = s.chunkLen := by rw [c1]
    refine ⟨c1, ⟨[x], hx, by simp [ax], by rw [n1]; simp; omega⟩, ?_, ?_, .inl ⟨hs, h⟩⟩
    · have e8 : (8 : Fin 9).val = 8 := rfl
      have hlt := s.bitOff.isLt
      simp only [State.bitpos, hl, n1, o1, e8]
      omega
    · have : t.stepBits = s.stepBits := by
        unfold readHeaderByte at h
        cases hf : fetchByte s with
        | raised e u => rw [hf] at h; cases h
        | waiting u => rw [hf] at h; cases h
        | got a u =>
          rw [hf] at h
          obtain ⟨-, y, w, rest, -, -, rfl⟩ := fetchByte_got s u hf
          simp only [Read.bind, Read.got.injEq] at h
          obtain ⟨-, rfl⟩ := h
          rfl
      rw [this, hs]; rfl
  · next b rest hs =>
    simp only [Read.got.injEq] at h
    obtain ⟨rfl, rfl⟩ := h
    exact ⟨rfl, .refl s, Int.le_refl _, rfl, .inr ⟨by rw [hs]; simp, rfl, rfl⟩⟩

theorem nextHeaderByte_raised (s t : State) (e : ErrCode) (h : nextHeaderByte s = .raised e t) :
    s.stepBits = [] ∧ fetchByte s = .raised e t := by
  unfold nextHeaderByte at h
  split at h
  · next hs => exact ⟨hs, readHeaderByte_raised _ _ _ h⟩
  · cases h

theorem nextHeaderByte_waiting (s t : State) (h : nextHeaderByte s = .waiting t) :
    s.stepBits = [] ∧ t = s ∧ s.bytesRem ≠ 0 ∧ s.source = [] := by
  unfold nextHeaderByte at h
  split at h
  · next hs => exact ⟨hs, readHeaderByte_waiting _ _ h⟩
  · cases h

/-- Both header bytes read (R212): each was read before the step came to wait, or comes from the source now. -/
theorem readHeader_got (s t : State) (m c : Byte) (h : readHeader s = .got (m, c) t) :
    CursorMoved s t ∧ BytesTaken s t ∧ s.bitpos ≤ t.bitpos ∧ t.stepBits = s.stepBits.drop 16 ∧
      ∃ u, nextHeaderByte s = .got m u ∧ nextHeaderByte u = .got c t := by
  unfold readHeader at h
  cases h1 : nextHeaderByte s with
  | raised e u => rw [h1] at h; cases h
  | waiting u => rw [h1] at h; cases h
  | got a u =>
    rw [h1] at h
    simp only [Read.bind] at h
    cases h2 : nextHeaderByte u with
    | raised e w => rw [h2] at h; cases h
    | waiting w => rw [h2] at h; cases h
    | got b w =>
      rw [h2] at h
      simp only [Read.rememberByte, Read.got.injEq, Prod.mk.injEq] at h
      obtain ⟨⟨rfl, rfl⟩, rfl⟩ := h
      obtain ⟨c1, k1, p1, s1, -⟩ := nextHeaderByte_got _ _ _ h1
      obtain ⟨c2, k2, p2, s2, -⟩ := nextHeaderByte_got _ _ _ h2
      exact ⟨c1.trans c2, k1.trans k2, Int.le_trans p1 p2, by rw [s2, s1, List.drop_drop], u, rfl, h2⟩

/-- A header read that fails (R213): nothing but the cursor and `bc_errored` differ, and one answer at most was no byte. -/
theorem readHeader_raised (s t : State) (e : ErrCode) (h : readHeader s = .raised e t) :
    FailedRead s { t with stepBits := [] } := by
  unfold readHeader at h
  cases h1 : nextHeaderByte s with
  | waiting u => rw [h1] at h; cases h
  | raised e' u =>
    rw [h1] at h
    simp only [Read.bind, Read.raised.injEq] at h
    obtain ⟨rfl, rfl⟩ := h
    obtain ⟨hs, hf⟩ := nextHeaderByte_raised _ _ _ h1
    obtain ⟨ht, -⟩ := fetchByte_raised _ _ _ hf
    refine ⟨?_, ?_, (fetchByte_raised_asked _ _ _ hf).clear, ?_⟩
    · show u.bcErrored = true
      rw [ht]
    · have : ({ u with stepBits := [] } : State).bitpos = s.bitpos := by rw [ht]; rfl
      omega
    · rw [ht]
  | got a u =>
    rw [h1] at h
    simp only [Read.bind] at h
    obtain ⟨c1, k1, p1, -, -⟩ := nextHeaderByte_got _ _ _ h1
    cases h2 : nextHeaderByte u with
    | waiting w => rw [h2] at h; cases h
    | got b w => rw [h2] at h; cases h
    | raised e' w =>
      rw [h2] at h
      simp only [Read.rememberByte, Read.raised.injEq] at h
      obtain ⟨rfl, rfl⟩ := h
      obtain ⟨hs, hf⟩ := nextHeaderByte_raised _ _ _ h2
      obtain ⟨ht, -⟩ := fetchByte_raised _ _ _ hf
      refine ⟨?_, ?_, (k1.asked (fetchByte_raised_asked _ _ _ hf)).clear, ?_⟩
      · show w.bcErrored = true
        rw [ht]
      · have : ({ w with stepBits := [] } : State).bitpos = u.bitpos := by rw [ht]; rfl
        omega
      · rw [ht, c1]

/-- A header read that waits (R148): the bytes presented are consumed, the one that was read stands in `stepBits`. -/
theorem readHeader_waiting (s t : State) (h : readHeader s = .waiting t) :
    CursorMoved s t ∧ BytesTaken s t ∧ s.bitpos ≤ t.bitpos ∧ t.bytesRem ≠ 0 ∧ t.source = [] ∧
      (t = s ∧ s.stepBits = [] ∨
        ∃ m u, nextHeaderByte s = .got m u ∧ u.stepBits = [] ∧ t = { u with stepBits := bitsOf 8 m.toNat }) := by
  unfold readHeader at h
  cases h1 : nextHeaderByte s with
  | raised e u => rw [h1] at h; cases h
  | waiting u =>
    rw [h1] at h
    simp only [Read.bind, Read.waiting.injEq] at h
    subst h
    obtain ⟨hs, rfl, hr, hsrc⟩ := nextHeaderByte_waiting _ _ h1
    exact ⟨rfl, .refl u, Int.le_refl _, hr, hsrc, .inl ⟨rfl, hs⟩⟩
  | got a u =>
    rw [h1] at h
    simp only [Read.bind] at h
    obtain ⟨c1, k1, p1, -, -⟩ := nextHeaderByte_got _ _ _ h1
    cases h2 : nextHeaderByte u with
    | raised e w => rw [h2] at h; cases h
    | got b w => rw [h2] at h; cases h
    | waiting w =>
      rw [h2] at h
      simp only [Read.rememberByte, Read.waiting.injEq] at h
      obtain ⟨hs, rfl, hr, hsrc⟩ := nextHeaderByte_waiting _ _ h2
      rw [hs, List.append_nil] at h
      subst h
      refine ⟨?_, k1, p1, hr, hsrc, .inr ⟨a, w, rfl, hs, rfl⟩⟩
      rw [CursorMoved] at c1 ⊢; rw [c1]

/-- `HDR` (R212): too small, a failing read, a bad mode byte, a bad size code, a valid header with the first token's step, or
the source has not answered. -/
theorem execHdr_next (m c : Byte) (s t : State) (h : execHdr m c s = .next t) :
    (s.chunkLen.toNat ≤ 2 ∧ t = raisedState .chunkTooSmall s) ∨
      (2 < s.chunkLen.toNat ∧
        ((∃ a u, readHeader s = .got a u ∧ headerChecks m c { u with stepBits := [] } = .next t) ∨
          (∃ e u, FailedRead s u ∧ t = raisedState e u) ∨ readHeader s = .waiting t)) := by
  unfold execHdr at h
  split at h
  · next hl =>
    simp only [raise, Host.Outcome.next.injEq] at h
    exact .inl ⟨hl, h.symm⟩
  · next hl =>
    refine .inr ⟨by omega, ?_⟩
    rcases settle_next _ _ _ h with ⟨a, u, hr, hg⟩ | ⟨e, u, hr, ht⟩ | hr
    · exact .inl ⟨a, u, hr, hg⟩
    · exact .inr (.inl ⟨e, _, readHeader_raised _ _ _ hr, ht⟩)
    · exact .inr (.inr hr)

/-- The checks of the header step, mode before size code (R213). -/
theorem headerChecks_next (m c : Byte) (s t : State) (h : headerChecks m c s = .next t) :
    (m ≠ 0 ∧ t = raisedState .unsupportedStaticDictionary { s with dictMode := m, dictSizeCode := c }) ∨
      (m = 0 ∧ legalSizeCode c.toNat = true ∧
        decodeStep { s with
          dictMode := m, dictSizeCode := c, dictBits := c.setWidth 3, first := 0, state := .decoding } = .next t) ∨
      (m = 0 ∧ legalSizeCode c.toNat = false ∧
        t = raisedState .unknownDictionarySize { s with dictMode := m, dictSizeCode := c }) := by
  unfold headerChecks at h
  split at h
  · next hm =>
    simp only [raise, Host.Outcome.next.injEq] at h
    exact .inl ⟨hm, h.symm⟩
  · next hm =>
    have hm0 : m = 0 := by simpa using hm
    split at h
    · next hc => exact .inr (.inl ⟨hm0, hc, h⟩)
    · next hc =>
      simp only [raise, Host.Outcome.next.injEq] at h
      exact .inr (.inr ⟨hm0, by simpa using hc, h.symm⟩)

end Sys2Proof.Machine
end

