-- ==== Sys2Proof/Laws/Step.lean ====
section
/-! SUPPORT. What one step of the machine can be, said once: a reset, a `Start`, a held beat, or the decoder's step on the
state after the host's input. -/

namespace Sys2Proof.Machine

/-- The state the block acts on in a step without reset and `Start`: the host's input taken, the held beat handed over if the
consumer is ready. -/
abbrev State.ready (s : State) : State := handOver s.input.outReady (takeInput s)

theorem step_reset (s : State) (h : s.input.rst = true) : step s = .next (applyReset (takeInput s)) := by
  unfold step edge; rw [if_pos h]

theorem step_start (s : State) (len : Len) (h : s.input.rst = false) (h' : s.input.start = some len) :
    step s = .next (applyStart len (takeInput s)) := by
  unfold step edge; rw [if_neg (by simp [h]), h']

theorem step_block (s : State) (h : s.input.rst = false) (h' : s.input.start = none) :
    step s = blockStep s.ready := by
  unfold step edge; rw [if_neg (by simp [h]), h']

/-- Every step is a reset, a `Start`, or the block's own (R252, R253, R285). -/
theorem step_cases (s : State) :
    (s.input.rst = true ∧ step s = .next (applyReset (takeInput s))) ∨
      (∃ len, s.input.rst = false ∧ s.input.start = some len ∧ step s = .next (applyStart len (takeInput s))) ∨
      (s.input.rst = false ∧ s.input.start = none ∧ step s = blockStep s.ready) := by
  cases h : s.input.rst with
  | true => exact .inl ⟨rfl, step_reset s h⟩
  | false =>
    cases h' : s.input.start with
    | some len => exact .inr (.inl ⟨len, rfl, rfl, step_start s len h h'⟩)
    | none => exact .inr (.inr ⟨rfl, rfl, step_block s h h'⟩)

/-- The block's half of a step: a held beat stops it, otherwise the decoder runs (R259). -/
theorem blockStep_cases (s : State) :
    (s.outHold ≠ none ∧ blockStep s = .next s) ∨ (s.outHold = none ∧ blockStep s = decoderStep s) := by
  unfold blockStep
  cases h : s.outHold with
  | none => right; simp
  | some b => left; simp

/-- What the decoder's step can answer (R214). -/
theorem decoderStep_next (s t : State) (h : decoderStep s = .next t) :
    (s.activity = .waitForStart ∧ t = s) ∨
      (s.activity = .repeatTerminal ∧ t = emit (if s.state = .finished then .eos else .err s.errCode) s) ∨
      (s.activity = .continueCopy ∧ copyContinue (leaveHeaderRead s) = .next t) ∨
      (∃ ctx, s.activity = .fetch ctx ∧
        ((∃ i u, fetchInstr ctx (leaveHeaderRead s) = .got i u ∧ exec i (leaveHeaderRead s) = .next t) ∨
          (∃ e u, fetchInstr ctx (leaveHeaderRead s) = .raised e u ∧ t = raisedState e { u with stepBits := [] }) ∨
          fetchInstr ctx (leaveHeaderRead s) = .waiting t)) := by
  unfold decoderStep at h
  split at h
  · next ha => simp only [Host.Outcome.next.injEq] at h; exact .inl ⟨ha, h.symm⟩
  · next ha =>
    refine .inr (.inl ⟨ha, ?_⟩)
    unfold terminalStep State.finishedFlag at h
    by_cases hf : s.state = .finished
    · simp [hf] at h; simp [hf, h]
    · simp [hf] at h; simp [hf, h]
  · next ha => exact .inr (.inr (.inl ⟨ha, h⟩))
  · next ctx ha =>
    refine .inr (.inr (.inr ⟨ctx, ha, ?_⟩))
    rcases settle_next _ _ _ h with ⟨a, u, hr, hg⟩ | ⟨e, u, hr, ht⟩ | hr
    · exact .inl ⟨a, u, hr, hg⟩
    · exact .inr (.inl ⟨e, u, hr, ht⟩)
    · exact .inr (.inr hr)

/-- A fetch that waits (R148): the bytes presented are consumed, the source is empty and a byte is due; nothing but the cursor
and the step in progress differs. -/
theorem fetchInstr_waiting (ctx : Context) (s t : State) (h : fetchInstr ctx s = .waiting t) :
    CursorMoved s t ∧ BytesTaken s t ∧ t.source = [] ∧ t.bytesRem ≠ 0 := by
  cases ctx with
  | header =>
    simp only [fetchInstr] at h
    split at h
    · cases h
    · cases hr : readHeader s with
      | got a u => rw [hr] at h; cases h
      | raised e u => rw [hr] at h; cases h
      | waiting u =>
        rw [hr] at h
        simp only [Read.bind, Read.waiting.injEq] at h
        subst h
        obtain ⟨h1, h2, -, h4, h5, -⟩ := readHeader_waiting _ _ hr
        exact ⟨h1, h2, h5, h4⟩
  | token => exact ⟨(runWalk_waits _ _ _ h).frame, (runWalk_waits _ _ _ h).taken, (runWalk_waits _ _ _ h).source,
      (runWalk_waits _ _ _ h).due⟩
  | length => exact ⟨(runWalk_waits _ _ _ h).frame, (runWalk_waits _ _ _ h).taken, (runWalk_waits _ _ _ h).source,
      (runWalk_waits _ _ _ h).due⟩
  | offsetHigh => exact ⟨(runWalk_waits _ _ _ h).frame, (runWalk_waits _ _ _ h).taken, (runWalk_waits _ _ _ h).source,
      (runWalk_waits _ _ _ h).due⟩

/-- A token runs by its meaning. -/
theorem exec_toInstr (tok : Token) (s : State) : exec tok.toInstr s = runToken tok s := by
  cases tok <;> rfl

end Sys2Proof.Machine
end

