-- ==== Sys2Proof/Tests/Slice0.lean ====
section
/-! SUPPORT. The model's own tests: expected results are the words and vectors of spec/30_encoding.md and
spec/95_test_vectors.md, and a witness for the hypotheses of every obligation that has any. -/

namespace Sys2Proof.Tests

open Sys2Proof Sys2Proof.Machine

/-! ## Well-formedness: each check refuses an ill-formed term -/

/-- R91, R92: mode not 0. -/
theorem test_wf_refuses_mode : (Instr.hdr 1 4).wf 0 = false ∧ (Instr.hdr 0x80 4).wf 0 = false := by decide

/-- R91, R92: size codes beside 4, 5, 6. -/
theorem test_wf_refuses_size : (Instr.hdr 0 3).wf 0 = false ∧ (Instr.hdr 0 7).wf 0 = false ∧ (Instr.hdr 0 0x14).wf 0 = false := by
  decide

/-- R95: a length below 2, and 519, which is `END`. -/
theorem test_wf_refuses_length : (Instr.copy 1 0).wf 4 = false ∧ (Instr.copy 519 0).wf 4 = false := by decide

/-- R110: an offset the code of its length does not reach. -/
theorem test_wf_refuses_offset : (Instr.copy 2 256).wf 4 = false ∧ (Instr.copy 3 1024).wf 4 = false ∧
    (Instr.copy 3 2048).wf 5 = false := by decide

/-- A `COPY` needs a dictionary size. -/
theorem test_wf_refuses_dict_bits : (Instr.copy 3 0).wf 3 = false ∧ (Instr.copy 3 0).wf 7 = false := by decide

/-- The boundary values that are legal. -/
theorem test_wf_accepts : (Instr.hdr 0 4).wf 0 = true ∧ (Instr.hdr 0 6).wf 7 = true ∧ (Instr.copy 2 255).wf 4 = true ∧
    (Instr.copy 518 1023).wf 4 = true ∧ (Instr.copy 3 4095).wf 6 = true ∧ (Instr.lit 0xFF).wf 0 = true ∧
    Instr.eos.wf 0 = true := by decide

/-! ## Decoding: words written out from the encodings -/

/-- The word, in stream order, decodes to the instruction with no bit left over. -/
def decodes (ctx : Context) (db : BitVec 3) (word : List Nat) (i : Instr) : Bool :=
  decodeExact ctx db (codeWord word) == some i

/-- R91: chunk bytes `00 05`, each bit 0 first. -/
theorem test_decode_hdr : decodes .header 0 [0, 0, 0, 0, 0, 0, 0, 0, 1, 0, 1, 0, 0, 0, 0, 0] (.hdr 0 5) = true := by decide

/-- R94; the bits 16..24 and 25..33 of V1. -/
theorem test_decode_lit : decodes .token 4 [0, 1, 0, 0, 0, 0, 0, 1, 0] (.lit 0x41) = true ∧
    decodes .token 4 [0, 1, 0, 0, 1, 0, 0, 1, 0] (.lit 0x49) = true := by decide

/-- R95; T-TOK-4, T-TOK-6, and the copies of V4 with length 518 and with the largest offsets. -/
theorem test_decode_copy : decodes .token 4 [1, 1, 0, 1, 1, 1, 0, 0] (.copy 2 0) = true ∧
    decodes .token 4 [1, 0, 0, 1, 0, 0, 1, 1, 1, 1, 0, 0, 0] (.copy 11 1) = true ∧
    decodes .token 4 [1, 0, 0, 0, 0, 0, 0, 0, 0, 1, 1, 1, 1, 1, 1, 1, 1, 1, 0, 1, 0, 0] (.copy 518 2) = true ∧
    decodes .token 4 [1, 1, 1, 0, 0, 0, 0, 0, 0, 0, 0, 1, 1, 1, 1] (.copy 3 1023) = true ∧
    decodes .token 4 [1, 1, 0, 1, 0, 0, 0, 0, 0, 0, 0, 0, 1, 1] (.copy 2 255) = true := by decide

/-- R103: the low field has `dict_bits` bits, and 2 for length 2 (V5, T-OFF-11). -/
theorem test_decode_copy_low_bits : decodes .token 5 [1, 1, 1, 1, 1, 1, 0, 0, 0, 0] (.copy 3 1) = true ∧
    decodes .token 6 [1, 1, 1, 1, 1, 1, 0, 0, 0, 0, 0] (.copy 3 1) = true ∧
    decodes .token 6 [1, 1, 0, 1, 1, 1, 1, 1] (.copy 2 3) = true ∧
    decodes .token 6 [1, 0, 1, 0, 0, 0, 1, 1, 1, 0, 1, 0, 1, 0, 0, 0, 0] (.copy 7 578) = true := by decide

/-- R96. -/
theorem test_decode_end : decodes .token 4 [1, 0, 0, 0, 0, 0, 0, 0, 1, 1, 1, 1, 1, 1, 1, 1] .eos = true := by decide

/-- Pairs of a word and an instruction, all of which decode. -/
def allDecode (ctx : Context) (rows : List (List Nat × Instr)) : Bool := rows.all fun r => decodes ctx 4 r.1 r.2

/-- R100: every row of `LEN_TABLE`; extra bits little-endian (R102). -/
theorem test_decode_len_rows : allDecode .length [
    ([1, 1], .len0),
    ([1, 0, 1], .len1),
    ([1, 0, 0], .len2),
    ([0, 1, 1], .len3),
    ([0, 1, 0, 1], .len4),
    ([0, 1, 0, 0], .len5),
    ([0, 0, 1, 1], .len6),
    ([0, 0, 1, 0, 1], .len7),
    ([0, 0, 1, 0, 0, 1], .len8 1),
    ([0, 0, 0, 1, 1, 1, 0], .len9 1),
    ([0, 0, 0, 1, 0, 0, 1, 1], .len10 6),
    ([0, 0, 0, 0, 1, 1, 0, 1, 1, 0], .len11 6),
    ([0, 0, 0, 0, 1, 0, 1, 0, 0, 0, 0], .len12 1),
    ([0, 0, 0, 0, 0, 1, 1, 0, 0, 0, 0, 1], .len13 33),
    ([0, 0, 0, 0, 0, 0, 1, 1, 0, 1, 0, 0, 0, 0], .len14 5),
    ([0, 0, 0, 0, 0, 0, 0, 0, 0, 0, 0, 0, 0, 0, 1], .len15 128)] = true := by decide

/-- R104: rows 0 to 15 of `DIST_TABLE`. -/
theorem test_decode_dist_rows_0 : allDecode .offsetHigh [
    ([1, 1], .dist0),
    ([1, 0, 1, 1], .dist1),
    ([1, 0, 1, 0], .dist2),
    ([1, 0, 0, 1, 1], .dist3),
    ([1, 0, 0, 1, 0], .dist4),
    ([1, 0, 0, 0, 1], .dist5),
    ([1, 0, 0, 0, 0], .dist6),
    ([0, 1, 1, 1, 1, 1], .dist7),
    ([0, 1, 1, 1, 1, 0], .dist8),
    ([0, 1, 1, 1, 0, 1], .dist9),
    ([0, 1, 1, 1, 0, 0], .dist10),
    ([0, 1, 1, 0, 1, 1], .dist11),
    ([0, 1, 1, 0, 1, 0], .dist12),
    ([0, 1, 1, 0, 0, 1], .dist13),
    ([0, 1, 1, 0, 0, 0], .dist14),
    ([0, 1, 0, 1, 1, 1], .dist15)] = true := by decide

/-- R104: rows 16 to 31 of `DIST_TABLE`. -/
theorem test_decode_dist_rows_1 : allDecode .offsetHigh [
    ([0, 1, 0, 1, 1, 0], .dist16),
    ([0, 1, 0, 1, 0, 1], .dist17),
    ([0, 1, 0, 1, 0, 0], .dist18),
    ([0, 1, 0, 0, 1, 1], .dist19),
    ([0, 1, 0, 0, 1, 0], .dist20),
    ([0, 1, 0, 0, 0, 1], .dist21),
    ([0, 1, 0, 0, 0, 0, 1], .dist22),
    ([0, 1, 0, 0, 0, 0, 0], .dist23),
    ([0, 0, 1, 1, 1, 1, 1], .dist24),
    ([0, 0, 1, 1, 1, 1, 0], .dist25),
    ([0, 0, 1, 1, 1, 0, 1], .dist26),
    ([0, 0, 1, 1, 1, 0, 0], .dist27),
    ([0, 0, 1, 1, 0, 1, 1], .dist28),
    ([0, 0, 1, 1, 0, 1, 0], .dist29),
    ([0, 0, 1, 1, 0, 0, 1], .dist30),
    ([0, 0, 1, 1, 0, 0, 0], .dist31)] = true := by decide

/-- R104: rows 32 to 47 of `DIST_TABLE`. -/
theorem test_decode_dist_rows_2 : allDecode .offsetHigh [
    ([0, 0, 1, 0, 1, 1, 1], .dist32),
    ([0, 0, 1, 0, 1, 1, 0], .dist33),
    ([0, 0, 1, 0, 1, 0, 1], .dist34),
    ([0, 0, 1, 0, 1, 0, 0], .dist35),
    ([0, 0, 1, 0, 0, 1, 1], .dist36),
    ([0, 0, 1, 0, 0, 1, 0], .dist37),
    ([0, 0, 1, 0, 0, 0, 1], .dist38),
    ([0, 0, 1, 0, 0, 0, 0], .dist39),
    ([0, 0, 0, 1, 1, 1, 1], .dist40),
    ([0, 0, 0, 1, 1, 1, 0], .dist41),
    ([0, 0, 0, 1, 1, 0, 1], .dist42),
    ([0, 0, 0, 1, 1, 0, 0], .dist43),
    ([0, 0, 0, 1, 0, 1, 1], .dist44),
    ([0, 0, 0, 1, 0, 1, 0], .dist45),
    ([0, 0, 0, 1, 0, 0, 1], .dist46),
    ([0, 0, 0, 1, 0, 0, 0], .dist47)] = true := by decide

/-- R104: rows 48 to 63 of `DIST_TABLE`. -/
theorem test_decode_dist_rows_3 : allDecode .offsetHigh [
    ([0, 0, 0, 0, 1, 1, 1, 1], .dist48),
    ([0, 0, 0, 0, 1, 1, 1, 0], .dist49),
    ([0, 0, 0, 0, 1, 1, 0, 1], .dist50),
    ([0, 0, 0, 0, 1, 1, 0, 0], .dist51),
    ([0, 0, 0, 0, 1, 0, 1, 1], .dist52),
    ([0, 0, 0, 0, 1, 0, 1, 0], .dist53),
    ([0, 0, 0, 0, 1, 0, 0, 1], .dist54),
    ([0, 0, 0, 0, 1, 0, 0, 0], .dist55),
    ([0, 0, 0, 0, 0, 1, 1, 1], .dist56),
    ([0, 0, 0, 0, 0, 1, 1, 0], .dist57),
    ([0, 0, 0, 0, 0, 1, 0, 1], .dist58),
    ([0, 0, 0, 0, 0, 1, 0, 0], .dist59),
    ([0, 0, 0, 0, 0, 0, 1, 1], .dist60),
    ([0, 0, 0, 0, 0, 0, 1, 0], .dist61),
    ([0, 0, 0, 0, 0, 0, 0, 1], .dist62),
    ([0, 0, 0, 0, 0, 0, 0, 0], .dist63)] = true := by decide

/-- R112 (e): bits that end inside a token are refused by name. -/
theorem test_decode_exhausted : (match decodeBits .token 4 (codeWord [1, 1, 1]) with
    | .error .bitsExhausted => true
    | .ok _ => false) = true := by decide

/-- Table words, the first-read bit most significant (log entry 9): `END` as spec/opcode_table.json gives it, a literal, rows of
the two code tables. -/
theorem test_decodeTableWord : decodeTableWord 16 33023 = some .eos ∧ decodeTableWord 9 0x082 = some (.lit 0x41) ∧
    decodeTableWord 8 0xDC = some (.copy 2 0) ∧ decodeTableWord 16 0x0020 = some (.hdr 0 4) ∧
    decodeTableWord 6 0x1D = some .dist9 ∧ decodeTableWord 8 0 = some .dist63 ∧ decodeTableWord 4 3 = some .len6 := by
  decide

/-! ## Meanings: one step on a small state -/

/-- The next state, if there is one. -/
def nextOf (o : Outcome) : Option State :=
  match o with
  | .next s => some s
  | .fault _ => none
  | .refused _ => none

theorem next_of_isSome (o : Outcome) (h : (nextOf o).isSome = true) : ∃ t, o = .next t := by
  cases o with
  | next s => exact ⟨s, rfl⟩
  | fault f => simp [nextOf] at h
  | refused f => simp [nextOf] at h

/-- Does the outcome's next state pass the check? -/
def check (o : Outcome) (p : State → Bool) : Bool :=
  match nextOf o with
  | some t => p t
  | none => false

/-- The bytes as the source presents them. -/
def srcOf (bytes : List Byte) : List SrcXfer := bytes.map SrcXfer.byte

/-- The start state of the T-TOK vectors: `DECODING`, capacity 1024, `first = 2`, `d[1] = 0x41`, `d[2] = 0x49`, the cursor at
the first of the bytes. -/
def tokState (bytes : List Byte) : State :=
  { State.reset with
    state := .decoding, dictSizeCode := 4, dictBits := 4, first := 2, dict := [(1, 0x41), (2, 0x49)], out := [0x41, 0x49]
    chunkLen := BitVec.ofNat 32 (5 + bytes.length), bytesRem := BitVec.ofNat 32 bytes.length, source := srcOf bytes }

/-- A chunk given to the block: `Start(L)` with `L` the number of bytes, after which the source has nothing more. -/
def chunk (bytes : List Byte) : State :=
  applyStart (BitVec.ofNat 32 bytes.length) { State.reset with source := srcOf bytes }

/-- The cursor at a bit string, packed into bytes. -/
def bitState (word : List Nat) : State := tokState (packBytes 4 (codeWord word))

/-- T-TOK-3: `LIT 0xFF`. -/
theorem test_lit : check (exec (.lit 0xFF) (tokState [0xFE, 0x01])) (fun t =>
    t.first == 3 && t.slot 3 == 0xFF && t.outHold == some (.byte 0xFF) && t.bitpos == (tokState [0xFE, 0x01]).bitpos + 9) = true := by
  decide

/-- T-DICT-5: `first` wraps at the capacity. -/
theorem test_lit_wraps : check (exec (.lit 0x55) { tokState [0xAA, 0x00] with first := 1023 }) (fun t =>
    t.first == 0 && t.slot 0 == 0x55 && t.slot 1 == 0x41) = true := by decide

/-- T-TOK-5, first step: `COPY len=2, off=1`. -/
theorem test_copy : check (exec (.copy 2 1) (tokState [0x7B])) (fun t =>
    t.outHold == some (.byte 0x41) && t.copyRem == 1 && t.copyOff == 1 && t.mode == .copying && t.first == 3 &&
    t.slot 3 == 0x41 && t.bytesRem == 0) = true := by decide

/-- T-DICT-8: offset `capacity - 1` reads the slot it writes. -/
theorem test_copy_full_offset : check (exec (.copy 3 1023)
      { tokState [0x07, 0x78] with first := 7, dict := [(8, 0x33)] }) (fun t =>
    t.outHold == some (.byte 0x33) && t.first == 8 && t.dict == [(8, 0x33)] && t.copyOff == 1023 && t.copyRem == 2) = true := by
  decide

/-- T-TOK-8: `END`. -/
theorem test_end : check (exec .eos (tokState [0x01, 0xFF])) (fun t =>
    t.state == .finished && t.outHold == some .eos && t.first == 2 && t.copyRem == 0 && t.errCode == .none &&
    t.bytesRem == 0 && t.bitOff == 8) = true := by decide

/-- T-END-6: the copy does not start when its bits run out. -/
theorem test_copy_truncated : check (step (tokState [0xFF])) (fun t =>
    t.state == .errored && t.errCode == .unexpectedEndOfChunk && t.outHold == some (.err .unexpectedEndOfChunk) &&
    t.copyRem == 0 && t.first == 2) = true := by decide

/-- T-TOK-4, second step: a copy goes on and ends. -/
theorem test_copy_continues : check (step { tokState [] with copyRem := 1, mode := .copying }) (fun t =>
    t.outHold == some (.byte 0x49) && t.copyRem == 0 && t.mode == .literal && t.first == 3) = true := by decide

/-- V1, first step: the header and `LIT 0x41` in one step. -/
theorem test_hdr : check (step (chunk [0x00, 0x04, 0x82, 0x24, 0x25, 0x8F, 0x80, 0x7F])) (fun t =>
    t.outHold == some (.byte 0x41) && t.state == .decoding && t.dictBits == 4 && t.first == 1 && t.slot 1 == 0x41 &&
    t.bitpos == 25 && stConsumed t == 4) = true := by decide

/-- T-HDR-5, T-HDR-3, T-HDR-10 and T-HDR-17. -/
theorem test_hdr_checks :
    check (step (chunk [0x01, 0x07, 0x00])) (fun t => t.errCode == .unsupportedStaticDictionary && stConsumed t == 2) = true ∧
    check (step (chunk [0x00, 0x04])) (fun t => t.errCode == .chunkTooSmall && stConsumed t == 0) = true ∧
    check (step (chunk [0x00, 0x14, 0x00, 0x00])) (fun t => t.errCode == .unknownDictionarySize && stDictSize t == 0x14) = true ∧
    check (step (chunk [0x00, 0x06, 0x01, 0xFF])) (fun t => t.outHold == some .eos && t.dictBits == 6) = true := by decide

/-- T-HDR-11 and T-HDR-14: the source ends inside the header. -/
theorem test_hdr_source_ends :
    check (step { chunk [0, 0, 0, 0, 0, 0, 0, 0] with source := [⟨0, 1⟩, ⟨1, 0⟩] }) (fun t =>
      t.errCode == .unexpectedEndOfChunk && stConsumed t == 1) = true ∧
    check (step { chunk [0, 0, 0, 0, 0, 0, 0, 0] with source := [⟨0, 0⟩, ⟨2, 0⟩] }) (fun t =>
      t.errCode == .underlyingIOError && stConsumed t == 1) = true := by decide

/-- The row, its bits, the number it returns: one vector of T-LEN. -/
def lengthVector (i : Instr) (word : List Nat) (len : Nat) : Bool :=
  check (exec i (bitState word)) fun t =>
    t.lenVal.toNat == len && t.bitpos == (bitState word).bitpos + word.length && t.lookupReq == none

/-- The row, its bits, the number it returns: one vector of T-DIST. -/
def highVector (i : Instr) (word : List Nat) (high : Nat) : Bool :=
  check (exec i (bitState word)) fun t =>
    t.highVal.toNat == high && t.bitpos == (bitState word).bitpos + word.length && t.lookupReq == none

/-- T-LEN-1 to T-LEN-15. -/
theorem test_len_short_rows : (
    lengthVector (.len0) [1, 1] 3 &&
    lengthVector (.len1) [1, 0, 1] 2 &&
    lengthVector (.len2) [1, 0, 0] 4 &&
    lengthVector (.len3) [0, 1, 1] 5 &&
    lengthVector (.len4) [0, 1, 0, 1] 6 &&
    lengthVector (.len5) [0, 1, 0, 0] 7 &&
    lengthVector (.len6) [0, 0, 1, 1] 8 &&
    lengthVector (.len7) [0, 0, 1, 0, 1] 9 &&
    lengthVector (.len8 0) [0, 0, 1, 0, 0, 0] 10 &&
    lengthVector (.len8 1) [0, 0, 1, 0, 0, 1] 11 &&
    lengthVector (.len9 0) [0, 0, 0, 1, 1, 0, 0] 12 &&
    lengthVector (.len9 1) [0, 0, 0, 1, 1, 1, 0] 13 &&
    lengthVector (.len9 3) [0, 0, 0, 1, 1, 1, 1] 15 &&
    lengthVector (.len10 0) [0, 0, 0, 1, 0, 0, 0, 0] 16 &&
    lengthVector (.len10 7) [0, 0, 0, 1, 0, 1, 1, 1] 23) = true := by decide

/-- T-LEN-16 to T-LEN-27. -/
theorem test_len_long_rows : (
    lengthVector (.len11 0) [0, 0, 0, 0, 1, 1, 0, 0, 0, 0] 24 &&
    lengthVector (.len11 6) [0, 0, 0, 0, 1, 1, 0, 1, 1, 0] 30 &&
    lengthVector (.len11 15) [0, 0, 0, 0, 1, 1, 1, 1, 1, 1] 39 &&
    lengthVector (.len12 0) [0, 0, 0, 0, 1, 0, 0, 0, 0, 0, 0] 40 &&
    lengthVector (.len12 31) [0, 0, 0, 0, 1, 0, 1, 1, 1, 1, 1] 71 &&
    lengthVector (.len13 0) [0, 0, 0, 0, 0, 1, 0, 0, 0, 0, 0, 0] 72 &&
    lengthVector (.len13 63) [0, 0, 0, 0, 0, 1, 1, 1, 1, 1, 1, 1] 135 &&
    lengthVector (.len14 0) [0, 0, 0, 0, 0, 0, 1, 0, 0, 0, 0, 0, 0, 0] 136 &&
    lengthVector (.len14 127) [0, 0, 0, 0, 0, 0, 1, 1, 1, 1, 1, 1, 1, 1] 263 &&
    lengthVector (.len15 0) [0, 0, 0, 0, 0, 0, 0, 0, 0, 0, 0, 0, 0, 0, 0] 264 &&
    lengthVector (.len15 128) [0, 0, 0, 0, 0, 0, 0, 0, 0, 0, 0, 0, 0, 0, 1] 392 &&
    lengthVector (.len15 255) [0, 0, 0, 0, 0, 0, 0, 1, 1, 1, 1, 1, 1, 1, 1] 519) = true := by decide

/-- T-DIST-1 to T-DIST-16. -/
theorem test_dist_groups_abc : (
    highVector .dist0 [1, 1] 0 &&
    highVector .dist1 [1, 0, 1, 1] 1 &&
    highVector .dist2 [1, 0, 1, 0] 2 &&
    highVector .dist3 [1, 0, 0, 1, 1] 3 &&
    highVector .dist4 [1, 0, 0, 1, 0] 4 &&
    highVector .dist5 [1, 0, 0, 0, 1] 5 &&
    highVector .dist6 [1, 0, 0, 0, 0] 6 &&
    highVector .dist7 [0, 1, 1, 1, 1, 1] 7 &&
    highVector .dist8 [0, 1, 1, 1, 1, 0] 8 &&
    highVector .dist9 [0, 1, 1, 1, 0, 1] 9 &&
    highVector .dist11 [0, 1, 1, 0, 1, 1] 11 &&
    highVector .dist13 [0, 1, 1, 0, 0, 1] 13 &&
    highVector .dist14 [0, 1, 1, 0, 0, 0] 14 &&
    highVector .dist21 [0, 1, 0, 0, 0, 1] 21 &&
    highVector .dist22 [0, 1, 0, 0, 0, 0, 1] 22 &&
    highVector .dist23 [0, 1, 0, 0, 0, 0, 0] 23) = true := by decide

/-- T-DIST-17 to T-DIST-31. -/
theorem test_dist_groups_defg : (
    highVector .dist24 [0, 0, 1, 1, 1, 1, 1] 24 &&
    highVector .dist25 [0, 0, 1, 1, 1, 1, 0] 25 &&
    highVector .dist27 [0, 0, 1, 1, 1, 0, 0] 27 &&
    highVector .dist31 [0, 0, 1, 1, 0, 0, 0] 31 &&
    highVector .dist32 [0, 0, 1, 0, 1, 1, 1] 32 &&
    highVector .dist39 [0, 0, 1, 0, 0, 0, 0] 39 &&
    highVector .dist40 [0, 0, 0, 1, 1, 1, 1] 40 &&
    highVector .dist47 [0, 0, 0, 1, 0, 0, 0] 47 &&
    highVector .dist48 [0, 0, 0, 0, 1, 1, 1, 1] 48 &&
    highVector .dist50 [0, 0, 0, 0, 1, 1, 0, 1] 50 &&
    highVector .dist52 [0, 0, 0, 0, 1, 0, 1, 1] 52 &&
    highVector .dist55 [0, 0, 0, 0, 1, 0, 0, 0] 55 &&
    highVector .dist56 [0, 0, 0, 0, 0, 1, 1, 1] 56 &&
    highVector .dist62 [0, 0, 0, 0, 0, 0, 0, 1] 62 &&
    highVector .dist63 [0, 0, 0, 0, 0, 0, 0, 0] 63) = true := by decide

/-- Does the read end with this value, and does the state it leaves pass the check? -/
def gotIs (r : Read Nat) (v : Nat) (p : State → Bool) : Bool :=
  match r with
  | .got a t => a == v && p t
  | .raised _ _ => false
  | .waiting _ => false

/-- Does the read raise this error, and does the state it leaves pass the check? -/
def raisedIs (r : Read Nat) (e : ErrCode) (p : State → Bool) : Bool :=
  match r with
  | .got _ _ => false
  | .raised f t => f == e && p t
  | .waiting _ => false

/-- T-BC-2 (its last eight bits), T-BC-3, T-BC-4, T-BC-6. -/
theorem test_cursor_reads :
    gotIs (readBits 8 { tokState [0x24] with curByte := 0x82, bitOff := 1 }) 0x41 (fun t =>
      t.curByte == 0x24 && t.bitOff == 1 && t.bytesRem == 0) = true ∧
    gotIs (readBits 5 { tokState [0x8F] with curByte := 0x25, bitOff := 6 }) 28 (fun t =>
      t.curByte == 0x8F && t.bitOff == 3) = true ∧
    gotIs (readBits 8 (tokState [0xA5])) 0xA5 (fun t => t.bitOff == 8 && t.bytesRem == 0) = true ∧
    gotIs (readBits 3 { tokState [] with curByte := 0xE0, bitOff := 5 }) 7 (fun t => t.bitOff == 8) = true := by decide

/-- T-BC-5, T-BC-7, T-BC-8, T-BC-9. -/
theorem test_cursor_errors :
    raisedIs (readBits 1 { tokState [] with source := srcOf [7] }) .unexpectedEndOfChunk (fun t =>
      t.bcErrored && t.source == srcOf [7]) = true ∧
    raisedIs (readBits 4 { tokState [] with bitOff := 5 }) .unexpectedEndOfChunk (fun t => t.bcErrored) = true ∧
    raisedIs (readBits 1 { tokState [1, 2, 3] with source := [⟨1, 0⟩] }) .unexpectedEndOfChunk (fun t =>
      t.bytesRem == 3) = true ∧
    raisedIs (readBits 1 { tokState [1, 2, 3] with source := [⟨2, 0⟩] }) .underlyingIOError (fun t => t.bcErrored) = true := by
  decide

/-- T-DICT-7, T-DICT-9 and T-DICT-10: the index read and the index written. -/
theorem test_dictionary_indices :
    getIndex { tokState [] with first := 5 } 10 = 1019 ∧ putIndex { tokState [] with first := 4095, dictBits := 6 } = 0 ∧
    getIndex { tokState [] with first := 3, dictBits := 5 } 2047 = 4 := by decide

/-- T-END-12: in `IDLE` no beat. T-END-10: a pull in `ERRORED` gives the terminal beat again. -/
theorem test_idle_and_terminal :
    check (step State.reset) (fun t => t.state == .idle && !outValid t) = true ∧
    check (step { tokState [3] with state := .errored, errCode := .underlyingIOError }) (fun t =>
      t.outHold == some (.err .underlyingIOError) && t.bytesRem == 1) = true := by decide

/-- The host's `Start` and reset stand before everything else (R252, R285). -/
theorem test_host_priority :
    check (step { tokState [0xFE, 1] with host := [⟨true, some 9, true, none, []⟩] }) (fun t =>
      t.state == .idle && t.dict == [(1, 0x41), (2, 0x49)] && t.host == []) = true ∧
    check (step { tokState [0xFE, 1] with host := [⟨false, some 9, true, none, []⟩] }) (fun t =>
      t.state == .init && t.chunkLen == 9 && t.bytesRem == 9) = true := by decide

/-- A table word placed by `withFetchWord` runs at the next step (log entry 10). -/
theorem test_withFetchWord :
    check (step (State.reset.withFetchWord 16 33023)) (fun t => t.state == .finished) = true ∧
    check (step (State.reset.withFetchWord 9 0x082)) (fun t => t.outHold == some (.byte 0x41)) = true ∧
    check (step (State.reset.withFetchWord 8 0x0F)) (fun t => t.highVal == 48 && t.lookupReq == none) = true ∧
    check (step (State.reset.withFetchWord 15 1)) (fun t => t.lenVal == 392 && t.lookupReq == none) = true := by decide

/-- The source has answered the first of a literal's two bytes: it is consumed and the step waits for the second (R62, R148,
R254); `src_ready` is high before and after (R251). -/
theorem test_wait_in_token :
    srcReady { tokState [0xFE, 0x01] with source := srcOf [0xFE] } = true ∧
    check (step { tokState [0xFE, 0x01] with source := srcOf [0xFE] }) (fun t =>
      t.bytesRem == 1 && stConsumed t == 6 && t.source == [] && t.curByte == 0xFE && t.bitOff == 8 && t.outHold == none &&
      t.stepBits == bitsOf 8 0xFE && t.first == 2 && srcReady t) = true ∧
    check (step { tokState [0xFE, 0x01] with
      curByte := 0xFE, bitOff := 8, bytesRem := 1, stepBits := bitsOf 8 0xFE, source := srcOf [0x01] }) (fun t =>
      t.outHold == some (.byte 0xFF) && t.bitOff == 1 && t.bytesRem == 0 && t.stepBits == []) = true := by decide

/-- The header step waits for its second byte: the first is consumed, no register but the cursor's has changed (R62, R148). -/
theorem test_wait_in_header :
    check (step { chunk [0x00, 0x04, 0x82, 0x24] with source := srcOf [0x00] }) (fun t =>
      t.state == .init && stConsumed t == 1 && t.bitpos == 8 && t.stepBits == bitsOf 8 0 && t.outHold == none && srcReady t) = true ∧
    check (step { chunk [0x00, 0x04, 0x82, 0x24] with
      curByte := 0, bytesRem := 3, stepBits := bitsOf 8 0, source := srcOf [0x04, 0x82, 0x24] }) (fun t =>
      t.outHold == some (.byte 0x41) && t.dictBits == 4 && stConsumed t == 4 && t.stepBits == []) = true := by decide

/-- While `rst` is asserted `out_valid` and `src_ready` are low (R252). -/
theorem test_reset_gates_the_handshakes :
    outValid { tokState [5] with outHold := some (.byte 1) } = true ∧ srcReady (tokState [5]) = true ∧
    outValid { tokState [5] with outHold := some (.byte 1), host := [⟨true, none, false, none, []⟩] } = false ∧
    srcReady { tokState [5] with host := [⟨true, none, false, none, []⟩] } = false := by decide

/-! ## Witnesses: the hypotheses of each obligation can be met -/

/-- A host that does one thing. -/
def withInput (x : HostInput) (s : State) : State := { s with host := [x] }

/-- A consumer that is not ready (`out_ready` low), with nothing held: the block runs ahead by one step (R259). -/
def runAhead (s : State) : State := withInput ⟨false, none, false, none, []⟩ s

/-- Many bits ready: the cursor of the table rows' witnesses. -/
def readyState : State := tokState [0, 0, 0, 0]

/-- A literal's step that waits for its second byte: its first has been consumed, the cursor stands at its end. -/
def waitState (late : List Byte) : State :=
  { tokState [0x01] with curByte := 0xFE, stepBits := bitsOf 8 0xFE, source := srcOf late }

/-- A header step that waits for its second byte. -/
def headerWaitState (late : List Byte) : State :=
  { chunk [0x00, 0x04, 0x82, 0x24] with bytesRem := 3, stepBits := bitsOf 8 0, source := srcOf late }

/-- A copy in progress, with everything a run has made of it: two literals, then the first step of `COPY 11, 1`. -/
def copyState : State :=
  { tokState [0x00] with
    first := 3, dict := [(1, 0x41), (2, 0x49), (3, 0x41)], out := [0x41, 0x49, 0x41], copyOff := 1, copyRem := 10
    mode := .copying, lenVal := 11 }

theorem witness_DecodeOfEncode : (Instr.copy 518 4095).wf 6 = true ∧ (Instr.copy 2 255).wf 4 = true ∧
    (Instr.hdr 0 6).wf 0 = true := by decide

theorem witness_DecodedBitsAreTheEncoding : legalSizeCode (4 : BitVec 3).toNat = true ∧
    decodeBits .token 4 (codeWord [1, 1, 0, 1, 1, 1, 0, 0, 1]) = .ok (.copy 2 0, [true]) ∧
    decodeBits .header 4 (bytesBits [0x01, 0x07]) = .ok (.hdr 1 7, []) := by decide

theorem witness_ThirtyBitsAlwaysDecode : legalSizeCode (6 : BitVec 3).toNat = true ∧
    30 ≤ (List.replicate 30 true).length := by decide

theorem witness_TokenSizes : (Instr.copy 2 0).wf 4 = true ∧ (Instr.copy 518 4095).wf 6 = true ∧
    legalSizeCode (4 : BitVec 3).toNat = true := by decide

theorem witness_DecodeLengthProperties :
    decodeLength.runBits (codeWord [1, 0, 1]) = .ok (2, []) ∧ 15 ≤ (codeWord [0, 0, 0, 0, 0, 0, 0, 1, 1, 1, 1, 1, 1, 1, 1]).length ∧
    decodeLength.runBits (codeWord [0, 0, 0, 0, 0, 0, 0, 1, 1, 1, 1, 1, 1, 1, 1]) = .ok (519, []) := by decide

theorem witness_DecodeOffsetHighProperties :
    decodeOffsetHigh.runBits (codeWord [1, 1]) = .ok (0, []) ∧ 8 ≤ (codeWord [0, 0, 0, 0, 0, 0, 0, 0]).length ∧
    decodeOffsetHigh.runBits (codeWord [0, 0, 0, 0, 0, 0, 0, 0]) = .ok (63, []) := by decide

theorem witness_OffsetRange : legalSizeCode (4 : BitVec 3).toNat = true ∧
    (decodeOffset 4 2).runBits (codeWord [0, 0, 0, 0, 0, 0, 0, 0, 1, 1]) = .ok (255, []) ∧
    (decodeOffset 4 518).runBits (codeWord [0, 0, 0, 0, 0, 0, 0, 0, 1, 1, 1, 1]) = .ok (1023, []) ∧ 1023 < capacity 4 := by
  decide

theorem witness_FetchByteRule : (tokState []).bytesRem = 0 ∧ (∃ e u, fetchByte (tokState []) = .raised e u) ∧
    (tokState [5]).bytesRem ≠ 0 ∧ (tokState [5]).source = ⟨0, 5⟩ :: [] ∧ SrcXfer.answer ⟨0, 5⟩ = .byte 5 ∧
    SrcXfer.answer ⟨1, 5⟩ = .endOfSource ∧ SrcXfer.answer ⟨2, 5⟩ = .ioError ∧ SrcXfer.answer ⟨3, 5⟩ = .ioError :=
  ⟨by decide, ⟨_, _, rfl⟩, by decide, rfl, by decide, by decide, by decide, by decide⟩

theorem witness_ReadBitRule : ({ tokState [] with bcErrored := true } : State).bcErrored = true ∧
    (tokState [5]).bcErrored = false ∧ (tokState [5]).bitOff = 8 ∧ ({ tokState [5] with bitOff := 7 } : State).bitOff ≠ 8 ∧
    (∃ u, fetchByte (tokState [5]) = .got () u) ∧ ∃ e u, fetchByte (tokState []) = .raised e u :=
  ⟨rfl, rfl, rfl, by decide, ⟨_, rfl⟩, ⟨_, _, rfl⟩⟩

theorem witness_ReadBitsLittleEndian : 8 ≤ ({ tokState [0x24] with bitOff := 1 } : State).bitsReady ∧
    0 ≤ (tokState []).bitsReady ∧ 8 ≤ (waitState []).bitsReady := by decide

theorem witness_ChunkDeliversExactlyItsBits : (0 : Len).toNat ≤ bytesPresented (tokState []).source ∧
    (3 : Len).toNat ≤ bytesPresented (tokState [1, 2, 3]).source ∧ 24 ≤ 8 * min (5 : Len).toNat (bytesPresented (tokState [1, 2, 3]).source) := by
  decide

theorem witness_ReadPastReadyBitsRaises : (tokState [5]).bcErrored = false ∧
    (tokState [5]).bytesRem.toNat ≤ bytesPresented (tokState [5]).source ∧ (tokState [5]).sourceAnswers ∧
    (tokState [5]).bitsReady < 9 ∧ ({ tokState [5] with source := [⟨1, 0⟩] } : State).sourceAnswers ∧
    ({ tokState [5] with source := [⟨1, 0⟩] } : State).bitsReady < 1 :=
  ⟨rfl, by decide, Or.inl (by decide), by decide, Or.inr (by decide), by decide⟩

theorem witness_HeaderByteIsReadBitsEight : (tokState [5]).bitOff = 8 ∧ (tokState [5]).bcErrored = false ∧
    (tokState [5]).stepBits = [] := by decide

theorem witness_BitposOnlyGrows : (tokState [0xFE, 1]).input.rst = false ∧ (tokState [0xFE, 1]).input.start = none ∧
    ∃ t, step (tokState [0xFE, 1]) = .next t := ⟨rfl, rfl, next_of_isSome _ (by decide)⟩

theorem witness_LitPutsAndEmits : 9 ≤ ({ tokState [1] with bitOff := 7 } : State).bitsReady ∧
    legalSizeCode ({ tokState [1] with bitOff := 7 } : State).dictBits.toNat = true ∧ 9 ≤ readyState.bitsReady ∧
    9 ≤ (waitState [0x01]).bitsReady ∧ (∃ e u, readBits 9 (tokState [5]) = .raised e u) ∧
    ∃ e u, readBits 9 { tokState [1] with source := [⟨2, 0⟩] } = .raised e u :=
  ⟨by decide, by decide, by decide, by decide, ⟨_, _, rfl⟩, ⟨_, _, rfl⟩⟩

theorem witness_CopyStarts : (Instr.copy 2 255).wf (tokState [1, 2]).dictBits = true ∧
    (encode (tokState [1, 2]).dictBits (.copy 2 255)).length ≤ (tokState [1, 2]).bitsReady ∧
    (Instr.copy 518 4095).wf ({ tokState [1, 2, 3, 4] with dictBits := 6 } : State).dictBits = true ∧
    (encode 6 (.copy 518 4095)).length ≤ ({ tokState [1, 2, 3, 4] with dictBits := 6 } : State).bitsReady := by decide

theorem witness_CopyContinues : copyState.input.rst = false ∧ copyState.input.start = none ∧
    (handOver copyState.input.outReady (takeInput copyState)).outHold = none ∧
    (handOver (runAhead copyState).input.outReady (takeInput (runAhead copyState))).outHold = none ∧
    copyState.state = .decoding ∧ copyState.lookupReq = none ∧ copyState.copyRem ≠ 0 ∧ legalSizeCode copyState.dictBits.toNat = true := by
  decide

theorem witness_EndFinishes : 16 ≤ (tokState [0x01, 0xFF]).bitsReady := by decide

theorem witness_ValidHeaderRunsFirstToken : legalSizeCode (6 : Byte).toNat = true ∧ 2 < (chunk [0, 6, 1]).chunkLen.toNat ∧
    (chunk [0, 6, 1]).stepBits = [] ∧ 2 ≤ (chunk [0, 6, 1]).bytesRem.toNat ∧ 2 ≤ bytesPresented (chunk [0, 6, 1]).source ∧
    (chunk [0, 6, 1]).sourceAnswers ∧ (headerWaitState [4, 1, 2]).stepBits.length = 8 ∧
    1 ≤ (headerWaitState [4, 1, 2]).bytesRem.toNat ∧ 1 ≤ bytesPresented (headerWaitState [4, 1, 2]).source ∧
    (headerWaitState [4, 1, 2]).sourceAnswers ∧ 2 < (headerWaitState [4, 1, 2]).chunkLen.toNat :=
  ⟨by decide, by decide, rfl, by decide, by decide, Or.inl (by decide), rfl, by decide, by decide, Or.inl (by decide), by decide⟩

theorem witness_HeaderChecksInOrder : (chunk [0, 4]).chunkLen.toNat ≤ 2 ∧ 2 < (chunk [0, 3, 0]).chunkLen.toNat ∧
    (∃ e u, readHeader { chunk [0, 3, 0] with source := [⟨0, 0⟩, ⟨1, 0⟩] } = .raised e u) ∧
    (∃ mc u, readHeader (chunk [0, 3, 0]) = .got mc u) ∧ legalSizeCode (3 : Byte).toNat = false ∧ (0x80 : Byte) ≠ 0 :=
  ⟨by decide, by decide, ⟨_, _, rfl⟩, ⟨_, _, rfl⟩, by decide, by decide⟩

theorem witness_ShortChunkTakesNoByte : (chunk [0, 4]).input.rst = false ∧ (chunk [0, 4]).input.start = none ∧
    (handOver (chunk [0, 4]).input.outReady (takeInput (chunk [0, 4]))).outHold = none ∧
    (handOver (runAhead (chunk [0, 4])).input.outReady (takeInput (runAhead (chunk [0, 4])))).outHold = none ∧ (chunk [0, 4]).state = .init ∧ (chunk [0, 4]).chunkLen.toNat ≤ 2 := by decide

theorem witness_LengthRowsWithoutExtraBits : 5 ≤ readyState.bitsReady ∧ 2 ≤ (bitState [1, 1]).bitsReady := by decide

theorem witness_LengthRowsWithExtraBits : 15 ≤ readyState.bitsReady ∧ 6 ≤ (tokState [0x24]).bitsReady := by decide

theorem witness_OffsetRowsGroupsAB : 5 ≤ readyState.bitsReady ∧ 2 ≤ ({ tokState [] with bitOff := 6 } : State).bitsReady := by
  decide

theorem witness_OffsetRowsGroupC : 7 ≤ readyState.bitsReady ∧ 6 ≤ ({ tokState [] with bitOff := 2 } : State).bitsReady := by
  decide

theorem witness_OffsetRowsGroupsDEFG : 7 ≤ readyState.bitsReady ∧ 7 ≤ ({ tokState [] with bitOff := 1 } : State).bitsReady ∧
    8 ≤ readyState.bitsReady ∧ 8 ≤ (tokState [0]).bitsReady := by decide

theorem witness_TableRowFrame : (Instr.len15 255).context = .length ∧ Instr.dist0.context = .offsetHigh ∧
    (∃ t, exec (.len15 255) readyState = .next t) ∧ (∃ t, exec .dist0 readyState = .next t) ∧
    (∃ t, exec .dist63 (tokState []) = .next t) :=
  ⟨rfl, rfl, next_of_isSome _ (by decide), next_of_isSome _ (by decide), next_of_isSome _ (by decide)⟩

theorem witness_LitFrame : (∃ t, exec (.lit 0xFF) (tokState [0xFE, 1]) = .next t) ∧
    ∃ t, exec (.lit 0xFF) (tokState []) = .next t := ⟨next_of_isSome _ (by decide), next_of_isSome _ (by decide)⟩

theorem witness_CopyFrame : (∃ t, exec (.copy 2 1) (tokState [0x7B]) = .next t) ∧
    ∃ t, exec (.copy 2 1) (tokState []) = .next t := ⟨next_of_isSome _ (by decide), next_of_isSome _ (by decide)⟩

theorem witness_EndFrame : (∃ t, exec .eos (tokState [0x01, 0xFF]) = .next t) ∧ ∃ t, exec .eos (tokState []) = .next t :=
  ⟨next_of_isSome _ (by decide), next_of_isSome _ (by decide)⟩

theorem witness_HdrFrame : (∃ t, exec (.hdr 0 4) (chunk [0x00, 0x04, 0x82, 0x24]) = .next t) ∧
    ∃ t, exec (.hdr 1 4) (chunk [0x01, 0x04, 0x82]) = .next t :=
  ⟨next_of_isSome _ (by decide), next_of_isSome _ (by decide)⟩

theorem witness_PutAdvancesAndStores : legalSizeCode (tokState []).dictBits.toNat = true ∧
    legalSizeCode ({ tokState [] with first := 4095, dictBits := 6 } : State).dictBits.toNat = true := by decide

theorem witness_GetReadsBeforePut : legalSizeCode (tokState []).dictBits.toNat = true ∧
    (tokState []).first.toNat < capacity (tokState []).dictBits ∧
    (1023 : BitVec 12).toNat < capacity (tokState []).dictBits ∧ (0 : BitVec 12).toNat < capacity (tokState []).dictBits := by
  decide

theorem witness_UnwrittenSlotGivesFreeByte : legalSizeCode (tokState []).dictBits.toNat = true ∧
    Memory.lookup (tokState []).dict (getIndex (tokState []) 2) = none := by decide

theorem witness_CopyRunRepeatsItsOutput : copyState.Inv ∧ copyState.state = .decoding ∧ copyState.lookupReq = none ∧
    copyState.host = [] ∧ copyState.copyRem ≠ 0 := by decide

theorem witness_ResetFromAnyState : (withInput ⟨true, some 9, false, none, []⟩ copyState).input.rst = true ∧
    check (step (withInput ⟨true, some 9, false, none, []⟩ copyState)) (fun t => !t.input.rst && t.input.start == none) = true := by
  decide

theorem witness_StartFromAnyState : (withInput ⟨false, some 0xFFFFFFFF, true, none, []⟩ copyState).input.rst = false ∧
    (withInput ⟨false, some 0xFFFFFFFF, true, none, []⟩ copyState).input.start = some 0xFFFFFFFF := by decide

theorem witness_StepKeepsInvariant : copyState.Inv ∧ (tokState [0xFE, 1]).Inv ∧ (chunk [0, 4, 0x82, 0x24]).Inv ∧
    (waitState [0x01]).Inv ∧ (headerWaitState [0x04]).Inv ∧
    (∃ t, step copyState = .next t) ∧ (∃ t, step (chunk [0, 4, 0x82, 0x24]) = .next t) :=
  ⟨by decide, by decide, by decide, by decide, by decide, next_of_isSome _ (by decide), next_of_isSome _ (by decide)⟩

theorem witness_StepNeverStops : State.reset.Inv ∧ copyState.Inv ∧ (chunk []).Inv :=
  ⟨by decide, by decide, by decide⟩

theorem witness_StepKeepsHistory : copyState.Inv ∧ copyState.History ∧ (tokState [0xFE, 1]).History ∧
    (chunk [0, 4, 0x82, 0x24]).Inv ∧ (chunk [0, 4, 0x82, 0x24]).History ∧ (∃ t, step copyState = .next t) ∧
    ∃ t, step (chunk [0, 4, 0x82, 0x24]) = .next t := by
  refine ⟨by decide, ?_, ?_, by decide, ?_, next_of_isSome _ (by decide), next_of_isSome _ (by decide)⟩ <;>
    unfold State.History <;> decide

/-- `State.History` refuses an `INIT` state in which something has been emitted (the first conjunct). -/
theorem test_history_refuses_output_in_init : ¬ ({ chunk [0, 4, 0x82, 0x24] with out := [0, 0] } : State).History := by
  intro h
  exact absurd (h.1 rfl) (by decide)

theorem witness_StepKeepsBeatFits : ({ copyState with outHold := some (.byte 0x41) } : State).beatFits = true ∧
    ∃ t, step { copyState with outHold := some (.byte 0x41) } = .next t := ⟨by decide, next_of_isSome _ (by decide)⟩

theorem witness_OnlyListedTransitions : (tokState [0x01, 0xFF]).input.rst = false ∧ (tokState [0x01, 0xFF]).input.start = none ∧
    (∃ t, step (tokState [0x01, 0xFF]) = .next t) ∧ (∃ t, step (chunk [0, 4]) = .next t) ∧ (∃ t, step State.reset = .next t) ∧
    (∃ t, step { tokState [0x01, 0xFF] with state := .headerRead } = .next t) ∧
    (∃ t, step { tokState [] with state := .finished } = .next t) ∧ ∃ t, step { tokState [] with state := .errored } = .next t :=
  ⟨rfl, rfl, next_of_isSome _ (by decide), next_of_isSome _ (by decide), next_of_isSome _ (by decide),
    next_of_isSome _ (by decide), next_of_isSome _ (by decide), next_of_isSome _ (by decide)⟩

theorem witness_TerminalStatesAreSticky : ({ tokState [] with state := .finished } : State).input.rst = false ∧
    ({ tokState [] with state := .finished } : State).input.start = none ∧
    (handOver true (takeInput { tokState [] with state := .finished, outHold := some .eos })).outHold = none ∧
    (handOver (runAhead { tokState [] with state := .errored, errCode := .chunkTooSmall }).input.outReady
      (takeInput (runAhead { tokState [] with state := .errored, errCode := .chunkTooSmall }))).outHold = none := by decide

theorem witness_ErrorInTokenIsPrecise : (tokState [0xFF]).input.rst = false ∧ (tokState [0xFF]).input.start = none ∧
    (handOver (tokState [0xFF]).input.outReady (takeInput (tokState [0xFF]))).outHold = none ∧
    (tokState [0xFF]).state = .decoding ∧ (tokState [0xFF]).lookupReq = none ∧ (tokState [0xFF]).copyRem = 0 ∧
    (∃ u, runWalk (decodeToken (tokState [0xFF]).dictBits)
      (handOver (tokState [0xFF]).input.outReady (takeInput (tokState [0xFF]))) = .raised .unexpectedEndOfChunk u) ∧
    (handOver (runAhead (tokState [0xFF])).input.outReady (takeInput (runAhead (tokState [0xFF])))).outHold = none ∧
    ∃ u, runWalk (decodeToken (tokState [0xFF]).dictBits)
      (handOver (runAhead (tokState [0xFF])).input.outReady (takeInput (runAhead (tokState [0xFF])))) =
        .raised .unexpectedEndOfChunk u :=
  ⟨rfl, rfl, rfl, rfl, rfl, rfl, ⟨_, rfl⟩, rfl, ⟨_, rfl⟩⟩

theorem witness_StepRunsFetchedInstruction : (tokState [0xFE, 1]).input.rst = false ∧ (tokState [0xFE, 1]).input.start = none ∧
    (handOver (tokState [0xFE, 1]).input.outReady (takeInput (tokState [0xFE, 1]))).outHold = none ∧
    (tokState [0xFE, 1]).state ≠ .headerRead ∧ (tokState [0xFE, 1]).activity = .fetch .token ∧
    ∃ u, fetchInstr .token (handOver (tokState [0xFE, 1]).input.outReady (takeInput (tokState [0xFE, 1]))) =
      .got (.lit 0xFF) u := ⟨rfl, rfl, rfl, by decide, rfl, ⟨_, rfl⟩⟩

theorem witness_StepRunsUpcomingBits : (tokState [0xFE, 1]).activity = .fetch .token ∧
    (tokState [0xFE, 1]).input.start = none ∧ (tokState [0xFE, 1]).state ≠ .headerRead ∧
    (handOver (tokState [0xFE, 1]).input.outReady (takeInput (tokState [0xFE, 1]))).outHold = none ∧
    (∃ rest, decodeBits .token (tokState [0xFE, 1]).dictBits (takeInput (tokState [0xFE, 1])).upcomingBits =
      .ok (.lit 0xFF, rest)) ∧
    (chunk [0, 4, 1]).activity = .fetch .header ∧ (chunk [0, 4, 1]).bitOff = 8 ∧ (chunk [0, 4, 1]).bcErrored = false ∧
    2 < (chunk [0, 4, 1]).chunkLen.toNat ∧ (chunk [0, 4, 1]).stepBits.length % 8 = 0 ∧
    (headerWaitState [4]).stepBits.length % 8 = 0 ∧
    (∃ rest, decodeBits .token (waitState [1]).dictBits (takeInput (waitState [1])).upcomingBits = .ok (.lit 0xFF, rest)) ∧
    ∃ rest, decodeBits .header (chunk [0, 4, 1]).dictBits (takeInput (chunk [0, 4, 1])).upcomingBits = .ok (.hdr 0 4, rest) :=
  ⟨rfl, rfl, by decide, rfl, ⟨_, rfl⟩, rfl, rfl, rfl, by decide, rfl, rfl, ⟨_, rfl⟩, ⟨_, rfl⟩⟩

theorem witness_WalkAndEncodingAgree : legalSizeCode (tokState [0x7B]).dictBits.toNat = true ∧
    ∃ u, runWalk (decodeToken (tokState [0x7B]).dictBits) (tokState [0x7B]) = .got (.copy 2 1) u := ⟨by decide, ⟨_, rfl⟩⟩

theorem witness_WaitingForTheSource :
    (leaveHeaderRead (handOver true (takeInput { tokState [0xFE, 1] with source := srcOf [0xFE] }))).outHold = none ∧
    ({ tokState [0xFE, 1] with source := srcOf [0xFE] } : State).activity = .fetch .token ∧
    (∃ t, fetchInstr .token
      (leaveHeaderRead (handOver true (takeInput { tokState [0xFE, 1] with source := srcOf [0xFE] }))) = .waiting t) ∧
    (chunk [0, 4, 1]).activity = .fetch .header ∧ (chunk [0, 4, 1]).stepBits.length % 8 = 0 ∧
    (∃ t, fetchInstr .header
      (leaveHeaderRead (handOver true (takeInput { chunk [0, 4, 1] with source := srcOf [0] }))) = .waiting t) ∧
    ∃ t, fetchInstr .header (leaveHeaderRead (handOver true (takeInput (headerWaitState [])))) = .waiting t :=
  ⟨rfl, rfl, ⟨_, rfl⟩, rfl, rfl, ⟨_, rfl⟩, ⟨_, rfl⟩⟩

theorem witness_LateAnswersMakeNoDifference :
    ({ tokState [0xFE, 1] with source := srcOf [0xFE] } : State).Inv ∧
    check (step { tokState [0xFE, 1] with source := srcOf [0xFE] }) (fun t => t.outHold == none && t.lookupReq == none) = true ∧
    (headerWaitState []).Inv ∧ (headerWaitState []).state ≠ .idle ∧
    check (step (headerWaitState [])) (fun t => t.outHold == none && t.lookupReq == none) = true ∧
    check (step { chunk [0, 4, 0x82, 0x24] with source := srcOf [0, 4, 0x82] }) (fun t =>
      t.outHold == none && t.lookupReq == none && t.state == .decoding) = true :=
  ⟨by decide, by decide, by decide, by decide, by decide, by decide⟩

theorem witness_HeldBeatAndIdleWait :
    (withInput ⟨false, none, false, none, []⟩ { copyState with outHold := some (.byte 0x41) }).input.rst = false ∧
    (withInput ⟨false, none, false, none, []⟩ { copyState with outHold := some (.byte 0x41) }).input.start = none ∧
    (withInput ⟨false, none, false, none, []⟩ { copyState with outHold := some (.byte 0x41) }).input.outReady = false ∧
    (withInput ⟨false, none, false, none, []⟩ { copyState with outHold := some (.byte 0x41) }).outHold ≠ none ∧
    State.reset.state = .idle ∧ State.reset.input.rst = false ∧ State.reset.input.start = none := by decide

theorem witness_SourceAskedWithinTheChunk : (tokState [0xFE, 1]).undisturbed ∧ (∃ t, step (tokState [0xFE, 1]) = .next t) ∧
    ({ tokState [0xFE, 1] with source := [⟨2, 0⟩] } : State).undisturbed ∧
    ∃ t, step { tokState [0xFE, 1] with source := [⟨2, 0⟩] } = .next t :=
  ⟨by decide, next_of_isSome _ (by decide), by decide, next_of_isSome _ (by decide)⟩

theorem witness_SourceRequestedExactlyWhenNeeded : State.reset.state = .idle ∧
    ({ tokState [] with state := .finished } : State).state = .finished ∧ copyState.activity = .continueCopy ∧
    ({ tokState [] with state := .errored } : State).state = .errored ∧ (tokState []).bytesRem = 0 ∧
    ({ tokState [5] with outHold := some .eos } : State).outHold ≠ none ∧
    (withInput ⟨true, none, true, none, []⟩ (tokState [5])).input.rst = true ∧
    (tokState [5]).input.rst = false ∧ (tokState [5]).outHold = none ∧ (tokState [5]).bytesRem ≠ 0 ∧
    (tokState [5]).activity = .fetch .token ∧ srcReady (tokState [5]) = true ∧ srcReady (waitState []) = true ∧
    srcReady { tokState [5] with stepBits := codeWord [1, 1, 0, 1, 1, 1, 0, 0] } = false ∧
    srcReady { tokState [5] with lookupReq := some .length } = true ∧
    srcReady (chunk [0, 4, 1]) = true ∧ srcReady (headerWaitState []) = true ∧ srcReady (chunk [0, 4]) = false := by decide

theorem witness_StepReadsNoFurtherThanItTakes : (tokState [0x42, 1, 7]).Inv ∧ (tokState [0x42, 1, 7]).undisturbed ∧
    (tokState [0x42, 1, 7]).source = srcOf [0x42, 1] ++ srcOf [7] ∧
    ∃ t, step (tokState [0x42, 1, 7]) = .next t ∧ t.source = srcOf [7] ∧ t.outHold ≠ none :=
  ⟨by decide, by decide, rfl, _, rfl, rfl, by decide⟩

theorem witness_StartForgetsTheRegisters : copyState.dict = ({ copyState with copyRem := 0, curByte := 9 } : State).dict ∧
    copyState.source = ({ copyState with copyRem := 0, curByte := 9 } : State).source ∧
    copyState.host = ({ copyState with copyRem := 0, curByte := 9 } : State).host ∧
    ∃ t, Host.Core.run core 1 (applyStart 1 copyState) = .next t := ⟨rfl, rfl, rfl, ⟨_, rfl⟩⟩

theorem witness_DecodingEnds : State.reset.host = [] ∧ (applyStart 0 State.reset).sourceAnswers ∧
    (applyStart 4 (tokState [0, 4, 1, 0xFF])).sourceAnswers :=
  ⟨rfl, Or.inl (by decide), Or.inl (by decide)⟩

end Sys2Proof.Tests
end

section
/-! SUPPORT. How many bits a decoded word takes: what each decoder walk can return, with the number of bits it has asked for
by then (spec/41_code_tables.md R162, R165, R168). -/

namespace Sys2Proof.Machine

/-- Whatever the walk returns is some `a` after some number `k` of bits with `P k a`. -/
def TakesBits {α : Type} (P : Nat → α → Prop) (w : Walk α) : Prop :=
  ∀ bits a rest, w.runBits bits = .ok (a, rest) → ∃ k, bits.length = rest.length + k ∧ P k a

theorem takesBits_done {α : Type} {P : Nat → α → Prop} {a : α} (h : P 0 a) : TakesBits P (.done a) := by
  intro bits b rest hr
  simp only [Walk.runBits, Except.ok.injEq, Prod.mk.injEq] at hr
  obtain ⟨rfl, rfl⟩ := hr
  exact ⟨0, rfl, h⟩

theorem takesBits_bind {α β : Type} {Q : Nat → α → Prop} {P : Nat → β → Prop} {w : Walk α} {f : α → Walk β}
    (hw : TakesBits Q w) (hf : ∀ k a, Q k a → TakesBits (fun j b => P (k + j) b) (f a)) : TakesBits P (w.bind f) := by
  intro bits b rest hr
  rw [Walk.runBits_bind] at hr
  split at hr
  · next a mid hm =>
    obtain ⟨k, hk, hq⟩ := hw bits a mid hm
    obtain ⟨j, hj, hp⟩ := hf k a hq mid b rest hr
    exact ⟨k + j, by omega, hp⟩
  · cases hr

theorem takesBits_readBits (n : Nat) : TakesBits (fun k v => k = n ∧ v < 2 ^ n) (Walk.readBits n) := by
  intro bits v rest hr
  by_cases hn : n ≤ bits.length
  · rw [Walk.runBits_readBits n bits hn] at hr
    simp only [Except.ok.injEq, Prod.mk.injEq] at hr
    obtain ⟨rfl, rfl⟩ := hr
    have hlt := bitsVal_lt (bits.take n)
    rw [List.length_take_of_le hn] at hlt
    exact ⟨n, by rw [List.length_drop]; omega, rfl, hlt⟩
  · rw [Walk.runBits_readBits_short n bits (by omega)] at hr
    cases hr

theorem takesBits_readBits_bind {β : Type} {P : Nat → β → Prop} {n : Nat} {f : Nat → Walk β}
    (h : ∀ v, v < 2 ^ n → TakesBits (fun j b => P (n + j) b) (f v)) : TakesBits P ((Walk.readBits n).bind f) :=
  takesBits_bind (takesBits_readBits n) fun _ v hv => hv.1 ▸ h v hv.2

theorem takesBits_readBit_bind {β : Type} {P : Nat → β → Prop} {f : Bool → Walk β}
    (h : ∀ b, TakesBits (fun j x => P (1 + j) x) (f b)) : TakesBits P (Walk.readBit.bind f) := by
  intro bits x rest hr
  cases bits with
  | nil => cases hr
  | cons b bits =>
    obtain ⟨j, hj, hp⟩ := h b bits x rest hr
    exact ⟨1 + j, by rw [List.length_cons]; omega, hp⟩

/-! ## The two code tables -/

/-- `len` is a length that `decodeLength()` returns after `k` bits (R162). -/
abbrev LengthFound (k len : Nat) : Prop := 2 ≤ len ∧ len ≤ 519 ∧ k = lengthConsumed len

/-- Each row of `LEN_TABLE` takes the bits that R162 lists for its lengths: checked for all 518 of them. -/
theorem lengthFound_row (sym e : Nat) (hsym : sym < 16) (he : e < 2 ^ (lenRow sym).extra) :
    LengthFound ((lenRow sym).code.length + (lenRow sym).extra) ((lenRow sym).base + e) := by
  have key : ∀ r ∈ List.range 16, ∀ x ∈ List.range (2 ^ (lenRow r).extra),
      LengthFound ((lenRow r).code.length + (lenRow r).extra) ((lenRow r).base + x) := by decide +kernel
  exact key sym (List.mem_range.mpr hsym) e (List.mem_range.mpr he)

theorem decodeLengthLong_takesBits : TakesBits (fun k len => LengthFound (4 + k) len) decodeLengthLong := by
  unfold decodeLengthLong
  refine takesBits_readBits_bind fun w _ => ?_
  split
  · exact takesBits_readBits_bind fun e he => takesBits_done (lengthFound_row 11 e (by decide) he)
  split
  · exact takesBits_readBits_bind fun e he => takesBits_done (lengthFound_row 12 e (by decide) he)
  split
  · exact takesBits_readBits_bind fun e he => takesBits_done (lengthFound_row 13 e (by decide) he)
  refine takesBits_readBit_bind fun b => ?_
  split
  · exact takesBits_readBits_bind fun e he => takesBits_done (lengthFound_row 14 e (by decide) he)
  · exact takesBits_readBits_bind fun e he => takesBits_done (lengthFound_row 15 e (by decide) he)

theorem decodeLengthZeros_takesBits : TakesBits (fun k len => LengthFound (2 + k) len) decodeLengthZeros := by
  unfold decodeLengthZeros
  refine takesBits_readBits_bind fun u _ => ?_
  split
  · exact takesBits_done (lengthFound_row 6 0 (by decide) (by decide))
  split
  · refine takesBits_readBit_bind fun b => ?_
    split
    · exact takesBits_done (lengthFound_row 7 0 (by decide) (by decide))
    · exact takesBits_readBits_bind fun e he => takesBits_done (lengthFound_row 8 e (by decide) he)
  split
  · refine takesBits_readBit_bind fun b => ?_
    split
    · exact takesBits_readBits_bind fun e he => takesBits_done (lengthFound_row 9 e (by decide) he)
    · exact takesBits_readBits_bind fun e he => takesBits_done (lengthFound_row 10 e (by decide) he)
  · simpa only [← Nat.add_assoc] using decodeLengthLong_takesBits

/-- `decodeLength()` returns 2..519, each after the bits that R162 lists for it. -/
theorem decodeLength_takesBits : TakesBits LengthFound decodeLength := by
  unfold decodeLength
  refine takesBits_readBits_bind fun t _ => ?_
  split
  · exact takesBits_done (lengthFound_row 0 0 (by decide) (by decide))
  split
  · refine takesBits_readBit_bind fun x => takesBits_done ?_
    cases x
    · exact lengthFound_row 2 0 (by decide) (by decide)
    · exact lengthFound_row 1 0 (by decide) (by decide)
  split
  · refine takesBits_readBit_bind fun b => ?_
    split
    · exact takesBits_done (lengthFound_row 3 0 (by decide) (by decide))
    · refine takesBits_readBit_bind fun y => takesBits_done ?_
      cases y
      · exact lengthFound_row 5 0 (by decide) (by decide)
      · exact lengthFound_row 4 0 (by decide) (by decide)
  · exact decodeLengthZeros_takesBits

/-- `high` is a value that `decodeOffsetHigh()` returns after `k` bits (R165). -/
abbrev HighFound (k high : Nat) : Prop := high < 64 ∧ k = highConsumed high

/-- The reversed three bits of groups D to F lead to eight values with seven-bit words. -/
theorem highFound_rev3 (top : Fin 3) (v : Nat) (hv : v < 8) : HighFound 7 (0x1F + 8 * top.val - rev3At v) := by
  have key : ∀ (g : Fin 3) (n : Fin 8), HighFound 7 (0x1F + 8 * g.val - rev3At n.val) := by decide
  exact key top ⟨v, hv⟩

theorem decodeOffsetHighZeros_takesBits : TakesBits (fun k high => HighFound (2 + k) high) decodeOffsetHighZeros := by
  have groupG : ∀ v : Fin 16, HighFound 8 (0x3F - rev4At v.val) := by decide
  unfold decodeOffsetHighZeros
  refine takesBits_readBits_bind fun u _ => ?_
  split
  · exact takesBits_readBits_bind fun v hv => takesBits_done (highFound_rev3 0 v hv)
  split
  · exact takesBits_readBits_bind fun v hv => takesBits_done (highFound_rev3 1 v hv)
  split
  · exact takesBits_readBits_bind fun v hv => takesBits_done (highFound_rev3 2 v hv)
  · exact takesBits_readBits_bind fun v hv => takesBits_done (groupG ⟨v, hv⟩)

/-- `decodeOffsetHigh()` returns 0..63, each after the bits that R165 lists for it. -/
theorem decodeOffsetHigh_takesBits : TakesBits HighFound decodeOffsetHigh := by
  have groupC : ∀ u : Fin 16, u ≠ 0 → HighFound 6 (0x16 - rev4At u.val) := by decide
  unfold decodeOffsetHigh
  refine takesBits_readBits_bind fun t _ => ?_
  split
  · exact takesBits_done (by decide)
  split
  · refine takesBits_readBits_bind fun u _ => ?_
    split
    · exact takesBits_done (by decide)
    split
    · exact takesBits_done (by decide)
    split
    · exact takesBits_readBit_bind fun x => takesBits_done (by cases x <;> decide)
    · exact takesBits_readBit_bind fun x => takesBits_done (by cases x <;> decide)
  split
  · refine takesBits_readBits_bind fun u hu => ?_
    split
    · exact takesBits_readBit_bind fun x => takesBits_done (by cases x <;> decide)
    · next h0 => exact takesBits_done (groupC ⟨u, hu⟩ fun h => h0 (congrArg Fin.val h))
  · exact decodeOffsetHighZeros_takesBits

/-! ## Offsets -/

theorem assembleOffset_eq (high n low : Nat) (h : low < 2 ^ n) : assembleOffset high n low = high * 2 ^ n + low := by
  rw [assembleOffset, ← Nat.shiftLeft_add_eq_or_of_lt h, Nat.shiftLeft_eq]

/-- An offset is below `64 * 2^nlow`, whatever its parts (R110, R168). -/
theorem assembleOffset_lt (high n low : Nat) (hh : high < 64) (h : low < 2 ^ n) : assembleOffset high n low < 64 * 2 ^ n := by
  have hm : (high + 1) * 2 ^ n ≤ 64 * 2 ^ n := Nat.mul_le_mul_right _ hh
  rw [assembleOffset_eq high n low h]
  rw [Nat.add_mul] at hm
  omega

/-- The three legal values of `dict_bits` (R91). -/
theorem legalSizeCode_cases (db : BitVec 3) (h : legalSizeCode db.toNat = true) : db = 4 ∨ db = 5 ∨ db = 6 := by
  revert h; revert db; decide

/-- Offsets with `lowBits` low bits fit the capacity, so also the 12 bits of `copy_off` (R168). -/
theorem lowBits_capacity (db : BitVec 3) (len : Nat) (h : legalSizeCode db.toNat = true) :
    64 * 2 ^ lowBits db len ≤ capacity db ∧ capacity db ≤ 4096 := by
  unfold lowBits
  rcases legalSizeCode_cases db h with rfl | rfl | rfl <;> split <;> decide

/-! ## Whole words -/

/-- `i` is a legal instruction of the context whose bits are `k`. -/
structure WordFound (ctx : Context) (db : BitVec 3) (k : Nat) (i : Instr) : Prop where
  bits : k = Laws.EncodedSize.size db i
  context : i.context = ctx
  wf : i.wf db = true

theorem wordFound_copy (db : BitVec 3) (len high low : Nat) (hdb : legalSizeCode db.toNat = true) (h2 : 2 ≤ len)
    (h518 : len ≤ 518) (hh : high < 64) (hl : low < 2 ^ lowBits db len) :
    WordFound .token db (1 + (lengthConsumed len + (highConsumed high + lowBits db len)))
      (.copy (BitVec.ofNat 10 len) (BitVec.ofNat 12 (assembleOffset high (lowBits db len) low))) := by
  obtain ⟨hc, hc'⟩ := lowBits_capacity db len hdb
  have hoff := assembleOffset_lt high _ low hh hl
  have elen : (BitVec.ofNat 10 len).toNat = len := by rw [BitVec.toNat_ofNat]; omega
  have eoff : (BitVec.ofNat 12 (assembleOffset high (lowBits db len) low)).toNat =
      assembleOffset high (lowBits db len) low := by
    rw [BitVec.toNat_ofNat]; exact Nat.mod_eq_of_lt (by omega)
  have ehigh : assembleOffset high (lowBits db len) low >>> lowBits db len = high := by
    rw [assembleOffset_eq _ _ _ hl, Nat.shiftRight_eq_div_pow, Nat.mul_comm, Nat.mul_add_div (Nat.two_pow_pos _),
      Nat.div_eq_of_lt hl, Nat.add_zero]
  refine ⟨?_, rfl, ?_⟩
  · simp only [Laws.EncodedSize.size, elen, eoff, ehigh]; omega
  · simp only [Instr.wf, elen, eoff, hdb, Bool.and_eq_true, decide_eq_true_eq, true_and]
    refine ⟨⟨h2, h518⟩, ?_⟩
    unfold lowBits at hoff ⊢
    split
    · next he => simpa [he] using hoff
    · next he => simpa [he] using hoff

theorem decodeToken_takesBits (db : BitVec 3) (hdb : legalSizeCode db.toNat = true) :
    TakesBits (fun k tok => WordFound .token db k tok.toInstr) (decodeToken db) := by
  unfold decodeToken
  refine takesBits_readBit_bind fun flag => ?_
  split
  · refine takesBits_bind decodeLength_takesBits fun k len ⟨h2, h519, hk⟩ => ?_
    split
    · next he =>
      obtain rfl : len = 519 := by omega
      exact takesBits_done ⟨by rw [hk]; rfl, rfl, rfl⟩
    · next hlt =>
      unfold decodeOffset
      refine takesBits_bind (Q := fun j off => ∃ high low, high < 64 ∧ low < 2 ^ lowBits db len ∧
        off = assembleOffset high (lowBits db len) low ∧ j = highConsumed high + lowBits db len) ?_ ?_
      · refine takesBits_bind decodeOffsetHigh_takesBits fun j high ⟨hh, hj⟩ => ?_
        exact takesBits_readBits_bind fun low hl => takesBits_done ⟨high, low, hh, hl, rfl, by rw [hj]; rfl⟩
      · rintro j _ ⟨high, low, hh, hl, rfl, rfl⟩
        refine takesBits_done ?_
        rw [hk]
        exact wordFound_copy db len high low hdb h2 (by omega) hh hl
  · exact takesBits_readBits_bind fun v _ => takesBits_done ⟨rfl, rfl, rfl⟩

/-- The row that a decoded length is has the bits that R162 lists for the length: checked for all 518 of them. -/
theorem size_lenInstr (db : BitVec 3) (len : Nat) (h2 : 2 ≤ len) (h519 : len ≤ 519) :
    Laws.EncodedSize.size db (lenInstr len) = lengthConsumed len := by
  have key : ∀ n ∈ List.range 518, Laws.EncodedSize.size 0 (lenInstr (n + 2)) = lengthConsumed (n + 2) := by decide +kernel
  have hlen := key (len - 2) (List.mem_range.mpr (by omega))
  rw [Nat.sub_add_cancel h2] at hlen
  rw [← hlen]
  unfold lenInstr
  split <;> rfl

theorem lenInstr_wf (db : BitVec 3) (len : Nat) : (lenInstr len).wf db = true := by
  unfold lenInstr; split <;> rfl

/-- The row of an offset-high value has the bits that R165 lists for the value. -/
theorem wordFound_distInstr (db : BitVec 3) (high : Nat) (h : high < 64) :
    WordFound .offsetHigh db (highConsumed high) (distInstr high) := by
  interval_cases high <;> exact ⟨rfl, rfl, rfl⟩

theorem lenInstr_context (len : Nat) : (lenInstr len).context = .length := by
  unfold lenInstr; split <;> rfl

/-- What a walk decodes outside the header is a legal instruction of its context, after exactly its bits (R97, R112). -/
theorem decodeWalk_takesBits (ctx : Context) (db : BitVec 3) (hctx : ctx ≠ .header) (hdb : legalSizeCode db.toNat = true) :
    TakesBits (WordFound ctx db) (decodeWalk ctx db) := by
  cases ctx with
  | header => exact absurd rfl hctx
  | token => exact takesBits_bind (decodeToken_takesBits db hdb) fun k tok h => takesBits_done h
  | length =>
    refine takesBits_bind decodeLength_takesBits fun k len ⟨h2, h519, hk⟩ => takesBits_done ?_
    exact ⟨hk.trans (size_lenInstr db len h2 h519).symm, lenInstr_context len, lenInstr_wf db len⟩
  | offsetHigh =>
    refine takesBits_bind decodeOffsetHigh_takesBits fun k high ⟨hh, hk⟩ => takesBits_done ?_
    exact hk ▸ wordFound_distInstr db high hh

/-- An instruction fetched outside the header is a legal one of the context, and its bits are ready. -/
theorem runWalk_decodeWalk_got (ctx : Context) (s t : State) (i : Instr) (hctx : ctx ≠ .header)
    (hdb : legalSizeCode s.dictBits.toNat = true) (h : runWalk (decodeWalk ctx s.dictBits) s = .got i t) :
    Laws.EncodedSize.size s.dictBits i ≤ s.bitsReady ∧ i.context = ctx ∧ i.wf s.dictBits = true := by
  obtain ⟨-, -, -, hruns, -⟩ := runWalk_got _ s t i h
  obtain ⟨k, hlen, hbits, hcontext, hwf⟩ := decodeWalk_takesBits ctx s.dictBits hctx hdb _ _ _ hruns
  rw [upcomingBits_length, upcomingBits_length] at hlen
  exact ⟨by omega, hcontext, hwf⟩

end Sys2Proof.Machine
end

section
/-! SUPPORT. What a meaning does when the bits of its instruction are ready: it neither raises nor waits. And where the parts of
the decoder's step are one operation. -/

namespace Sys2Proof.Machine

/-! ## Meanings whose bits are ready -/

theorem AfterBits.stepBits {n : Nat} {s u : State} (hu : AfterBits n s u) : u.stepBits = [] := by rw [hu.frame]

theorem execLit_ready (b : Byte) (s : State) (h : 9 ≤ s.bitsReady) : ∃ u, AfterBits 9 s u ∧ execLit b s = putEmit b u := by
  obtain ⟨t, hr, -⟩ := readBits_ready 9 s h
  exact ⟨_, (readBits_afterBits 9 s t _ hr).1, by unfold execLit; rw [hr]; rfl⟩

theorem execCopy_ready (len : BitVec 10) (off : BitVec 12) (s : State)
    (h : copyFieldBits s.dictBits len.toNat off.toNat ≤ s.bitsReady) :
    ∃ u, AfterBits (copyFieldBits s.dictBits len.toNat off.toNat) s u ∧ u.lenVal = len ∧
      execCopy len off s = copyStart (copyOffset len.toNat off.toNat u) u := by
  obtain ⟨t, hr⟩ := readCopyFields_ready len.toNat off.toNat s h
  rcases readCopyFields_cases len.toNat off.toNat s with ⟨t', hr', hbits, hlen, -⟩ | ⟨e, t', hr', -⟩ | ⟨t', hr', -⟩ <;>
    rw [hr] at hr' <;> cases hr'
  exact ⟨_, hbits, by simpa using hlen, by unfold execCopy; rw [hr]; rfl⟩

theorem lookupLength_ready_afterBits (n len : Nat) (s : State) (h : n ≤ s.bitsReady) :
    ∃ t, lookupLength n len s = .got () t ∧ AfterBits n s { t with stepBits := [] } := by
  obtain ⟨t, hr⟩ := lookupLength_ready n len s h
  rcases lookupLength_cases n len s with ⟨t', hr', hbits, -⟩ | ⟨e, t', hr', -⟩ | ⟨t', hr', -⟩ <;>
    rw [hr] at hr' <;> cases hr'
  exact ⟨t, hr, hbits⟩

theorem execEos_ready (s : State) (h : 16 ≤ s.bitsReady) :
    ∃ u, AfterBits 16 s u ∧ execEos s = .next (emit .eos { u with state := .finished }) := by
  obtain ⟨t, hr, hbits⟩ := lookupLength_ready_afterBits 16 519 s h
  exact ⟨_, hbits, by unfold execEos; rw [hr]; rfl⟩

theorem runLength_ready (n len : Nat) (s : State) (h : n ≤ s.bitsReady) :
    ∃ u, AfterBits n s u ∧ runLength n len s = .next { u with lookupReq := none } := by
  obtain ⟨t, hr, hbits⟩ := lookupLength_ready_afterBits n len s h
  exact ⟨_, hbits, by unfold runLength; rw [hr]; rfl⟩

theorem runOffsetHigh_ready (n high : Nat) (s : State) (h : n ≤ s.bitsReady) :
    ∃ u, AfterBits n s u ∧ runOffsetHigh n high s = .next { u with lookupReq := none } := by
  obtain ⟨t, hr⟩ := lookupOffsetHigh_ready n high s h
  rcases lookupOffsetHigh_cases n high s with ⟨t', hr', hbits, -⟩ | ⟨e, t', hr', -⟩ | ⟨t', hr', -⟩ <;>
    rw [hr] at hr' <;> cases hr'
  exact ⟨_, hbits, by unfold runOffsetHigh; rw [hr]; rfl⟩

/-! ## Instructions by context -/

theorem exec_of_context_length (i : Instr) (db : BitVec 3) (s : State) (h : i.context = .length) :
    ∃ len, exec i s = runLength (Laws.EncodedSize.size db i) len s := by
  cases i <;> cases h <;> exact ⟨_, rfl⟩

theorem exec_of_context_offsetHigh (i : Instr) (db : BitVec 3) (s : State) (h : i.context = .offsetHigh) :
    ∃ high, exec i s = runOffsetHigh (Laws.EncodedSize.size db i) high s := by
  cases i <;> cases h <;> exact ⟨_, rfl⟩

theorem eq_toInstr_of_context_token (i : Instr) (h : i.context = .token) : ∃ tok : Token, i = tok.toInstr := by
  cases i with
  | lit b => exact ⟨.lit b, rfl⟩
  | copy len off => exact ⟨.copy len off, rfl⟩
  | eos => exact ⟨.eos, rfl⟩
  | _ => cases h

theorem eq_hdr_of_context_header (i : Instr) (h : i.context = .header) : ∃ m c, i = .hdr m c := by
  cases i with
  | hdr m c => exact ⟨m, c, rfl⟩
  | _ => cases h

/-- A legal `COPY` reads the bits of its row. -/
theorem copyFieldBits_eq_size (db : BitVec 3) (len : BitVec 10) (off : BitVec 12) (h : (Instr.copy len off).wf db = true) :
    copyFieldBits db len.toNat off.toNat = Laws.EncodedSize.size db (.copy len off) := by
  rw [← Laws.EncodedSize.copy len off db h]
  simp only [copyFieldBits, lengthBits, offsetHighBits, encode, List.length_cons, List.length_append, bitsOf_length]
  omega

/-! ## The decoder's step as one operation -/

/-- Mapping the result of a walk maps the result of its run. -/
theorem runWalk_bind_done {α β : Type} (w : Walk α) (f : α → β) (s : State) :
    runWalk (w.bind fun a => .done (f a)) s = (runWalk w s).bind fun a t => .got (f a) t := by
  induction w generalizing s with
  | done a => rfl
  | ask g ih =>
    simp only [Walk.bind_ask, runWalk]
    cases nextBit s with
    | got b t =>
      simp only [ih b t]
      cases runWalk (g b) t <;> rfl
    | raised e t => rfl
    | waiting t => rfl

/-- Outside the header a fetch is a decoder walk. -/
theorem fetchInstr_of_ne_header (ctx : Context) (s : State) (h : ctx ≠ .header) :
    fetchInstr ctx s = runWalk (decodeWalk ctx s.dictBits) s := by
  cases ctx with
  | header => exact absurd rfl h
  | token => rfl
  | length => rfl
  | offsetHigh => rfl

/-- In `DECODING` with no table walk asked for, the decoder's step is `decodeStep()` (R215). -/
theorem decoderStep_eq_decodeStep (s : State) (hs : s.state = .decoding) (hl : s.lookupReq = none) :
    decoderStep s = decodeStep s := by
  have hleave : leaveHeaderRead s = s := leaveHeaderRead_eq s (by rw [hs]; decide)
  unfold decoderStep decodeStep State.activity decodingActivity
  by_cases hc : s.copyRem = 0
  · simp only [hs, hl, hleave, hc, if_true, fetchInstr, decodeWalk, runWalk_bind_done]
    cases runWalk (decodeToken s.dictBits) s with
    | got tok t => exact exec_toInstr tok s
    | raised e t => rfl
    | waiting t => rfl
  · simp only [hs, hl, hleave, hc, if_false]

/-- In `INIT` the decoder's step is the header step (R212): too small a chunk raises before any byte is taken. -/
theorem decoderStep_init (s : State) (hs : s.state = .init) :
    decoderStep s =
      if s.chunkLen.toNat ≤ 2 then raise .chunkTooSmall { s with stepBits := [] }
      else settle (readHeader s) fun mc t => headerChecks mc.1 mc.2 t := by
  have hleave : leaveHeaderRead s = s := leaveHeaderRead_eq s (by rw [hs]; decide)
  unfold decoderStep State.activity
  simp only [hs, hleave, fetchInstr]
  split
  · rfl
  · next hl =>
    cases hr : readHeader s with
    | got mc t => simp only [Read.bind, settle, exec, execHdr, if_neg hl, hr]
    | raised e t => rfl
    | waiting t => rfl

end Sys2Proof.Machine
end

section
/-! SUPPORT. The invariant of a step boundary (spec/10_state.md R38): what each kind of step makes of it. -/

namespace Sys2Proof.Machine

/-! ## A step in progress -/

theorem decodeBits_nil (ctx : Context) (db : BitVec 3) : decodeBits ctx db [] = .error .bitsExhausted := by
  cases ctx <;> rfl

/-- At a step boundary there is no step in progress to speak of. -/
theorem stepOpen_of_stepBits_nil (s : State) (h : s.stepBits = []) : s.stepOpen = true := by
  unfold State.stepOpen
  rw [h]
  split <;> simp [decodeBits_nil]

/-- A step that has come to wait: it fetches, holds no beat, and has read too few bits for an instruction (R148, R259). -/
theorem stepOpen_of_waiting (s : State) (ctx : Context) (ha : s.activity = .fetch ctx) (ho : s.outHold = none)
    (hd : decodeBits ctx s.dictBits s.stepBits = .error .bitsExhausted) : s.stepOpen = true := by
  unfold State.stepOpen
  simp [ha, ho, hd]

/-- Where nothing is fetched no step is in progress. -/
theorem stepBits_of_stepOpen (s : State) (h : s.stepOpen = true) (ha : ∀ ctx, s.activity ≠ .fetch ctx) :
    s.stepBits = [] := by
  unfold State.stepOpen at h
  split at h
  · exact List.isEmpty_iff.mp h
  · exact List.isEmpty_iff.mp h
  · exact List.isEmpty_iff.mp h
  · next ctx hf => exact absurd hf (ha ctx)

/-- A step in progress stays one when the host's input is taken and the held beat handed over. -/
theorem stepOpen_ready (s : State) (h : s.stepOpen = true) : s.ready.stepOpen = true := by
  have ha : s.ready.activity = s.activity := by
    simp only [State.activity, decodingActivity, handOver_state, takeInput_state, handOver_lookupReq, takeInput_lookupReq,
      handOver_copyRem, takeInput_copyRem]
  have ho : s.outHold.isNone = true → s.ready.outHold.isNone = true := by
    unfold State.ready
    cases s.input.outReady <;> simp
  unfold State.stepOpen at h ⊢
  rw [ha]
  simp only [handOver_stepBits, takeInput_stepBits, handOver_dictBits, takeInput_dictBits]
  split
  · next hw => simpa only [hw] using h
  · next hw => simpa only [hw] using h
  · next hw => simpa only [hw] using h
  · next ctx hw =>
    simp only [hw, Bool.and_eq_true, Bool.or_eq_true] at h ⊢
    exact ⟨h.1.imp_right ho, h.2⟩

/-! ## The states outside a chunk's decoding -/

/-- Reset establishes the invariant; the dictionary alone is left as it was (R40). -/
theorem applyReset_inv (s : State) (hd : Memory.wf s.dict = true) : (applyReset s).Inv := by
  refine ⟨Nat.le_refl _, ?_, ?_, ?_, ?_, ?_, ?_, ?_, hd, stepOpen_of_stepBits_nil _ rfl⟩ <;>
    simp [State.headerValid, State.rangesOk, State.initFresh]

/-- `Start(L)` establishes it (R41). -/
theorem applyStart_inv (len : Len) (s : State) (hd : Memory.wf s.dict = true) : (applyStart len s).Inv := by
  refine ⟨Nat.le_refl _, ?_, ?_, ?_, ?_, ?_, ?_, ?_, hd, stepOpen_of_stepBits_nil _ rfl⟩ <;>
    simp [State.headerValid, State.rangesOk, State.initFresh]

/-- Taking the host's input and handing over the beat keep it. -/
theorem State.Inv.ready {s : State} (h : s.Inv) : s.ready.Inv := by
  obtain ⟨hb, hh, hr, hm, he, hi, hbc, hn, hd, ho⟩ := h
  have ho' := stepOpen_ready s ho
  unfold State.ready at ho' ⊢
  generalize s.input.outReady = r at ho' ⊢
  cases r <;> exact ⟨hb, hh, hr, hm, he, hi, hbc, hn, hd, ho'⟩

/-- Repeating the terminal beat keeps it (R228). -/
theorem State.Inv.emit_terminal {s : State} (h : s.Inv) (ha : s.activity = .repeatTerminal) (b : Beat) : (emit b s).Inv := by
  obtain ⟨hb, hh, hr, hm, he, hi, hbc, hn, hd, ho⟩ := h
  have hk := stepBits_of_stepOpen s ho (by rw [ha]; exact fun _ => nofun)
  have ho' : (emit b s).stepOpen = true := stepOpen_of_stepBits_nil _ (by rw [emit_stepBits, hk])
  cases b <;> exact ⟨hb, hh, hr, hm, he, hi, hbc, hn, hd, ho'⟩

/-- Raising an error establishes it, wherever in a step the error arises (R283). -/
theorem raisedState_inv (e : ErrCode) (u : State) (he : e ≠ .none) (hb : u.bytesRem ≤ u.chunkLen)
    (hm : u.mode = .copying ↔ u.copyRem ≠ 0) (hd : Memory.wf u.dict = true) (hk : u.stepBits = []) :
    (raisedState e u).Inv := by
  refine ⟨hb, ?_, ?_, hm, ?_, ?_, ?_, ?_, hd, stepOpen_of_stepBits_nil _ hk⟩ <;>
    simp [State.headerValid, State.rangesOk, State.initFresh, he]

/-- A failed read that raises an error leaves the registers that the invariant still speaks of (R227, R283). -/
theorem FailedRead.raisedState_inv {s u : State} {e : ErrCode} (h : FailedRead s u) (he : e ≠ .none)
    (hb : s.bytesRem ≤ s.chunkLen) (hm : s.mode = .copying ↔ s.copyRem ≠ 0) (hd : Memory.wf s.dict = true) :
    (raisedState e u).Inv := by
  have hbytes : u.bytesRem ≤ s.chunkLen := Nat.le_trans h.asked.le hb
  rw [h.frame]
  exact Machine.raisedState_inv e _ he hbytes hm hd rfl

/-! ## The errors reads raise -/

theorem fetchByte_raised_ne_none (s t : State) (e : ErrCode) (h : fetchByte s = .raised e t) : e ≠ .none := by
  obtain ⟨-, ⟨-, rfl, -⟩ | ⟨-, x, rest, -, -, ⟨-, rfl⟩ | ⟨-, rfl⟩⟩⟩ := fetchByte_raised s t e h <;> decide

/-- With `bc_errored` clear a walk raises one of the two cursor errors (R143, log entry 18). -/
theorem runWalk_raised_ne_none {α : Type} (w : Walk α) (s t : State) (e : ErrCode) (hbc : s.bcErrored = false)
    (h : runWalk w s = .raised e t) : e ≠ .none := by
  obtain ⟨u, hmoved, -, -, -, hread, -⟩ := runWalk_raised w s t e h
  obtain ⟨-, -, -, ⟨hset, -, -⟩ | ⟨-, hfetch⟩⟩ := readBit_raised u t e hread
  · rw [hmoved, hbc] at hset; cases hset
  · exact fetchByte_raised_ne_none u t e hfetch

theorem readHeader_raised_ne_none (s t : State) (e : ErrCode) (h : readHeader s = .raised e t) : e ≠ .none := by
  unfold readHeader at h
  cases hm : nextHeaderByte s with
  | waiting u => rw [hm] at h; cases h
  | raised e' u => rw [hm] at h; cases h; exact fetchByte_raised_ne_none _ _ _ (nextHeaderByte_raised _ _ _ hm).2
  | got m u =>
    rw [hm] at h
    simp only [Read.bind] at h
    cases hc : nextHeaderByte u with
    | got c v => rw [hc] at h; cases h
    | waiting v => rw [hc] at h; cases h
    | raised e' v => rw [hc] at h; cases h; exact fetchByte_raised_ne_none _ _ _ (nextHeaderByte_raised _ _ _ hc).2

/-! ## Decoding -/

/-- What the invariant says of `DECODING`, without the step in progress: it holds inside a step too, between a token's reads
and its effect. -/
structure DecodingInv (s : State) : Prop where
  state : s.state = .decoding
  bytes : s.bytesRem ≤ s.chunkLen
  dictMode : s.dictMode = 0
  sizeCode : legalSizeCode s.dictSizeCode.toNat = true
  dictBits : s.dictBits = s.dictSizeCode.setWidth 3
  first : s.first.toNat < capacity s.dictBits
  copyOff : s.copyOff.toNat < capacity s.dictBits
  copyRem : s.copyRem.toNat ≤ 517
  mode : s.mode = .copying ↔ s.copyRem ≠ 0
  errCode : s.errCode = .none
  bcErrored : s.bcErrored = false
  dict : Memory.wf s.dict = true

theorem State.Inv.decoding {s : State} (h : s.Inv) (hs : s.state = .decoding) : DecodingInv s := by
  obtain ⟨hb, hh, hr, hm, he, -, hbc, -, hd, -⟩ := h
  obtain ⟨hmode, hsize, hbits⟩ := hh (.inr (.inl hs))
  obtain ⟨hfirst, hoff, hrem⟩ := hr hs
  have hne : s.state ≠ .errored := by rw [hs]; decide
  exact ⟨hs, hb, hmode, hsize, hbits, hfirst, hoff, hrem, hm, Classical.not_not.mp (mt he.mp hne),
    Bool.eq_false_iff.mpr (mt hbc hne), hd⟩

theorem DecodingInv.inv {s : State} (h : DecodingInv s) (ho : s.stepOpen = true) : s.Inv := by
  refine ⟨h.bytes, fun _ => ⟨h.dictMode, h.sizeCode, h.dictBits⟩, fun _ => ⟨h.first, h.copyOff, h.copyRem⟩, h.mode,
    ?_, ?_, ?_, ?_, h.dict, ho⟩ <;>
    simp [State.initFresh, h.state, h.errCode, h.bcErrored]

/-- The size code's low three bits are the legal code. -/
theorem legalSizeCode_setWidth (c : Byte) (h : legalSizeCode c.toNat = true) :
    legalSizeCode (c.setWidth 3 : BitVec 3).toNat = true := by
  revert h; revert c; decide

theorem DecodingInv.legal {s : State} (h : DecodingInv s) : legalSizeCode s.dictBits.toNat = true :=
  h.dictBits ▸ legalSizeCode_setWidth _ h.sizeCode

/-- Reads keep it: the cursor, the source and the model's own fields are not in it. -/
theorem DecodingInv.of_frame {s t : State} (h : DecodingInv s) (hb : t.bytesRem.toNat ≤ s.bytesRem.toNat)
    (hf : t = { s with
      curByte := t.curByte, bitOff := t.bitOff, bytesRem := t.bytesRem, source := t.source, stepBits := t.stepBits
      lookupReq := t.lookupReq, lenVal := t.lenVal, highVal := t.highVal }) : DecodingInv t := by
  have hbytes : t.bytesRem ≤ s.chunkLen := Nat.le_trans hb h.bytes
  rw [hf]
  exact { h with bytes := hbytes }

theorem DecodingInv.afterBits {n : Nat} {s u : State} (h : DecodingInv s) (hu : AfterBits n s u) : DecodingInv u :=
  h.of_frame hu.taken.le (by rw [hu.frame])

/-- A walk that waits keeps the invariant: the step in progress has read too little for an instruction (R148). -/
theorem DecodingInv.waiting {s t : State} {ctx : Context} (h : DecodingInv s) (ha : s.activity = .fetch ctx)
    (ho : s.outHold = none) (hr : runWalk (decodeWalk ctx s.dictBits) s = .waiting t) : t.Inv := by
  obtain ⟨hmoved, htaken, hbits, -, -, -, -, -, hshort⟩ := runWalk_waiting _ s t hr
  have ht : DecodingInv t := h.of_frame htaken.le (by rw [hmoved])
  refine ht.inv (stepOpen_of_waiting t ctx ?_ ?_ ?_)
  · rw [← ha, hmoved]; rfl
  · rw [hmoved]; exact ho
  · rw [hbits]; rw [hmoved]; exact hshort

/-- A walk that fails raises an error with the invariant kept (R227, R283). -/
theorem DecodingInv.raised {α : Type} {s t : State} {w : Walk α} {e : ErrCode} (h : DecodingInv s)
    (hr : runWalk w s = .raised e t) : (raisedState e { t with stepBits := [] }).Inv :=
  (runWalk_failed w s t e hr).raisedState_inv (runWalk_raised_ne_none w s t e h.bcErrored hr) h.bytes h.mode h.dict

/-- `put` keeps the dictionary's registers in range and its memory canonical (R191). -/
theorem DecodingInv.putEmit {s t : State} {b : Byte} (h : DecodingInv s) (hk : s.stepBits = [])
    (ht : putEmit b s = .next t) : t.Inv := by
  obtain ⟨hram, hfirst, -, -, hframe⟩ := putEmit_next b s t ht
  have hlt : t.first.toNat < capacity s.dictBits := hfirst ▸ Nat.mod_lt _ (capacity_pos _)
  rw [hframe]
  exact DecodingInv.inv { h with first := hlt, dict := Memory.wf_store _ _ _ h.dict hram } (stepOpen_of_stepBits_nil _ hk)

/-- Copy registers in range keep it in range. -/
theorem DecodingInv.setCopy {s : State} (h : DecodingInv s) (off : BitVec 12) (n : BitVec 10) (m : Mode)
    (hoff : off.toNat < capacity s.dictBits) (hn : n.toNat ≤ 517) (hm : m = .copying ↔ n ≠ 0) :
    DecodingInv { s with copyOff := off, copyRem := n, mode := m } :=
  { h with copyOff := hoff, copyRem := hn, mode := hm }

/-- The offset put together from what the reads left is below the capacity (R168). -/
theorem copyOffset_lt (len off : Nat) (s : State) (h : legalSizeCode s.dictBits.toNat = true) :
    (copyOffset len off s).toNat < capacity s.dictBits := by
  have hlt := assembleOffset_lt s.highVal.toNat _ (off % 2 ^ lowBits s.dictBits len) s.highVal.isLt
    (Nat.mod_lt _ (Nat.two_pow_pos _))
  rw [copyOffset, BitVec.toNat_ofNat]
  exact Nat.lt_of_le_of_lt (Nat.mod_le _ _) (Nat.lt_of_lt_of_le hlt (lowBits_capacity s.dictBits len h).1)

/-- A legal length leaves 1 to 517 bytes after the copy's first (R221). -/
theorem copyRem_of_length (len : BitVec 10) (h2 : 2 ≤ len.toNat) (h518 : len.toNat ≤ 518) :
    (len - 1).toNat ≤ 517 ∧ len - 1 ≠ 0 := by
  constructor
  · bv_omega
  · intro h; bv_omega

theorem DecodingInv.copyStart {s t : State} {off : BitVec 12} (h : DecodingInv s) (hk : s.stepBits = [])
    (hoff : off.toNat < capacity s.dictBits) (h2 : 2 ≤ s.lenVal.toNat) (h518 : s.lenVal.toNat ≤ 518)
    (ht : copyStart off s = .next t) : t.Inv := by
  obtain ⟨u, rfl, hput⟩ := copyStart_next off s t ht
  obtain ⟨hle, hne⟩ := copyRem_of_length s.lenVal h2 h518
  exact (h.setCopy off _ .copying hoff hle (iff_of_true rfl hne)).putEmit hk hput

theorem DecodingInv.copyContinue {s t : State} (h : DecodingInv s) (hk : s.stepBits = []) (hc : s.copyRem ≠ 0)
    (ht : copyContinue s = .next t) : t.Inv := by
  obtain ⟨u, rfl, hput⟩ := copyContinue_next s t ht
  have hle : (s.copyRem - 1).toNat ≤ 517 := by have := h.copyRem; bv_omega
  refine (h.setCopy s.copyOff (s.copyRem - 1) _ h.copyOff hle ?_).putEmit hk hput
  split
  · next h0 => exact iff_of_false (by decide) (not_not_intro h0)
  · next h0 => exact iff_of_true (h.mode.mpr hc) h0

/-- `END` leaves the registers for `FINISHED` as they are (R224). -/
theorem DecodingInv.finished {s : State} (h : DecodingInv s) (hk : s.stepBits = []) :
    (emit .eos { s with state := .finished }).Inv := by
  refine ⟨h.bytes, fun _ => ⟨h.dictMode, h.sizeCode, h.dictBits⟩, ?_, h.mode, ?_, ?_, ?_, ?_, h.dict,
    stepOpen_of_stepBits_nil _ hk⟩ <;>
    simp [State.rangesOk, State.initFresh, h.errCode, h.bcErrored]

theorem DecodingInv.runToken {s t : State} {tok : Token} (h : DecodingInv s) (hwf : tok.toInstr.wf s.dictBits = true)
    (hn : Laws.EncodedSize.size s.dictBits tok.toInstr ≤ s.bitsReady) (ht : runToken tok s = .next t) : t.Inv := by
  cases tok with
  | lit b =>
    obtain ⟨u, hu, hexec⟩ := execLit_ready b s hn
    exact (h.afterBits hu).putEmit hu.stepBits (hexec.symm.trans ht)
  | copy len off =>
    obtain ⟨u, hu, hlen, hexec⟩ := execCopy_ready len off s (copyFieldBits_eq_size _ _ _ hwf ▸ hn)
    have hd := h.afterBits hu
    simp only [Token.toInstr, Instr.wf, Bool.and_eq_true, decide_eq_true_eq] at hwf
    obtain ⟨⟨⟨-, h2⟩, h518⟩, -⟩ := hwf
    exact hd.copyStart hu.stepBits (copyOffset_lt _ _ u hd.legal) (hlen ▸ h2) (hlen ▸ h518) (hexec.symm.trans ht)
  | eos =>
    obtain ⟨u, hu, hexec⟩ := execEos_ready s hn
    obtain rfl : emit .eos { u with state := .finished } = t := Host.Outcome.next.inj (hexec.symm.trans ht)
    exact (h.afterBits hu).finished hu.stepBits

/-- The end of a table walk asked for by itself. -/
theorem DecodingInv.lookupDone {n : Nat} {s u : State} (h : DecodingInv s) (hu : AfterBits n s u) :
    ({ u with lookupReq := none } : State).Inv :=
  have hdone : DecodingInv { u with lookupReq := none } := (h.afterBits hu).of_frame (Nat.le_refl _) rfl
  hdone.inv (stepOpen_of_stepBits_nil _ hu.stepBits)

/-- An instruction fetched while decoding keeps the invariant. -/
theorem DecodingInv.exec {s t : State} {i : Instr} (h : DecodingInv s) (hctx : i.context ≠ .header)
    (hwf : i.wf s.dictBits = true) (hn : Laws.EncodedSize.size s.dictBits i ≤ s.bitsReady) (ht : exec i s = .next t) :
    t.Inv := by
  cases hi : i.context with
  | header => exact absurd hi hctx
  | token =>
    obtain ⟨tok, rfl⟩ := eq_toInstr_of_context_token i hi
    exact h.runToken hwf hn (exec_toInstr tok s ▸ ht)
  | length =>
    obtain ⟨len, hexec⟩ := exec_of_context_length i s.dictBits s hi
    obtain ⟨u, hu, hrun⟩ := runLength_ready _ len s hn
    obtain rfl := Host.Outcome.next.inj ((hexec.trans hrun).symm.trans ht)
    exact h.lookupDone hu
  | offsetHigh =>
    obtain ⟨high, hexec⟩ := exec_of_context_offsetHigh i s.dictBits s hi
    obtain ⟨u, hu, hrun⟩ := runOffsetHigh_ready _ high s hn
    obtain rfl := Host.Outcome.next.inj ((hexec.trans hrun).symm.trans ht)
    exact h.lookupDone hu

/-- What `DECODING` does: a table walk asked for by itself, a token, or a copy in progress (R215). -/
theorem activity_decoding (s : State) (hs : s.state = .decoding) :
    (∃ ctx, ctx ≠ .header ∧ s.activity = .fetch ctx) ∨ (s.copyRem ≠ 0 ∧ s.activity = .continueCopy) := by
  unfold State.activity decodingActivity
  rw [hs]
  cases s.lookupReq with
  | some l => exact .inl ⟨l.context, by cases l <;> decide, rfl⟩
  | none =>
    by_cases hc : s.copyRem = 0
    · exact .inl ⟨.token, by decide, if_pos hc⟩
    · exact .inr ⟨hc, if_neg hc⟩

/-- The decoder's step keeps the invariant in `DECODING`. -/
theorem DecodingInv.decoderStep {s t : State} (h : DecodingInv s) (hopen : s.stepOpen = true) (ho : s.outHold = none)
    (ht : decoderStep s = .next t) : t.Inv := by
  have hleave : leaveHeaderRead s = s := leaveHeaderRead_eq s (by rw [h.state]; decide)
  rcases activity_decoding s h.state with ⟨ctx, hctx, ha⟩ | ⟨hc, ha⟩
  · unfold Machine.decoderStep at ht
    simp only [ha, hleave, fetchInstr_of_ne_header ctx s hctx] at ht
    rcases settle_next t _ _ ht with ⟨i, u, hr, hexec⟩ | ⟨e, u, hr, rfl⟩ | hr
    · obtain ⟨hn, hcontext, hwf⟩ := runWalk_decodeWalk_got ctx s u i hctx h.legal hr
      exact h.exec (hcontext ▸ hctx) hwf hn hexec
    · exact h.raised hr
    · exact h.waiting ha ho hr
  · unfold Machine.decoderStep at ht
    simp only [ha, hleave] at ht
    exact h.copyContinue (stepBits_of_stepOpen s hopen (by rw [ha]; exact fun _ => nofun)) hc ht

theorem DecodingInv.decodeStep {s t : State} (h : DecodingInv s) (hl : s.lookupReq = none) (hopen : s.stepOpen = true)
    (ho : s.outHold = none) (ht : decodeStep s = .next t) : t.Inv :=
  h.decoderStep hopen ho ((decoderStep_eq_decodeStep s h.state hl).trans ht)

/-! ## The header -/

/-- Eight bits are no header yet (R91). -/
theorem decodeHeader_of_eight_bits (db : BitVec 3) (bits : Bits) (h : bits.length = 8) :
    decodeBits .header db bits = .error .bitsExhausted := by
  unfold decodeBits decodeWalk decodeHeader
  rw [Walk.runBits_bind, Walk.runBits_readBits 8 bits (Nat.le_of_eq h.symm)]
  simp only [List.drop_eq_nil_of_le (Nat.le_of_eq h)]
  rfl

/-- In `INIT` after one header byte: the cursor stands at its end, and it is the only byte consumed (R145, R148). -/
theorem State.Inv.header_byte {s u : State} {m : Byte} (h : s.Inv) (hs : s.state = .init)
    (hm : nextHeaderByte s = .got m u) : u.bitOff = 8 ∧ u.bytesRem.toNat + 1 = s.chunkLen.toNat := by
  obtain ⟨-, -, -, -, -, hi, -⟩ := h
  obtain ⟨hbits, hoff, -⟩ := hi hs
  obtain ⟨-, -, -, -, ⟨hnil, hread⟩ | ⟨hne, -, rfl⟩⟩ := nextHeaderByte_got s u m hm
  · rcases hbits with ⟨-, hfull⟩ | ⟨h8, -⟩
    · obtain ⟨-, h0, hrem, hoff', -⟩ := readHeaderByte_got s u m hread
      obtain ⟨hpred, hpos⟩ := bytesRem_pred s.bytesRem h0
      refine ⟨hoff', ?_⟩
      rw [hrem, hpred, ← hfull]
      omega
    · rw [hnil] at h8; cases h8
  · rcases hbits with ⟨hnil, -⟩ | ⟨-, hone, -⟩
    · exact absurd hnil hne
    · exact ⟨hoff, hone⟩

/-- A header step that waits keeps the invariant (R148). -/
theorem State.Inv.header_waiting {s t : State} (h : s.Inv) (hs : s.state = .init) (ho : s.outHold = none)
    (hl : 2 < s.chunkLen.toNat) (hr : readHeader s = .waiting t) : t.Inv := by
  obtain ⟨-, -, -, -, -, ⟨rfl, -⟩ | ⟨m, u, hm, -, rfl⟩⟩ := readHeader_waiting s t hr
  · exact h
  obtain ⟨hoff, hrem⟩ := h.header_byte hs hm
  obtain ⟨hmoved, -⟩ := nextHeaderByte_got s u m hm
  obtain ⟨-, -, -, hcopy, he, hi, hbc, -, hd, -⟩ := h
  obtain ⟨-, -, hrest⟩ := hi hs
  have h8 : (bitsOf 8 m.toNat).length = 8 := bitsOf_length 8 _
  have hle : u.bytesRem ≤ s.chunkLen := by rw [BitVec.le_def]; omega
  rw [hmoved]
  refine ⟨hle, ?_, ?_, hcopy, he, fun _ => ⟨.inr ⟨h8, hrem, hl⟩, hoff, hrest⟩, hbc, ?_, hd,
    stepOpen_of_waiting _ .header ?_ ho (decodeHeader_of_eight_bits _ _ h8)⟩ <;>
    simp [State.headerValid, State.rangesOk, State.activity, hs]

/-- What the invariant says of `INIT` with no beat held, without the step in progress: it holds inside the header step too,
between its reads and its checks. -/
structure FreshInv (s : State) : Prop where
  bytes : s.bytesRem ≤ s.chunkLen
  mode : s.mode = .literal
  copyRem : s.copyRem = 0
  copyOff : s.copyOff = 0
  errCode : s.errCode = .none
  bcErrored : s.bcErrored = false
  lookupReq : s.lookupReq = none
  outHold : s.outHold = none
  dict : Memory.wf s.dict = true

theorem State.Inv.fresh {s : State} (h : s.Inv) (hs : s.state = .init) (ho : s.outHold = none) : FreshInv s := by
  obtain ⟨hb, -, -, -, -, hi, -, -, hd, -⟩ := h
  obtain ⟨-, -, hc, hm, he, hbc, hoff, hl⟩ := hi hs
  exact ⟨hb, hm, hc, hoff, he, hbc, hl, ho, hd⟩

theorem FreshInv.copying_iff {s : State} (h : FreshInv s) : s.mode = .copying ↔ s.copyRem ≠ 0 := by
  rw [h.mode, h.copyRem]; decide

/-- The header's reads keep it; the bits of the step in progress are not in it. -/
theorem FreshInv.readHeader {s u : State} {mc : Byte × Byte} (h : FreshInv s) (hr : readHeader s = .got mc u) :
    FreshInv { u with stepBits := [] } := by
  obtain ⟨hmoved, htaken, -⟩ := readHeader_got s u mc.1 mc.2 hr
  have hbytes : u.bytesRem ≤ s.chunkLen := Nat.le_trans htaken.le h.bytes
  rw [hmoved]
  exact { h with bytes := hbytes }

/-- A valid header leaves the registers as `DECODING` has them (R197, R212, R217). -/
theorem FreshInv.decoding {s : State} (h : FreshInv s) (c : Byte) (hc : legalSizeCode c.toNat = true) :
    DecodingInv { s with
      dictMode := 0, dictSizeCode := c, dictBits := c.setWidth 3, first := 0, state := .decoding } where
  state := rfl
  bytes := h.bytes
  dictMode := rfl
  sizeCode := hc
  dictBits := rfl
  first := capacity_pos _
  copyOff := by
    show s.copyOff.toNat < _
    rw [h.copyOff]
    exact capacity_pos _
  copyRem := by rw [h.copyRem]; decide
  mode := h.copying_iff
  errCode := h.errCode
  bcErrored := h.bcErrored
  dict := h.dict

/-- The checks of the header step keep the invariant, with the first token's step after a valid header (R212, R213, R217). -/
theorem FreshInv.headerChecks {s t : State} {m c : Byte} (h : FreshInv s) (hk : s.stepBits = [])
    (ht : headerChecks m c s = .next t) : t.Inv := by
  rcases headerChecks_next m c s t ht with ⟨-, rfl⟩ | ⟨rfl, hc, hstep⟩ | ⟨-, -, rfl⟩
  · exact raisedState_inv _ _ (by decide) h.bytes h.copying_iff h.dict hk
  · exact (h.decoding c hc).decodeStep h.lookupReq (stepOpen_of_stepBits_nil _ hk) h.outHold hstep
  · exact raisedState_inv _ _ (by decide) h.bytes h.copying_iff h.dict hk

/-- The header step keeps the invariant. -/
theorem State.Inv.decoderStep_init {s t : State} (h : s.Inv) (hs : s.state = .init) (ho : s.outHold = none)
    (ht : decoderStep s = .next t) : t.Inv := by
  have hfresh := h.fresh hs ho
  rw [Machine.decoderStep_init s hs] at ht
  split at ht
  · obtain rfl := Host.Outcome.next.inj ht
    exact raisedState_inv _ _ (by decide) hfresh.bytes hfresh.copying_iff hfresh.dict rfl
  · next hlen =>
    rcases settle_next t _ _ ht with ⟨mc, u, hr, hchecks⟩ | ⟨e, u, hr, rfl⟩ | hr
    · exact (hfresh.readHeader hr).headerChecks rfl hchecks
    · exact (readHeader_raised s u e hr).raisedState_inv (readHeader_raised_ne_none s u e hr) hfresh.bytes
        hfresh.copying_iff hfresh.dict
    · exact h.header_waiting hs ho (Nat.lt_of_not_le hlen) hr

/-! ## Every step -/

theorem decoderStep_idle (s : State) (hs : s.state = .idle) : decoderStep s = .next s := by
  unfold decoderStep State.activity; rw [hs]

/-- In a terminal state the decoder's step repeats the terminal beat (R228). -/
theorem decoderStep_terminal (s : State) (ha : s.activity = .repeatTerminal) : ∃ b, decoderStep s = .next (emit b s) := by
  have hterminal : decoderStep s = terminalStep s := by unfold decoderStep; rw [ha]
  rw [hterminal]
  unfold terminalStep
  split
  · exact ⟨_, rfl⟩
  · exact ⟨_, rfl⟩

theorem State.Inv.decoderStep_terminal {s t : State} (h : s.Inv) (ha : s.activity = .repeatTerminal)
    (ht : decoderStep s = .next t) : t.Inv := by
  obtain ⟨b, hb⟩ := Machine.decoderStep_terminal s ha
  exact Host.Outcome.next.inj (hb.symm.trans ht) ▸ h.emit_terminal ha b

theorem State.Inv.decoderStep {s t : State} (h : s.Inv) (ho : s.outHold = none) (ht : decoderStep s = .next t) : t.Inv := by
  have ⟨_, _, _, _, _, _, _, hn, _, hopen⟩ := h
  cases hs : s.state with
  | idle => exact Host.Outcome.next.inj ((decoderStep_idle s hs).symm.trans ht) ▸ h
  | init => exact h.decoderStep_init hs ho ht
  | headerRead => exact absurd hs hn
  | decoding => exact (h.decoding hs).decoderStep hopen ho ht
  | finished => exact h.decoderStep_terminal (by unfold State.activity; rw [hs]) ht
  | errored => exact h.decoderStep_terminal (by unfold State.activity; rw [hs]) ht

theorem State.Inv.blockStep {s t : State} (h : s.Inv) (ht : blockStep s = .next t) : t.Inv := by
  rcases blockStep_cases s with ⟨-, hheld⟩ | ⟨ho, hstep⟩
  · exact Host.Outcome.next.inj (hheld.symm.trans ht) ▸ h
  · exact h.decoderStep ho (hstep.symm.trans ht)

/-- Settles O42: by what the step is (`step_cases`), then by the state the decoder is in. -/
theorem stepKeepsInvariant : Obligations.StepKeepsInvariant := by
  intro s t h ht
  have ⟨_, _, _, _, _, _, _, _, hd, _⟩ := h
  rcases step_cases s with ⟨-, hstep⟩ | ⟨len, -, -, hstep⟩ | ⟨-, -, hstep⟩ <;> rw [hstep] at ht
  · exact Host.Outcome.next.inj ht ▸ applyReset_inv (takeInput s) hd
  · exact Host.Outcome.next.inj ht ▸ applyStart_inv len (takeInput s) hd
  · exact h.ready.blockStep ht

/-! ## Reset and `Start` -/

/-- Settles O38. -/
theorem resetValues : Obligations.ResetValues :=
  ⟨rfl, rfl, rfl, rfl, rfl, rfl, rfl, rfl, rfl, rfl, rfl, rfl, rfl⟩

/-- Nothing has been emitted at reset, so there is no history yet. -/
theorem reset_history : State.reset.History :=
  ⟨fun _ => rfl, fun h => h.elim nofun (absurd rfl)⟩

/-- Settles O39: reset is `applyReset` of itself. -/
theorem resetMeetsInvariants : Obligations.ResetMeetsInvariants :=
  ⟨applyReset_inv State.reset Memory.wf_reset, reset_history, rfl⟩

/-- Settles O41. -/
theorem startFromAnyState : Obligations.StartFromAnyState := by
  intro s len hrst hstart
  exact ⟨applyStart len (takeInput s), step_start s len hrst hstart, rfl, rfl, rfl, rfl, rfl, rfl, rfl, rfl, rfl, rfl, rfl,
    rfl, rfl, rfl, rfl, rfl, fun _ => rfl⟩

end Sys2Proof.Machine
end

section
/-! SUPPORT. The program counter `bitpos` (spec/10_state.md R31): which operations move it, and that none but reset and `Start`
moves it back. These hold in every state, reachable or not. -/

namespace Sys2Proof.Machine

/-! ## What leaves `bitpos` alone -/

@[simp] theorem emit_bitpos (b : Beat) (s : State) : (emit b s).bitpos = s.bitpos := by cases b <;> rfl

@[simp] theorem leaveHeaderRead_bitpos (s : State) : (leaveHeaderRead s).bitpos = s.bitpos := by simp [State.bitpos]

@[simp] theorem ready_bitpos (s : State) : s.ready.bitpos = s.bitpos := by simp [State.bitpos]

theorem putEmit_bitpos {b : Byte} {s t : State} (h : putEmit b s = .next t) : t.bitpos = s.bitpos := by
  obtain ⟨-, -, -, -, hframe⟩ := putEmit_next b s t h
  rw [hframe]
  rfl

theorem copyStart_bitpos {off : BitVec 12} {s t : State} (h : copyStart off s = .next t) : t.bitpos = s.bitpos := by
  obtain ⟨u, rfl, hput⟩ := copyStart_next off s t h
  exact (putEmit_bitpos hput :)

theorem copyContinue_bitpos {s t : State} (h : copyContinue s = .next t) : t.bitpos = s.bitpos := by
  obtain ⟨u, rfl, hput⟩ := copyContinue_next s t h
  exact (putEmit_bitpos hput :)

/-! ## What a step's reads do to it -/

theorem AfterBits.bitpos_le {n : Nat} {s u : State} (h : AfterBits n s u) : s.bitpos ≤ u.bitpos := by
  rw [h.bitpos]
  omega

/-- A step that waits stands at the end of the last byte delivered, no earlier than it began (R148). -/
theorem Waits.bitpos_le {s t : State} (h : Waits s t) : s.bitpos ≤ t.bitpos := by
  have hchunk : t.chunkLen = s.chunkLen := by rw [h.frame]
  have hend : t.bitOff.val = 8 := by rw [h.byteEnd]; rfl
  have hrem := h.taken.le
  have hoff := s.bitOff.isLt
  simp only [State.bitpos, hchunk, hend]
  omega

/-- The bits of an instruction are read, or their read fails, or it waits: the cursor never goes back. -/
theorem bitpos_le_of_reads {s t : State} {done : Prop} (hdone : done → s.bitpos ≤ t.bitpos)
    (h : done ∨ (∃ e u, FailedRead s u ∧ t = raisedState e u) ∨ Waits s t) : s.bitpos ≤ t.bitpos := by
  rcases h with h | ⟨e, u, hfailed, rfl⟩ | hwaits
  · exact hdone h
  · exact hfailed.mono
  · exact hwaits.bitpos_le

theorem runToken_bitpos_le {tok : Token} {s t : State} (h : runToken tok s = .next t) : s.bitpos ≤ t.bitpos := by
  cases tok with
  | lit b =>
    refine bitpos_le_of_reads ?_ (execLit_next b s t h)
    rintro ⟨u, hu, -, -, hput⟩
    exact putEmit_bitpos hput ▸ hu.bitpos_le
  | copy len off =>
    refine bitpos_le_of_reads ?_ (execCopy_next len off s t h)
    rintro ⟨u, hu, -, -, hcopy⟩
    exact copyStart_bitpos hcopy ▸ hu.bitpos_le
  | eos =>
    refine bitpos_le_of_reads ?_ (execEos_next s t h)
    rintro ⟨u, hu, -, -, rfl⟩
    exact hu.bitpos_le

theorem decodeStep_bitpos_le {s t : State} (h : decodeStep s = .next t) : s.bitpos ≤ t.bitpos := by
  rcases decodeStep_next s t h with ⟨-, hcopy⟩ | ⟨-, htoken⟩
  · exact (copyContinue_bitpos hcopy).ge
  · refine bitpos_le_of_reads ?_ (htoken.imp_right (Or.imp_right And.left))
    rintro ⟨tok, u, -, hrun⟩
    exact runToken_bitpos_le hrun

theorem headerChecks_bitpos_le {m c : Byte} {s t : State} (h : headerChecks m c s = .next t) : s.bitpos ≤ t.bitpos := by
  rcases headerChecks_next m c s t h with ⟨-, rfl⟩ | ⟨-, -, hstep⟩ | ⟨-, -, rfl⟩
  · exact Int.le_refl s.bitpos
  · exact (decodeStep_bitpos_le hstep :)
  · exact Int.le_refl s.bitpos

theorem readHeader_waiting_bitpos_le {s t : State} (h : readHeader s = .waiting t) : s.bitpos ≤ t.bitpos := by
  obtain ⟨-, -, hle, -⟩ := readHeader_waiting s t h
  exact hle

theorem execHdr_bitpos_le {m c : Byte} {s t : State} (h : execHdr m c s = .next t) : s.bitpos ≤ t.bitpos := by
  rcases execHdr_next m c s t h with ⟨-, rfl⟩ | ⟨-, ⟨mc, u, hread, hchecks⟩ | ⟨e, u, hfailed, rfl⟩ | hwaits⟩
  · exact Int.le_refl s.bitpos
  · obtain ⟨-, -, hle, -⟩ := readHeader_got s u mc.1 mc.2 hread
    exact Int.le_trans hle (headerChecks_bitpos_le hchecks :)
  · exact hfailed.mono
  · exact readHeader_waiting_bitpos_le hwaits

theorem exec_bitpos_le {i : Instr} {s t : State} (h : exec i s = .next t) : s.bitpos ≤ t.bitpos := by
  cases hi : i.context with
  | header =>
    obtain ⟨m, c, rfl⟩ := eq_hdr_of_context_header i hi
    exact execHdr_bitpos_le h
  | token =>
    obtain ⟨tok, rfl⟩ := eq_toInstr_of_context_token i hi
    exact runToken_bitpos_le ((exec_toInstr tok s).symm.trans h)
  | length =>
    obtain ⟨len, hexec⟩ := exec_of_context_length i s.dictBits s hi
    refine bitpos_le_of_reads ?_ (runLength_next _ len s t (hexec.symm.trans h))
    rintro ⟨u, hu, -, -, rfl⟩
    exact hu.bitpos_le
  | offsetHigh =>
    obtain ⟨high, hexec⟩ := exec_of_context_offsetHigh i s.dictBits s hi
    refine bitpos_le_of_reads ?_ (runOffsetHigh_next _ high s t (hexec.symm.trans h))
    rintro ⟨u, hu, -, -, rfl⟩
    exact hu.bitpos_le

/-! ## What a fetch does to it -/

theorem fetchInstr_raised_bitpos_le {ctx : Context} {s u : State} {e : ErrCode} (h : fetchInstr ctx s = .raised e u) :
    s.bitpos ≤ u.bitpos := by
  by_cases hctx : ctx = .header
  · subst hctx
    simp only [fetchInstr] at h
    split at h
    · cases h; exact Int.le_refl s.bitpos
    · cases hr : readHeader s with
      | got mc v => rw [hr] at h; cases h
      | waiting v => rw [hr] at h; cases h
      | raised e' v => rw [hr] at h; cases h; exact (readHeader_raised s u e hr).mono
  · rw [fetchInstr_of_ne_header ctx s hctx] at h
    exact (runWalk_failed _ s u e h).mono

theorem fetchInstr_waiting_bitpos_le {ctx : Context} {s u : State} (h : fetchInstr ctx s = .waiting u) :
    s.bitpos ≤ u.bitpos := by
  by_cases hctx : ctx = .header
  · subst hctx
    simp only [fetchInstr] at h
    split at h
    · cases h
    · cases hr : readHeader s with
      | got mc v => rw [hr] at h; cases h
      | raised e v => rw [hr] at h; cases h
      | waiting v => rw [hr] at h; cases h; exact readHeader_waiting_bitpos_le hr
  · rw [fetchInstr_of_ne_header ctx s hctx] at h
    exact (runWalk_waits _ s u h).bitpos_le

/-! ## Every step -/

theorem decoderStep_bitpos_le {s t : State} (h : decoderStep s = .next t) : s.bitpos ≤ t.bitpos := by
  rw [← leaveHeaderRead_bitpos s]
  rcases decoderStep_next s t h with ⟨-, rfl⟩ | ⟨-, rfl⟩ | ⟨-, hcopy⟩ |
    ⟨ctx, -, ⟨i, u, -, hexec⟩ | ⟨e, u, hraised, rfl⟩ | hwaits⟩
  · simp
  · simp
  · exact (copyContinue_bitpos hcopy).ge
  · exact exec_bitpos_le hexec
  · exact (fetchInstr_raised_bitpos_le hraised :)
  · exact fetchInstr_waiting_bitpos_le hwaits

/-- Settles O16: a held beat leaves `bitpos`, and the decoder's step never moves it back. -/
theorem bitposOnlyGrows : Obligations.BitposOnlyGrows := by
  intro s t hrst hstart h
  rw [step_block s hrst hstart] at h
  rw [← ready_bitpos s]
  rcases blockStep_cases s.ready with ⟨-, hheld⟩ | ⟨-, hstep⟩
  · exact Host.Outcome.next.inj (hheld.symm.trans h) ▸ Int.le_refl _
  · exact decoderStep_bitpos_le (hstep.symm.trans h)

end Sys2Proof.Machine
end

section
/-! SUPPORT. The dictionary holds the newest output (spec/20_memory.md R65, spec/42_sliding_dictionary.md R197): what `put` makes
of it, and that the rest of a step leaves it alone. -/

namespace Sys2Proof.Machine

/-! ## The history once the header is read -/

/-- What the history says of the states after `INIT`: it holds inside a step too, between a token's reads and its effect, and
between a valid header and the first token. -/
structure NewestStored (s : State) : Prop where
  pastInit : s.state ≠ .init
  first : s.first.toNat = s.out.length % capacity s.dictBits
  newest : ∀ k, k < min s.out.length (capacity s.dictBits) →
    s.out.reverse[k]? = some (s.slot ((capacity s.dictBits + s.first.toNat - k) % capacity s.dictBits))

theorem NewestStored.history {s : State} (h : NewestStored s) : s.History :=
  ⟨fun hinit => absurd hinit h.pastInit, fun _ => ⟨h.first, h.newest⟩⟩

theorem State.History.newestStored {s : State} (h : s.History) (hs : s.state = .decoding) : NewestStored s := by
  obtain ⟨hfirst, hnewest⟩ := h.2 (.inl hs)
  exact ⟨by rw [hs]; decide, hfirst, hnewest⟩

/-- Where nothing has been emitted and no token runs there is no history to hold. -/
theorem history_of_out_nil {s : State} (ho : s.out = []) (hs : s.state ≠ .decoding) : s.History :=
  ⟨fun _ => ho, fun h => h.elim (absurd · hs) (absurd ho)⟩

/-- One step back from the next address is the present one, and as long as no full turn is made the next address is not met. -/
theorem stepBack_of_next (c f k : Nat) (hf : f < c) (hk : k + 1 < c) :
    (c + (f + 1) % c - (k + 1)) % c = (c + f - k) % c ∧ (c + f - k) % c ≠ (f + 1) % c := by
  have hback : (c + f - k) % c = if k ≤ f then f - k else c + f - k := by
    split
    · rw [show c + f - k = (f - k) + c by omega, Nat.add_mod_right, Nat.mod_eq_of_lt (by omega)]
    · exact Nat.mod_eq_of_lt (by omega)
  by_cases hwrap : f + 1 = c
  · rw [hback, hwrap, Nat.mod_self, if_pos (by omega), Nat.mod_eq_of_lt (by omega)]
    omega
  · rw [Nat.mod_eq_of_lt (show f + 1 < c by omega), show c + (f + 1) - (k + 1) = c + f - k by omega, hback]
    refine ⟨rfl, ?_⟩
    split <;> omega

/-- `put` makes its byte the newest, one address on, and every earlier one that is still counted stays where it was (R191). -/
theorem NewestStored.putEmit {s t : State} {b : Byte} (h : NewestStored s) (ht : putEmit b s = .next t) : NewestStored t := by
  obtain ⟨-, hfirst, hnew, hold, hframe⟩ := putEmit_next b s t ht
  have hstate : t.state = s.state := by rw [hframe]
  have hbits : t.dictBits = s.dictBits := by rw [hframe]
  have hout : t.out = s.out ++ [b] := by rw [hframe]
  have hlt : s.first.toNat < capacity s.dictBits := h.first ▸ Nat.mod_lt _ (capacity_pos _)
  refine ⟨hstate ▸ h.pastInit, ?_, fun k hk => ?_⟩
  · rw [hfirst, hout, hbits, List.length_append, List.length_singleton, putIndex, h.first, Nat.mod_add_mod]
  rw [hout, List.length_append, List.length_singleton, hbits] at hk
  rw [hout, hbits, hfirst, List.reverse_append, List.reverse_singleton, List.singleton_append]
  cases k with
  | zero =>
    have hindex : (capacity s.dictBits + putIndex s - 0) % capacity s.dictBits = putIndex s := by
      rw [Nat.sub_zero, Nat.add_mod_left, putIndex, Nat.mod_mod]
    rw [hindex, hnew, List.getElem?_cons_zero]
  | succ k =>
    obtain ⟨hindex, hne⟩ := stepBack_of_next (capacity s.dictBits) s.first.toNat k hlt (by omega)
    rw [List.getElem?_cons_succ, h.newest k (by omega), putIndex, hindex, hold _ hne]

/-- The copy registers are not in it. -/
theorem NewestStored.setCopy {s : State} (h : NewestStored s) (off : BitVec 12) (n : BitVec 10) (m : Mode) :
    NewestStored { s with copyOff := off, copyRem := n, mode := m } :=
  ⟨h.pastInit, h.first, h.newest⟩

theorem NewestStored.copyStart {s t : State} {off : BitVec 12} (h : NewestStored s) (ht : copyStart off s = .next t) :
    NewestStored t := by
  obtain ⟨u, rfl, hput⟩ := copyStart_next off s t ht
  exact (h.setCopy off _ _).putEmit hput

theorem NewestStored.copyContinue {s t : State} (h : NewestStored s) (ht : copyContinue s = .next t) : NewestStored t := by
  obtain ⟨u, rfl, hput⟩ := copyContinue_next s t ht
  exact (h.setCopy s.copyOff _ _).putEmit hput

/-! ## Reads leave it alone -/

theorem NewestStored.afterBits {n : Nat} {s u : State} (h : NewestStored s) (hu : AfterBits n s u) : NewestStored u := by
  rw [hu.frame]
  exact ⟨h.pastInit, h.first, h.newest⟩

theorem NewestStored.raised {s u : State} {e : ErrCode} (h : NewestStored s) (hu : FailedRead s u) :
    NewestStored (raisedState e u) := by
  rw [hu.frame]
  exact ⟨nofun, h.first, h.newest⟩

theorem NewestStored.waits {s t : State} (h : NewestStored s) (ht : Waits s t) : NewestStored t := by
  rw [ht.frame]
  exact ⟨h.pastInit, h.first, h.newest⟩

/-- The bits of an instruction are read, or their read fails, or it waits. -/
theorem NewestStored.of_reads {s t : State} {done : Prop} (h : NewestStored s) (hdone : done → NewestStored t)
    (ht : done ∨ (∃ e u, FailedRead s u ∧ t = raisedState e u) ∨ Waits s t) : NewestStored t := by
  rcases ht with hd | ⟨e, u, hfailed, rfl⟩ | hwaits
  · exact hdone hd
  · exact h.raised hfailed
  · exact h.waits hwaits

theorem NewestStored.runToken {tok : Token} {s t : State} (h : NewestStored s) (ht : runToken tok s = .next t) :
    NewestStored t := by
  cases tok with
  | lit b =>
    refine h.of_reads ?_ (execLit_next b s t ht)
    rintro ⟨u, hu, -, -, hput⟩
    exact (h.afterBits hu).putEmit hput
  | copy len off =>
    refine h.of_reads ?_ (execCopy_next len off s t ht)
    rintro ⟨u, hu, -, -, hcopy⟩
    exact (h.afterBits hu).copyStart hcopy
  | eos =>
    refine h.of_reads ?_ (execEos_next s t ht)
    rintro ⟨u, hu, -, -, rfl⟩
    have hd := h.afterBits hu
    exact ⟨nofun, hd.first, hd.newest⟩

theorem NewestStored.decodeStep {s t : State} (h : NewestStored s) (ht : decodeStep s = .next t) : NewestStored t := by
  rcases decodeStep_next s t ht with ⟨-, hcopy⟩ | ⟨-, htoken⟩
  · exact h.copyContinue hcopy
  · refine h.of_reads ?_ (htoken.imp_right (Or.imp_right And.left))
    rintro ⟨tok, u, -, hrun⟩
    exact h.runToken hrun

/-- The end of a table walk asked for by itself. -/
theorem NewestStored.lookupDone {n : Nat} {s u : State} (h : NewestStored s) (hu : AfterBits n s u) :
    NewestStored { u with lookupReq := none } :=
  have hd := h.afterBits hu
  ⟨hd.pastInit, hd.first, hd.newest⟩

theorem NewestStored.exec {s t : State} {i : Instr} (h : NewestStored s) (hctx : i.context ≠ .header)
    (ht : exec i s = .next t) : NewestStored t := by
  cases hi : i.context with
  | header => exact absurd hi hctx
  | token =>
    obtain ⟨tok, rfl⟩ := eq_toInstr_of_context_token i hi
    exact h.runToken ((exec_toInstr tok s).symm.trans ht)
  | length =>
    obtain ⟨len, hexec⟩ := exec_of_context_length i s.dictBits s hi
    refine h.of_reads ?_ (runLength_next _ len s t (hexec.symm.trans ht))
    rintro ⟨u, hu, -, -, rfl⟩
    exact h.lookupDone hu
  | offsetHigh =>
    obtain ⟨high, hexec⟩ := exec_of_context_offsetHigh i s.dictBits s hi
    refine h.of_reads ?_ (runOffsetHigh_next _ high s t (hexec.symm.trans ht))
    rintro ⟨u, hu, -, -, rfl⟩
    exact h.lookupDone hu

/-! ## Every step -/

/-- A valid header starts the history anew: `first` is 0 and nothing has been emitted (R197). -/
theorem newestStored_of_validHeader (c : Byte) (s : State) (ho : s.out = []) :
    NewestStored { s with
      dictMode := 0, dictSizeCode := c, dictBits := c.setWidth 3, first := 0, state := .decoding } where
  pastInit := nofun
  first := by simp [ho]
  newest k hk := by simp [ho] at hk

theorem headerChecks_history {m c : Byte} {s t : State} (ho : s.out = []) (ht : headerChecks m c s = .next t) :
    t.History := by
  rcases headerChecks_next m c s t ht with ⟨-, rfl⟩ | ⟨rfl, -, hstep⟩ | ⟨-, -, rfl⟩
  · exact history_of_out_nil ho nofun
  · exact ((newestStored_of_validHeader c s ho).decodeStep hstep).history
  · exact history_of_out_nil ho nofun

/-- The header step: nothing has been emitted before the first token runs. -/
theorem decoderStep_init_history {s t : State} (hs : s.state = .init) (ho : s.out = []) (ht : decoderStep s = .next t) :
    t.History := by
  rw [decoderStep_init s hs] at ht
  split at ht
  · exact Host.Outcome.next.inj ht ▸ history_of_out_nil ho nofun
  rcases settle_next t _ _ ht with ⟨mc, u, hr, hchecks⟩ | ⟨e, u, hr, rfl⟩ | hr
  · obtain ⟨hmoved, -⟩ := readHeader_got s u mc.1 mc.2 hr
    exact headerChecks_history (by rw [hmoved]; exact ho) hchecks
  · have hframe := (readHeader_raised s u e hr).frame
    exact history_of_out_nil ((congrArg State.out hframe).trans ho) nofun
  · obtain ⟨hmoved, -⟩ := readHeader_waiting s t hr
    exact history_of_out_nil (by rw [hmoved]; exact ho) (by rw [hmoved, hs]; decide)

/-- In `DECODING` the decoder's step keeps the history: what it fetches is no header, so `first` is not set anew. -/
theorem DecodingInv.decoderStep_history {s t : State} (h : DecodingInv s) (hh : s.History)
    (ht : Machine.decoderStep s = .next t) : t.History := by
  have hnew := hh.newestStored h.state
  have hleave : leaveHeaderRead s = s := leaveHeaderRead_eq s (by rw [h.state]; decide)
  unfold Machine.decoderStep at ht
  rcases activity_decoding s h.state with ⟨ctx, hctx, ha⟩ | ⟨-, ha⟩
  · simp only [ha, hleave, fetchInstr_of_ne_header ctx s hctx] at ht
    rcases settle_next t _ _ ht with ⟨i, u, hr, hexec⟩ | ⟨e, u, hr, rfl⟩ | hr
    · obtain ⟨-, hcontext, -⟩ := runWalk_decodeWalk_got ctx s u i hctx h.legal hr
      exact (hnew.exec (hcontext ▸ hctx) hexec).history
    · exact (hnew.raised (runWalk_failed _ s u e hr)).history
    · exact (hnew.waits (runWalk_waits _ s t hr)).history
  · simp only [ha, hleave] at ht
    exact (hnew.copyContinue ht).history

/-- Repeating a terminal beat emits no byte (R228). -/
theorem State.History.decoderStep_terminal {s t : State} (h : s.History) (ha : s.activity = .repeatTerminal)
    (ht : decoderStep s = .next t) : t.History := by
  have hterminal : Machine.decoderStep s = terminalStep s := by unfold Machine.decoderStep; rw [ha]
  rw [hterminal] at ht
  unfold terminalStep at ht
  split at ht
  · exact Host.Outcome.next.inj ht ▸ h
  · exact Host.Outcome.next.inj ht ▸ h

theorem State.History.decoderStep {s t : State} (h : s.History) (hinv : s.Inv) (ht : decoderStep s = .next t) :
    t.History := by
  have ⟨_, _, _, _, _, _, _, hn, _, _⟩ := hinv
  cases hs : s.state with
  | idle => exact Host.Outcome.next.inj ((decoderStep_idle s hs).symm.trans ht) ▸ h
  | init => exact decoderStep_init_history hs (h.1 hs) ht
  | headerRead => exact absurd hs hn
  | decoding => exact (hinv.decoding hs).decoderStep_history h ht
  | finished => exact h.decoderStep_terminal (by unfold State.activity; rw [hs]) ht
  | errored => exact h.decoderStep_terminal (by unfold State.activity; rw [hs]) ht

/-- Taking the host's input and handing over the beat touch neither `OUT` nor the dictionary. -/
theorem State.History.ready {s : State} (h : s.History) : s.ready.History := by
  unfold State.ready
  generalize s.input.outReady = r
  cases r <;> exact h

/-- Settles O44: reset and `Start` leave nothing emitted, and only `put` extends the history. -/
theorem stepKeepsHistory : Obligations.StepKeepsHistory := by
  intro s t hinv h ht
  rcases step_cases s with ⟨-, hstep⟩ | ⟨len, -, -, hstep⟩ | ⟨-, -, hstep⟩ <;> rw [hstep] at ht
  · exact Host.Outcome.next.inj ht ▸ history_of_out_nil rfl nofun
  · exact Host.Outcome.next.inj ht ▸ history_of_out_nil rfl nofun
  · rcases blockStep_cases s.ready with ⟨-, hheld⟩ | ⟨-, hrun⟩
    · exact Host.Outcome.next.inj (hheld.symm.trans ht) ▸ h.ready
    · exact h.ready.decoderStep hinv.ready (hrun.symm.trans ht)

end Sys2Proof.Machine
end

section
/-! SUPPORT. Which of the source's answers a step takes (spec/20_memory.md R62, spec/44_host_interface.md R254): bytes, each
counted by `bytes_rem`, and at most one answer that is no byte and ends the step in an error. These hold in every state. -/

namespace Sys2Proof.Machine

/-- From `s` to `t` the source delivered bytes, counted by `bytes_rem`, and perhaps one answer more, which was no byte. -/
def BytesThenNonByte (s t : State) : Prop :=
  ∃ used last, s.source = used ++ (last ++ t.source) ∧ (∀ x ∈ used, ∃ v, x.answer = .byte v) ∧ last.length ≤ 1 ∧
    (∀ x ∈ last, ∀ v, x.answer ≠ .byte v) ∧ t.bytesRem.toNat + used.length = s.bytesRem.toNat

theorem BytesTaken.thenNothing {s t : State} (h : BytesTaken s t) : BytesThenNonByte s t := by
  obtain ⟨used, hsource, hbytes, hrem⟩ := h
  exact ⟨used, [], hsource, hbytes, Nat.zero_le _, nofun, hrem⟩

theorem BytesTaken.thenNonByte {s t u : State} (h : BytesTaken s t) (h' : BytesThenNonByte t u) : BytesThenNonByte s u := by
  obtain ⟨used, hsource, hbytes, hrem⟩ := h
  obtain ⟨used', last, hsource', hbytes', hlast, hno, hrem'⟩ := h'
  refine ⟨used ++ used', last, by rw [hsource, hsource', List.append_assoc], fun x hx => ?_, hlast, hno,
    by rw [List.length_append]; omega⟩
  exact (List.mem_append.mp hx).elim (hbytes x) (hbytes' x)

theorem bytesTaken_of_eq {s t : State} (hsource : t.source = s.source) (hrem : t.bytesRem = s.bytesRem) : BytesTaken s t :=
  ⟨[], hsource.symm, nofun, by rw [hrem]; rfl⟩

/-! ## Reads -/

/-- What a read from `s` may take of the source: bytes, and one answer more only where it raises. -/
def Read.Asks {α : Type} (s : State) : Read α → Prop
  | .got _ t => BytesTaken s t
  | .raised _ t => BytesThenNonByte s t
  | .waiting t => BytesTaken s t

theorem BytesTaken.thenAsks {α : Type} {s t : State} {r : Read α} (h : BytesTaken s t) (hr : r.Asks t) : r.Asks s := by
  cases r with
  | got a u => exact h.trans hr
  | raised e u => exact h.thenNonByte hr
  | waiting u => exact h.trans hr

theorem Read.Asks.bind {α β : Type} {s : State} {r : Read α} {f : α → State → Read β} (h : r.Asks s)
    (hf : ∀ a t, (f a t).Asks t) : (r.bind f).Asks s := by
  cases r with
  | got a t => exact BytesTaken.thenAsks h (hf a t)
  | raised e t => exact h
  | waiting t => exact h

theorem Read.Asks.remember {α : Type} {s : State} {r : Read α} (h : r.Asks s) (b : Bool) : (r.remember b).Asks s := by
  cases r <;> exact h

theorem Read.Asks.rememberByte {α : Type} {s : State} {r : Read α} (h : r.Asks s) (v : Byte) :
    (r.rememberByte v).Asks s := by
  cases r <;> exact h

/-- `fetchByte()` takes one byte, or one answer that is none, or nothing (R142). -/
theorem fetchByte_asks (s : State) : (fetchByte s).Asks s := by
  cases hf : fetchByte s with
  | got a t =>
    obtain ⟨hdue, x, v, rest, hsource, hx, rfl⟩ := fetchByte_got s t hf
    obtain ⟨hpred, hpos⟩ := bytesRem_pred s.bytesRem hdue
    exact ⟨[x], hsource, by simp [hx], by simp only [hpred, List.length_singleton]; omega⟩
  | raised e t =>
    obtain ⟨hframe, hcause⟩ := fetchByte_raised s t e hf
    have hrem : t.bytesRem = s.bytesRem := by rw [hframe]
    rcases hcause with ⟨-, -, hsource⟩ | ⟨-, x, rest, hsource, rfl, ⟨hx, -⟩ | ⟨hx, -⟩⟩
    · exact ⟨[], [], hsource.symm, nofun, Nat.zero_le _, nofun, by rw [hrem]; rfl⟩
    · exact ⟨[], [x], hsource, nofun, Nat.le_refl _, by simp [hx], by rw [hrem]; rfl⟩
    · exact ⟨[], [x], hsource, nofun, Nat.le_refl _, by simp [hx], by rw [hrem]; rfl⟩
  | waiting t =>
    obtain ⟨rfl, -⟩ := fetchByte_waiting s t hf
    exact .refl t

theorem readBit_asks (s : State) : (readBit s).Asks s := by
  unfold readBit
  split
  · exact (BytesTaken.refl s).thenNothing
  split
  · exact (fetchByte_asks s).bind fun _ t => BytesTaken.refl t
  · exact BytesTaken.refl s

theorem nextBit_asks (s : State) : (nextBit s).Asks s := by
  unfold nextBit
  split
  · exact BytesTaken.refl s
  · exact readBit_asks s

theorem runWalk_asks {α : Type} (w : Walk α) (s : State) : (runWalk w s).Asks s := by
  induction w generalizing s with
  | done a => exact BytesTaken.refl s
  | ask g ih =>
    have hnext := nextBit_asks s
    simp only [runWalk]
    cases hr : nextBit s with
    | got b t => exact ((BytesTaken.thenAsks (hr ▸ hnext) (ih b t)).remember b :)
    | raised e t => exact (hr ▸ hnext :)
    | waiting t => exact (hr ▸ hnext :)

theorem nextHeaderByte_asks (s : State) : (nextHeaderByte s).Asks s := by
  unfold nextHeaderByte
  split
  · exact (fetchByte_asks s).bind fun _ t => BytesTaken.refl t
  · exact BytesTaken.refl s

theorem readHeader_asks (s : State) : (readHeader s).Asks s := by
  unfold readHeader
  refine (nextHeaderByte_asks s).bind fun m t => Read.Asks.rememberByte ?_ m
  exact (nextHeaderByte_asks t).bind fun _ u => BytesTaken.refl u

theorem fetchInstr_asks (ctx : Context) (s : State) : (fetchInstr ctx s).Asks s := by
  by_cases hctx : ctx = .header
  · subst hctx
    simp only [fetchInstr]
    split
    · exact (BytesTaken.refl s).thenNothing
    · exact (readHeader_asks s).bind fun _ t => BytesTaken.refl t
  · rw [fetchInstr_of_ne_header ctx s hctx]
    exact runWalk_asks _ s

theorem lookupLength_asks (n len : Nat) (s : State) : (lookupLength n len s).Asks s :=
  (runWalk_asks _ s).bind fun _ t => BytesTaken.refl t

theorem lookupOffsetHigh_asks (n high : Nat) (s : State) : (lookupOffsetHigh n high s).Asks s :=
  (runWalk_asks _ s).bind fun _ t => BytesTaken.refl t

theorem readCopyFields_asks (len off : Nat) (s : State) : (readCopyFields len off s).Asks s :=
  (runWalk_asks _ s).bind fun _ t => BytesTaken.refl t

/-! ## Meanings -/

/-- What a step from `s` to `t` takes of the source: bytes, and one answer more only where it ends in `ERRORED`. -/
def StepAsks (s t : State) : Prop :=
  BytesTaken s t ∨ (BytesThenNonByte s t ∧ t.state = .errored)

theorem BytesTaken.thenStepAsks {s t u : State} (h : BytesTaken s t) (h' : StepAsks t u) : StepAsks s u :=
  h'.imp h.trans (And.imp_left h.thenNonByte)

/-- The end of a step's reads takes nothing; what raises is `ERRORED`. -/
theorem settle_stepAsks {α : Type} {s t : State} {r : Read α} {go : α → State → Outcome} (hr : r.Asks s)
    (hgo : ∀ a u, BytesTaken s u → go a { u with stepBits := [] } = .next t → StepAsks s t) (h : settle r go = .next t) :
    StepAsks s t := by
  rcases settle_next t r go h with ⟨a, u, rfl, hnext⟩ | ⟨e, u, rfl, rfl⟩ | rfl
  · exact hgo a u hr hnext
  · exact .inr ⟨hr, rfl⟩
  · exact .inl hr

theorem putEmit_bytesTaken {b : Byte} {s t : State} (h : putEmit b s = .next t) : BytesTaken s t := by
  obtain ⟨-, -, -, -, hframe⟩ := putEmit_next b s t h
  exact bytesTaken_of_eq (by rw [hframe]) (by rw [hframe])

theorem copyContinue_bytesTaken {s t : State} (h : copyContinue s = .next t) : BytesTaken s t := by
  obtain ⟨u, rfl, hput⟩ := copyContinue_next s t h
  exact (putEmit_bytesTaken hput :)

theorem copyStart_bytesTaken {off : BitVec 12} {s t : State} (h : copyStart off s = .next t) : BytesTaken s t := by
  obtain ⟨u, rfl, hput⟩ := copyStart_next off s t h
  exact (putEmit_bytesTaken hput :)

theorem execLit_stepAsks {b : Byte} {s t : State} (h : execLit b s = .next t) : StepAsks s t := by
  refine settle_stepAsks (runWalk_asks _ s) (fun _ _ hu hput => ?_) h
  exact .inl (hu.trans (putEmit_bytesTaken hput :))

theorem execCopy_stepAsks {len : BitVec 10} {off : BitVec 12} {s t : State} (h : execCopy len off s = .next t) :
    StepAsks s t := by
  refine settle_stepAsks (readCopyFields_asks _ _ s) (fun _ _ hu hcopy => ?_) h
  exact .inl (hu.trans (copyStart_bytesTaken hcopy :))

theorem execEos_stepAsks {s t : State} (h : execEos s = .next t) : StepAsks s t := by
  refine settle_stepAsks (lookupLength_asks _ _ s) (fun _ _ hu hend => ?_) h
  exact Host.Outcome.next.inj hend ▸ .inl hu

theorem runToken_stepAsks {tok : Token} {s t : State} (h : runToken tok s = .next t) : StepAsks s t := by
  cases tok with
  | lit b => exact execLit_stepAsks h
  | copy len off => exact execCopy_stepAsks h
  | eos => exact execEos_stepAsks h

theorem decodeStep_stepAsks {s t : State} (h : decodeStep s = .next t) : StepAsks s t := by
  unfold decodeStep at h
  split at h
  · exact settle_stepAsks (runWalk_asks _ s) (fun _ _ _ hrun => runToken_stepAsks hrun) h
  · exact .inl (copyContinue_bytesTaken h)

theorem headerChecks_stepAsks {m c : Byte} {s t : State} (h : headerChecks m c s = .next t) : StepAsks s t := by
  rcases headerChecks_next m c s t h with ⟨-, rfl⟩ | ⟨-, -, hstep⟩ | ⟨-, -, rfl⟩
  · exact .inl (.refl s)
  · exact (decodeStep_stepAsks hstep :)
  · exact .inl (.refl s)

theorem execHdr_stepAsks {m c : Byte} {s t : State} (h : execHdr m c s = .next t) : StepAsks s t := by
  unfold execHdr at h
  split at h
  · exact Host.Outcome.next.inj h ▸ .inl (.refl s)
  · exact settle_stepAsks (readHeader_asks s) (fun _ _ hu hchecks => hu.thenStepAsks (headerChecks_stepAsks hchecks :)) h

theorem runLength_stepAsks {n len : Nat} {s t : State} (h : runLength n len s = .next t) : StepAsks s t := by
  refine settle_stepAsks (lookupLength_asks _ _ s) (fun _ _ hu hend => ?_) h
  exact Host.Outcome.next.inj hend ▸ .inl hu

theorem runOffsetHigh_stepAsks {n high : Nat} {s t : State} (h : runOffsetHigh n high s = .next t) : StepAsks s t := by
  refine settle_stepAsks (lookupOffsetHigh_asks _ _ s) (fun _ _ hu hend => ?_) h
  exact Host.Outcome.next.inj hend ▸ .inl hu

theorem exec_stepAsks {i : Instr} {s t : State} (h : exec i s = .next t) : StepAsks s t := by
  cases hi : i.context with
  | header =>
    obtain ⟨m, c, rfl⟩ := eq_hdr_of_context_header i hi
    exact execHdr_stepAsks h
  | token =>
    obtain ⟨tok, rfl⟩ := eq_toInstr_of_context_token i hi
    exact runToken_stepAsks ((exec_toInstr tok s).symm.trans h)
  | length =>
    obtain ⟨len, hexec⟩ := exec_of_context_length i s.dictBits s hi
    exact runLength_stepAsks (hexec.symm.trans h)
  | offsetHigh =>
    obtain ⟨high, hexec⟩ := exec_of_context_offsetHigh i s.dictBits s hi
    exact runOffsetHigh_stepAsks (hexec.symm.trans h)

/-! ## Every step -/

theorem leaveHeaderRead_bytesTaken (s : State) : BytesTaken s (leaveHeaderRead s) :=
  bytesTaken_of_eq (leaveHeaderRead_source s) (leaveHeaderRead_bytesRem s)

theorem decoderStep_stepAsks {s t : State} (h : decoderStep s = .next t) : StepAsks s t := by
  refine (leaveHeaderRead_bytesTaken s).thenStepAsks ?_
  have hfetch := fun ctx => fetchInstr_asks ctx (leaveHeaderRead s)
  rcases decoderStep_next s t h with ⟨-, rfl⟩ | ⟨-, rfl⟩ | ⟨-, hcopy⟩ |
    ⟨ctx, -, ⟨i, u, -, hexec⟩ | ⟨e, u, hraised, rfl⟩ | hwaits⟩
  · exact .inl (bytesTaken_of_eq (by simp) (by simp))
  · exact .inl (bytesTaken_of_eq (by simp) (by simp))
  · exact .inl (copyContinue_bytesTaken hcopy)
  · exact exec_stepAsks hexec
  · exact .inr ⟨(hraised ▸ hfetch ctx :), rfl⟩
  · exact .inl (hwaits ▸ hfetch ctx :)

theorem ready_bytesTaken {s : State} (h : s.undisturbed) : BytesTaken s s.ready := by
  obtain ⟨-, -, hseek, harrive⟩ := h
  exact bytesTaken_of_eq (by simp [hseek, harrive]) (by simp)

/-- Settles O56: the answers are taken one by one as the cursor asks for them, and the first that is no byte ends the step. -/
theorem sourceAskedWithinTheChunk : Obligations.SourceAskedWithinTheChunk := by
  intro s t hs h
  have hstep : StepAsks s t := by
    refine (ready_bytesTaken hs).thenStepAsks ?_
    obtain ⟨hrst, hstart, -, -⟩ := hs
    rw [step_block s hrst hstart] at h
    rcases blockStep_cases s.ready with ⟨-, hheld⟩ | ⟨-, hrun⟩
    · exact Host.Outcome.next.inj (hheld.symm.trans h) ▸ .inl (.refl _)
    · exact decoderStep_stepAsks (hrun.symm.trans h)
  rcases hstep with ⟨used, hsource, hbytes, hrem⟩ | ⟨⟨used, last, hsource, hbytes, hlast, hno, hrem⟩, herr⟩
  · exact ⟨used, [], hsource, hbytes, Nat.zero_le _, nofun, absurd rfl, hrem⟩
  · exact ⟨used, last, hsource, hbytes, hlast, hno, fun _ => herr, hrem⟩

end Sys2Proof.Machine
end

section
/-! SUPPORT. The decoder's walks and the words they end on: the leaves of each decision tree (spec/41_code_tables.md R161, R164)
are the rows of its table (spec/30_encoding.md R100, R104). -/

namespace Sys2Proof

open Machine

/-! ## The words of a walk -/

/-- The words on which a walk ends, each with the value it ends in; the branch of a 1 bit stands first, as in the tables. -/
def Walk.words {α : Type} : Walk α → List (Bits × α)
  | .done a => [([], a)]
  | .ask next =>
    ((next true).words.map fun p => (true :: p.1, p.2)) ++ (next false).words.map fun p => (false :: p.1, p.2)

@[simp] theorem Walk.words_done {α : Type} (a : α) : (Walk.done a).words = [([], a)] := rfl

/-- The words of a walk that goes on: each word of its beginning, then a word of what follows the value found. -/
theorem Walk.words_bind {α β : Type} (w : Walk α) (f : α → Walk β) :
    (w.bind f).words = w.words.flatMap fun p => (f p.2).words.map fun q => (p.1 ++ q.1, q.2) := by
  induction w with
  | done a => simp
  | ask next ih => simp [Walk.words, ih, List.map_flatMap, List.flatMap_map, Function.comp_def]

/-- A walk ends in `a` exactly on the bits that begin with a word of `a`. -/
theorem Walk.runBits_eq_ok_iff_words {α : Type} (w : Walk α) (bits rest : Bits) (a : α) :
    w.runBits bits = .ok (a, rest) ↔ ∃ word, (word, a) ∈ w.words ∧ bits = word ++ rest := by
  induction w generalizing bits with
  | done x => simp [Walk.runBits, eq_comm]
  | ask next ih =>
    cases bits with
    | nil => simp [Walk.runBits, Walk.words]
    | cons b bits =>
      rw [Walk.runBits, ih]
      simp only [Walk.words, List.mem_append, List.mem_map, Prod.mk.injEq, Prod.exists]
      constructor
      · rintro ⟨word, hmem, rfl⟩
        cases b
        · exact ⟨_, .inr ⟨word, a, hmem, rfl, rfl⟩, rfl⟩
        · exact ⟨_, .inl ⟨word, a, hmem, rfl, rfl⟩, rfl⟩
      · rintro ⟨_, ⟨word, _, hmem, rfl, rfl⟩ | ⟨word, _, hmem, rfl, rfl⟩, hbits⟩ <;>
          obtain ⟨rfl, rfl⟩ := List.cons.inj hbits <;> exact ⟨word, hmem, rfl⟩

theorem Walk.mem_words_iff {α : Type} (w : Walk α) (word : Bits) (a : α) :
    (word, a) ∈ w.words ↔ w.runBits word = .ok (a, []) := by
  simp [Walk.runBits_eq_ok_iff_words]

/-! ## What the parts of a decoder do -/

@[simp] theorem Walk.runBits_done_eq_ok {α : Type} (a b : α) (bits rest : Bits) :
    (Walk.done a).runBits bits = .ok (b, rest) ↔ a = b ∧ bits = rest := by
  simp [Walk.runBits]

theorem Walk.runBits_bind_eq_ok {α β : Type} (w : Walk α) (f : α → Walk β) (bits rest : Bits) (b : β) :
    (w.bind f).runBits bits = .ok (b, rest) ↔
      ∃ a mid, w.runBits bits = .ok (a, mid) ∧ (f a).runBits mid = .ok (b, rest) := by
  rw [Walk.runBits_bind]
  split
  · next a mid h => simp [h]
  · next e h => simp [h]

@[simp] theorem Walk.runBits_readBit_eq_ok (b : Bool) (bits rest : Bits) :
    Walk.readBit.runBits bits = .ok (b, rest) ↔ bits = b :: rest := by
  cases bits <;> simp [Walk.readBit, Walk.runBits]

@[simp] theorem bitsOf_zero (v : Nat) : bitsOf 0 v = [] := rfl

theorem bitsOf_mod (n v : Nat) : bitsOf n (v % 2 ^ n) = bitsOf n v := by
  rw [← bitsVal_bitsOf]
  simpa using bitsOf_bitsVal (bitsOf n v)

theorem bitsOf_toNat_ofNat (n v : Nat) : bitsOf n (BitVec.ofNat n v).toNat = bitsOf n v := by
  rw [BitVec.toNat_ofNat, bitsOf_mod]

/-- `readBits(n)` returns `v` exactly on the layout of `v` (R66, R144). -/
@[simp] theorem Walk.runBits_readBits_eq_ok (n v : Nat) (bits rest : Bits) :
    (Walk.readBits n).runBits bits = .ok (v, rest) ↔ v < 2 ^ n ∧ bits = bitsOf n v ++ rest := by
  constructor
  · intro h
    by_cases hn : n ≤ bits.length
    · rw [Walk.runBits_readBits n bits hn, Except.ok.injEq, Prod.mk.injEq] at h
      obtain ⟨rfl, rfl⟩ := h
      have hlt := bitsVal_lt (bits.take n)
      have hword := bitsOf_bitsVal (bits.take n)
      rw [List.length_take_of_le hn] at hlt hword
      exact ⟨hlt, by rw [hword, List.take_append_drop]⟩
    · rw [Walk.runBits_readBits_short n bits (by omega)] at h
      cases h
  · rintro ⟨hv, rfl⟩
    rw [Walk.runBits_readBits n _ (by simp), List.take_left' (by simp), List.drop_left' (by simp), bitsVal_bitsOf,
      Nat.mod_eq_of_lt hv]

/-! ## The length code -/

/-- The leaves of `decodeLength()` are the rows of `LEN_TABLE`, each with its extra bits (R100, R161). -/
theorem decodeLength_words : decodeLength.words =
    lenTable.flatMap fun r => (Walk.readBits r.extra).words.map fun p => (r.code ++ p.1, r.base + p.2) := by
  have hbit : Walk.readBit.words = [([true], true), ([false], false)] := rfl
  have hpair : (Walk.readBits 2).words =
      [([true, true], 3), ([true, false], 1), ([false, true], 2), ([false, false], 0)] := rfl
  have hnone : (Walk.readBits 0).words = [([], 0)] := rfl
  simp [decodeLength, decodeLengthZeros, decodeLengthLong, lenTable, codeWord, Walk.words_bind, hbit, hpair, hnone,
    ← List.map_eq_flatMap, Function.comp_def]

theorem mem_lenTable_iff (r : LenRow) : r ∈ lenTable ↔ ∃ sym < 16, lenRow sym = r := by
  rw [List.mem_iff_getElem]
  refine exists_congr fun sym => ⟨fun ⟨h, hr⟩ => ⟨h, ?_⟩, fun ⟨h, hr⟩ => ⟨h, ?_⟩⟩
  · rw [lenRow, List.getD_eq_getElem _ _ h, hr]
  · rw [← hr, lenRow, List.getD_eq_getElem _ _ h]

/-- The length `len` is the base of row `sym` of `LEN_TABLE` plus the extra value `e` (R100, R102). -/
structure LengthOf (sym e len : Nat) : Prop where
  row : sym < 16
  extra : e < 2 ^ (lenRow sym).extra
  sum : (lenRow sym).base + e = len

/-- `decodeLength()` returns `len` exactly on a row's code word and extra bits that stand for `len` (R161). -/
theorem decodeLength_eq_ok_iff_row (bits rest : Bits) (len : Nat) :
    decodeLength.runBits bits = .ok (len, rest) ↔ ∃ sym e, LengthOf sym e len ∧ bits = encodeLenSym sym e ++ rest := by
  rw [Walk.runBits_eq_ok_iff_words, decodeLength_words]
  simp only [List.mem_flatMap, List.mem_map, mem_lenTable_iff, Prod.exists, Prod.mk.injEq, Walk.mem_words_iff,
    Walk.runBits_readBits_eq_ok, List.append_nil]
  constructor
  · rintro ⟨_, ⟨_, ⟨sym, hsym, rfl⟩, _, e, ⟨he, rfl⟩, rfl, rfl⟩, rfl⟩
    exact ⟨sym, e, ⟨hsym, he, rfl⟩, rfl⟩
  · rintro ⟨sym, e, ⟨hsym, he, rfl⟩, rfl⟩
    exact ⟨_, ⟨_, ⟨sym, hsym, rfl⟩, _, e, ⟨he, rfl⟩, rfl, rfl⟩, rfl⟩

/-- The ranges of the rows of `LEN_TABLE` do not meet (R100). -/
theorem lenRow_disjoint : ∀ sym < 16, ∀ j < sym,
    (lenRow sym).base + 2 ^ (lenRow sym).extra ≤ (lenRow j).base ∨
      (lenRow j).base + 2 ^ (lenRow j).extra ≤ (lenRow sym).base := by decide

theorem LengthOf.lenSym {sym e len : Nat} (h : LengthOf sym e len) : lenSym len = sym := by
  obtain ⟨hsym, he, rfl⟩ := h
  have hrow : ∀ j, (hj : j < lenTable.length) → lenTable[j] = lenRow j := fun j hj =>
    (List.getD_eq_getElem lenTable _ hj).symm
  have hlt : sym < lenTable.length := hsym
  refine (List.findIdx_eq hlt).mpr ⟨?_, fun j hj => ?_⟩
  · simp [hrow, he]
  · have hd := lenRow_disjoint sym hsym j hj
    simp only [hrow, Bool.and_eq_false_iff, decide_eq_false_iff_not]
    omega

theorem LengthOf.encodeLength {sym e len : Nat} (h : LengthOf sym e len) : encodeLength len = encodeLenSym sym e := by
  rw [Sys2Proof.encodeLength, h.lenSym, ← h.sum, Nat.add_sub_cancel_left]

/-- Every length 2..519 is in the range of a row (R100). -/
theorem exists_lengthOf (len : Nat) (h2 : 2 ≤ len) (h519 : len ≤ 519) : ∃ sym e, LengthOf sym e len := by
  have hrow : ∃ r ∈ lenTable, r.base ≤ len ∧ len < r.base + 2 ^ r.extra := by simp [lenTable]; omega
  obtain ⟨r, hr, hlo, hhi⟩ := hrow
  obtain ⟨sym, hsym, rfl⟩ := (mem_lenTable_iff r).mp hr
  exact ⟨sym, len - (lenRow sym).base, hsym, by omega, by omega⟩

theorem LengthOf.bounds {sym e len : Nat} (h : LengthOf sym e len) : 2 ≤ len ∧ len ≤ 519 := by
  have hrows : ∀ sym < 16, 2 ≤ (lenRow sym).base ∧ (lenRow sym).base + 2 ^ (lenRow sym).extra ≤ 520 := by decide
  obtain ⟨hsym, he, rfl⟩ := h
  have := hrows sym hsym
  omega

/-- `decodeLength()` undoes the encoding of every length 2..519, and decodes nothing else (R161, R162). -/
theorem decodeLength_eq_ok_iff (bits rest : Bits) (len : Nat) :
    decodeLength.runBits bits = .ok (len, rest) ↔ 2 ≤ len ∧ len ≤ 519 ∧ bits = encodeLength len ++ rest := by
  rw [decodeLength_eq_ok_iff_row]
  constructor
  · rintro ⟨sym, e, h, rfl⟩
    exact ⟨h.bounds.1, h.bounds.2, by rw [h.encodeLength]⟩
  · rintro ⟨h2, h519, rfl⟩
    obtain ⟨sym, e, h⟩ := exists_lengthOf len h2 h519
    exact ⟨sym, e, h, by rw [h.encodeLength]⟩

/-- The row that a length is has the length's encoding. -/
theorem encode_lenInstr (db : BitVec 3) (len : Nat) (h2 : 2 ≤ len) (h519 : len ≤ 519) :
    encode db (lenInstr len) = encodeLength len := by
  obtain ⟨sym, e, h⟩ := exists_lengthOf len h2 h519
  rw [h.encodeLength, lenInstr, h.lenSym]
  obtain ⟨hsym, he, rfl⟩ := h
  interval_cases sym <;> simp [-BitVec.toNat_ofNat, bitsOf_toNat_ofNat, encode, encodeLenSym, lenRow, lenTable]

/-- Every row of the length code, with its extra bits, is the row of a length. -/
theorem exists_lenInstr_eq (i : Instr) (h : i.context = .length) : ∃ len, 2 ≤ len ∧ len ≤ 519 ∧ lenInstr len = i := by
  -- The encoding is there to name the row: comparing it with `encodeLenSym` fills in `sym` and `e`.
  have hrow : ∃ sym e, encode 0 i = encodeLenSym sym e ∧ sym < 16 ∧ e < 2 ^ (lenRow sym).extra ∧
      ∀ len, LengthOf sym e len → lenInstr len = i := by
    cases i with
    | len0 | len1 | len2 | len3 | len4 | len5 | len6 | len7 =>
      exact ⟨_, _, rfl, by decide, by decide, fun len hlen => by simp [lenInstr, hlen.lenSym]⟩
    | len8 e | len9 e | len10 e | len11 e | len12 e | len13 e | len14 e | len15 e =>
      refine ⟨_, _, rfl, by decide, e.isLt, fun len hlen => ?_⟩
      rw [lenInstr, hlen.lenSym, ← hlen.sum]
      simp [lenRow, lenTable]
    | _ => cases h
  obtain ⟨sym, e, -, hsym, he, hi⟩ := hrow
  have hlen : LengthOf sym e ((lenRow sym).base + e) := ⟨hsym, he, rfl⟩
  exact ⟨_, hlen.bounds.1, hlen.bounds.2, hi _ hlen⟩

/-! ## The offset-high code -/

/-- The leaves of `decodeOffsetHigh()`, in the order of their code words, are the rows of `DIST_TABLE` (R104, R164). -/
theorem decodeOffsetHigh_words : decodeOffsetHigh.words = distTable.zipIdx := by decide

/-- `decodeOffsetHigh()` undoes the encoding of every value 0..63, and decodes nothing else (R164, R165). -/
theorem decodeOffsetHigh_eq_ok_iff (bits rest : Bits) (high : Nat) :
    decodeOffsetHigh.runBits bits = .ok (high, rest) ↔ high < 64 ∧ bits = encodeOffsetHigh high ++ rest := by
  rw [Walk.runBits_eq_ok_iff_words, decodeOffsetHigh_words]
  simp only [List.mem_zipIdx_iff_getElem?, encodeOffsetHigh, List.getD_eq_getElem?_getD]
  constructor
  · rintro ⟨word, hword, rfl⟩
    obtain ⟨h, -⟩ := List.getElem?_eq_some_iff.mp hword
    exact ⟨h, by rw [hword]; rfl⟩
  · rintro ⟨h, rfl⟩
    have h64 : high < distTable.length := h
    exact ⟨distTable[high], List.getElem?_eq_getElem h64, by rw [List.getElem?_eq_getElem h64]; rfl⟩

/-- Every row of the offset-high code is the row of a value, with the value's encoding. -/
theorem exists_distInstr_eq (db : BitVec 3) (i : Instr) (h : i.context = .offsetHigh) :
    ∃ high, encode db i = encodeOffsetHigh high ∧ high < 64 ∧ distInstr high = i := by
  cases i <;> cases h <;> exact ⟨_, rfl, by decide, rfl⟩

theorem encode_distInstr (db : BitVec 3) (high : Nat) (h : high < 64) :
    encode db (distInstr high) = encodeOffsetHigh high := by
  interval_cases high <;> rfl

/-! ## Offsets -/

theorem assembleOffset_shiftRight (high n low : Nat) (h : low < 2 ^ n) : assembleOffset high n low >>> n = high := by
  rw [assembleOffset_eq _ _ _ h, Nat.shiftRight_eq_div_pow, Nat.mul_comm, Nat.mul_add_div (Nat.two_pow_pos _),
    Nat.div_eq_of_lt h, Nat.add_zero]

theorem bitsOf_assembleOffset (high n low : Nat) (h : low < 2 ^ n) : bitsOf n (assembleOffset high n low) = bitsOf n low := by
  rw [← bitsOf_mod, assembleOffset_eq _ _ _ h, Nat.mul_comm, Nat.mul_add_mod, Nat.mod_eq_of_lt h]

/-- `decodeOffset(len)` undoes the encoding of every offset its bits reach, and decodes nothing else (R110, R167, R168). -/
theorem decodeOffset_eq_ok_iff (db : BitVec 3) (len off : Nat) (bits rest : Bits) :
    (decodeOffset db len).runBits bits = .ok (off, rest) ↔ off < 64 * 2 ^ lowBits db len ∧
      bits = encodeOffsetHigh (off >>> lowBits db len) ++ (bitsOf (lowBits db len) off ++ rest) := by
  simp only [decodeOffset, Walk.runBits_bind_eq_ok, decodeOffsetHigh_eq_ok_iff, Walk.runBits_readBits_eq_ok,
    Walk.runBits_done_eq_ok]
  constructor
  · rintro ⟨high, _, ⟨hhigh, rfl⟩, low, _, ⟨hlow, rfl⟩, rfl, rfl⟩
    exact ⟨assembleOffset_lt high _ low hhigh hlow,
      by rw [assembleOffset_shiftRight high _ low hlow, bitsOf_assembleOffset high _ low hlow]⟩
  · rintro ⟨hoff, rfl⟩
    have hhigh : off >>> lowBits db len < 64 := by
      rw [Nat.shiftRight_eq_div_pow]
      exact Nat.div_lt_of_lt_mul (by rwa [Nat.mul_comm])
    exact ⟨_, _, ⟨hhigh, rfl⟩, off % 2 ^ lowBits db len, rest, ⟨Nat.mod_lt _ (Nat.two_pow_pos _), by rw [bitsOf_mod]⟩,
      assembleOffset_parts off _, rfl⟩

/-! ## Tokens -/

/-- The three forms of a token (R94, R95, R96) are what the token's walk reads (R215). -/
theorem decodeToken_eq_ok_iff_form (db : BitVec 3) (tok : Token) (bits rest : Bits) :
    (decodeToken db).runBits bits = .ok (tok, rest) ↔
      (∃ v < 2 ^ 8, tok = .lit (BitVec.ofNat 8 v) ∧ bits = false :: (bitsOf 8 v ++ rest)) ∨
      (tok = .eos ∧ bits = true :: (encodeLength 519 ++ rest)) ∨
      ∃ len off, 2 ≤ len ∧ len ≤ 518 ∧ off < 64 * 2 ^ lowBits db len ∧
        tok = .copy (BitVec.ofNat 10 len) (BitVec.ofNat 12 off) ∧
        bits = true :: (encodeLength len ++
          (encodeOffsetHigh (off >>> lowBits db len) ++ (bitsOf (lowBits db len) off ++ rest))) := by
  simp only [decodeToken, Walk.runBits_bind_eq_ok, Walk.runBits_readBit_eq_ok, Bool.exists_bool, Bool.false_eq_true,
    if_false, if_true, decodeLength_eq_ok_iff, Walk.runBits_readBits_eq_ok, Walk.runBits_done_eq_ok]
  constructor
  · rintro (⟨_, rfl, v, _, ⟨hv, rfl⟩, rfl, rfl⟩ | ⟨_, rfl, len, mid, ⟨h2, h519, rfl⟩, htok⟩)
    · exact .inl ⟨v, hv, rfl, rfl⟩
    · split at htok
      · next hend =>
        obtain rfl : len = 519 := by omega
        obtain ⟨rfl, rfl⟩ := (Walk.runBits_done_eq_ok ..).mp htok
        exact .inr (.inl ⟨rfl, rfl⟩)
      · next hcopy =>
        simp only [Walk.runBits_bind_eq_ok, decodeOffset_eq_ok_iff, Walk.runBits_done_eq_ok] at htok
        obtain ⟨off, _, ⟨hoff, rfl⟩, rfl, rfl⟩ := htok
        exact .inr (.inr ⟨len, off, h2, by omega, hoff, rfl, rfl⟩)
  · rintro (⟨v, hv, rfl, rfl⟩ | ⟨rfl, rfl⟩ | ⟨len, off, h2, h518, hoff, rfl, rfl⟩)
    · exact .inl ⟨_, rfl, v, rest, ⟨hv, rfl⟩, rfl, rfl⟩
    · exact .inr ⟨_, rfl, 519, rest, ⟨by decide, by decide, rfl⟩, rfl⟩
    · refine .inr ⟨_, rfl, len, _, ⟨h2, by omega, rfl⟩, ?_⟩
      rw [if_neg (by omega), Walk.runBits_bind_eq_ok]
      exact ⟨off, rest, (decodeOffset_eq_ok_iff ..).mpr ⟨hoff, rfl⟩, rfl⟩

theorem copy_wf_iff (db : BitVec 3) (len : BitVec 10) (off : BitVec 12) :
    (Instr.copy len off).wf db = true ↔ legalSizeCode db.toNat = true ∧ 2 ≤ len.toNat ∧ len.toNat ≤ 518 ∧
      off.toNat < 64 * 2 ^ lowBits db len.toNat := by
  unfold lowBits
  simp only [Instr.wf, Bool.and_eq_true, and_assoc]
  split <;> simp

/-- A token's walk undoes the encoding of every legal token, and decodes nothing else; only the offset of a `COPY` depends on
`dict_bits` (R97, R112). -/
theorem decodeToken_eq_ok_iff (db : BitVec 3) (tok : Token) (bits rest : Bits)
    (hdb : ∀ len off, tok.toInstr = .copy len off → legalSizeCode db.toNat = true) :
    (decodeToken db).runBits bits = .ok (tok, rest) ↔
      tok.toInstr.wf db = true ∧ bits = encode db tok.toInstr ++ rest := by
  rw [decodeToken_eq_ok_iff_form]
  constructor
  · rintro (⟨v, hv, rfl, rfl⟩ | ⟨rfl, rfl⟩ | ⟨len, off, h2, h518, hoff, rfl, rfl⟩)
    · exact ⟨rfl, by rw [Token.toInstr, encode, bitsOf_toNat_ofNat]; rfl⟩
    · exact ⟨rfl, rfl⟩
    · have hlegal := hdb _ _ rfl
      obtain ⟨hcap, hcap'⟩ := lowBits_capacity db len hlegal
      have elen : (BitVec.ofNat 10 len).toNat = len := by rw [BitVec.toNat_ofNat]; omega
      have eoff : (BitVec.ofNat 12 off).toNat = off := by rw [BitVec.toNat_ofNat]; exact Nat.mod_eq_of_lt (by omega)
      refine ⟨(copy_wf_iff ..).mpr ?_, ?_⟩
      · rw [elen, eoff]
        exact ⟨hlegal, h2, h518, hoff⟩
      · simp only [Token.toInstr, encode, elen, eoff, List.cons_append, List.append_assoc]
  · rintro ⟨hwf, rfl⟩
    cases tok with
    | lit b => exact .inl ⟨b.toNat, b.isLt, by simp, rfl⟩
    | eos => exact .inr (.inl ⟨rfl, rfl⟩)
    | copy len off =>
      obtain ⟨-, h2, h518, hoff⟩ := (copy_wf_iff db len off).mp hwf
      exact .inr (.inr ⟨len.toNat, off.toNat, h2, h518, hoff, by simp, by simp [Token.toInstr, encode]⟩)

/-! ## Every context -/

theorem decodeHeader_eq_ok_iff (i : Instr) (bits rest : Bits) :
    decodeHeader.runBits bits = .ok (i, rest) ↔ ∃ m c, i = .hdr m c ∧ bits = bitsOf 8 m.toNat ++ (bitsOf 8 c.toNat ++ rest) := by
  simp only [decodeHeader, Walk.runBits_bind_eq_ok, Walk.runBits_readBits_eq_ok, Walk.runBits_done_eq_ok]
  constructor
  · rintro ⟨m, _, ⟨-, rfl⟩, c, _, ⟨-, rfl⟩, rfl, rfl⟩
    exact ⟨BitVec.ofNat 8 m, BitVec.ofNat 8 c, rfl, by rw [bitsOf_toNat_ofNat, bitsOf_toNat_ofNat]⟩
  · rintro ⟨m, c, rfl, rfl⟩
    exact ⟨m.toNat, _, ⟨m.isLt, rfl⟩, c.toNat, rest, ⟨c.isLt, rfl⟩, by simp, rfl⟩

/-- Decoding in a context finds exactly the encodings of the context's instructions, outside the header of the legal ones; only
a `COPY` asks for a legal `dict_bits` (R97, R112). -/
theorem decodeBits_eq_ok_iff (ctx : Context) (db : BitVec 3) (i : Instr) (bits rest : Bits)
    (hdb : ∀ len off, i = .copy len off → legalSizeCode db.toNat = true) :
    decodeBits ctx db bits = .ok (i, rest) ↔
      i.context = ctx ∧ (ctx ≠ .header → i.wf db = true) ∧ bits = encode db i ++ rest := by
  cases ctx with
  | header =>
    rw [decodeBits, decodeWalk, decodeHeader_eq_ok_iff]
    constructor
    · rintro ⟨m, c, rfl, rfl⟩
      exact ⟨rfl, fun h => absurd rfl h, by simp [encode]⟩
    · rintro ⟨hctx, -, rfl⟩
      obtain ⟨m, c, rfl⟩ := eq_hdr_of_context_header i hctx
      exact ⟨m, c, rfl, by simp [encode]⟩
  | token =>
    simp only [decodeBits, decodeWalk, Walk.runBits_bind_eq_ok, Walk.runBits_done_eq_ok]
    constructor
    · rintro ⟨tok, _, htok, rfl, rfl⟩
      obtain ⟨hwf, rfl⟩ := (decodeToken_eq_ok_iff db tok bits _ hdb).mp htok
      exact ⟨by cases tok <;> rfl, fun _ => hwf, rfl⟩
    · rintro ⟨hctx, hwf, rfl⟩
      obtain ⟨tok, rfl⟩ := eq_toInstr_of_context_token i hctx
      exact ⟨tok, rest, (decodeToken_eq_ok_iff db tok _ rest hdb).mpr ⟨hwf nofun, rfl⟩, rfl, rfl⟩
  | length =>
    simp only [decodeBits, decodeWalk, Walk.runBits_bind_eq_ok, Walk.runBits_done_eq_ok, decodeLength_eq_ok_iff]
    constructor
    · rintro ⟨len, _, ⟨h2, h519, rfl⟩, rfl, rfl⟩
      exact ⟨lenInstr_context len, fun _ => lenInstr_wf db len, by rw [encode_lenInstr db len h2 h519]⟩
    · rintro ⟨hctx, -, rfl⟩
      obtain ⟨len, h2, h519, rfl⟩ := exists_lenInstr_eq i hctx
      exact ⟨len, rest, ⟨h2, h519, by rw [encode_lenInstr db len h2 h519]⟩, rfl, rfl⟩
  | offsetHigh =>
    simp only [decodeBits, decodeWalk, Walk.runBits_bind_eq_ok, Walk.runBits_done_eq_ok, decodeOffsetHigh_eq_ok_iff]
    constructor
    · rintro ⟨high, _, ⟨hhigh, rfl⟩, rfl, rfl⟩
      obtain ⟨-, hctx, hwf⟩ := wordFound_distInstr db high hhigh
      exact ⟨hctx, fun _ => hwf, by rw [encode_distInstr db high hhigh]⟩
    · rintro ⟨hctx, -, rfl⟩
      obtain ⟨high, hword, hhigh, rfl⟩ := exists_distInstr_eq db i hctx
      exact ⟨high, rest, ⟨hhigh, by rw [hword]⟩, rfl, rfl⟩

/-- Settles O1: what `decodeBits_eq_ok_iff` says of an encoding; a legal `COPY` has a legal `dict_bits`. -/
theorem decodeOfEncode : Obligations.DecodeOfEncode := by
  intro db i rest hwf
  refine (decodeBits_eq_ok_iff i.context db i _ rest ?_).mpr ⟨rfl, fun _ => hwf, rfl⟩
  rintro len off rfl
  exact ((copy_wf_iff db len off).mp hwf).1

/-- Settles O2: what `decodeBits_eq_ok_iff` says of a decoded instruction. -/
theorem decodedBitsAreTheEncoding : Obligations.DecodedBitsAreTheEncoding := by
  intro ctx db bits rest i hdb h
  obtain ⟨hctx, hwf, hbits⟩ := (decodeBits_eq_ok_iff ctx db i bits rest fun _ _ _ => hdb).mp h
  exact ⟨hbits, hctx, hwf⟩

end Sys2Proof
end

section
/-! SUPPORT. How long words can be: the depth of the decoder's walks and the sizes of the encodings (spec/30_encoding.md R97,
R98); and the two tables and seven words that are checked by evaluation. -/

namespace Sys2Proof

open Machine

/-! ## Every bit list decodes -/

/-- The most bits a walk asks for. -/
def Walk.depth {α : Type} : Walk α → Nat
  | .done _ => 0
  | .ask next => 1 + max (next false).depth (next true).depth

@[simp] theorem Walk.depth_done {α : Type} (a : α) : (Walk.done a).depth = 0 := rfl

theorem Walk.depth_bind_le {α β : Type} (w : Walk α) (f : α → Walk β) (n : Nat) (hf : ∀ a, (f a).depth ≤ n) :
    (w.bind f).depth ≤ w.depth + n := by
  induction w with
  | done a => simpa using hf a
  | ask next ih =>
    have hfalse := ih false
    have htrue := ih true
    simp only [Walk.bind_ask, Walk.depth]
    omega

/-- A walk ends on as many bits as its depth, and takes no more (R169). -/
theorem Walk.runBits_of_depth_le {α : Type} (w : Walk α) (bits : Bits) (h : w.depth ≤ bits.length) :
    ∃ a rest, w.runBits bits = .ok (a, rest) ∧ bits.length ≤ rest.length + w.depth := by
  induction w generalizing bits with
  | done a => exact ⟨a, bits, rfl, Nat.le_add_right ..⟩
  | ask next ih =>
    cases bits with
    | nil => simp [Walk.depth] at h
    | cons b bits =>
      have hb : (next b).depth ≤ max (next false).depth (next true).depth := by cases b <;> omega
      simp only [Walk.depth, List.length_cons] at h ⊢
      obtain ⟨a, rest, hrun, hlen⟩ := ih b bits (by omega)
      exact ⟨a, rest, hrun, by omega⟩

theorem Walk.depth_bind_done_le {α β : Type} (w : Walk α) (f : α → β) : (w.bind fun a => .done (f a)).depth ≤ w.depth :=
  Walk.depth_bind_le w _ 0 fun a => Nat.le_of_eq (Walk.depth_done (f a))

theorem Walk.depth_readBits_le (n : Nat) : (Walk.readBits n).depth ≤ n := by
  induction n with
  | zero => exact Nat.le_refl 0
  | succ n ih =>
    have hrest := Walk.depth_bind_le Walk.readBit _ n fun b : Bool =>
      (Walk.depth_bind_done_le (Walk.readBits n) fun v => b.toNat + 2 * v).trans ih
    exact hrest.trans (Nat.le_of_eq (Nat.add_comm 1 n))

theorem decodeLength_depth : decodeLength.depth = 15 := by decide

theorem decodeOffsetHigh_depth : decodeOffsetHigh.depth = 8 := by decide

theorem lowBits_le (db : BitVec 3) (len : Nat) (h : legalSizeCode db.toNat = true) : lowBits db len ≤ 6 := by
  unfold lowBits
  rcases legalSizeCode_cases db h with rfl | rfl | rfl <;> split <;> decide

theorem decodeOffset_depth_le (db : BitVec 3) (len : Nat) (h : legalSizeCode db.toNat = true) :
    (decodeOffset db len).depth ≤ 8 + 6 := by
  rw [← decodeOffsetHigh_depth]
  refine Walk.depth_bind_le _ _ 6 fun high => (Walk.depth_bind_done_le _ _).trans ?_
  exact (Walk.depth_readBits_le _).trans (lowBits_le db len h)

/-- No token has more than 30 bits: the flag, 15 of the length field, 8 of the offset code word, 6 low ones (R98). -/
theorem decodeToken_depth_le (db : BitVec 3) (h : legalSizeCode db.toNat = true) : (decodeToken db).depth ≤ 30 := by
  refine Walk.depth_bind_le Walk.readBit _ 29 fun flag => ?_
  split
  · refine (Walk.depth_bind_le decodeLength _ 14 fun len => ?_).trans (by rw [decodeLength_depth])
    split
    · simp
    · exact (Walk.depth_bind_done_le _ _).trans (decodeOffset_depth_le db len h)
  · exact ((Walk.depth_bind_done_le _ _).trans (Walk.depth_readBits_le 8)).trans (by decide)

theorem decodeWalk_depth_le (ctx : Context) (db : BitVec 3) (h : legalSizeCode db.toNat = true) :
    (decodeWalk ctx db).depth ≤ 30 := by
  have hbyte := Walk.depth_readBits_le 8
  cases ctx with
  | header =>
    refine (Walk.depth_bind_le (Walk.readBits 8) _ 8 fun m => ?_).trans (by omega)
    exact (Walk.depth_bind_done_le _ _).trans hbyte
  | token => exact (Walk.depth_bind_done_le _ _).trans (decodeToken_depth_le db h)
  | length => exact (Walk.depth_bind_done_le _ _).trans (by rw [decodeLength_depth]; decide)
  | offsetHigh => exact (Walk.depth_bind_done_le _ _).trans (by rw [decodeOffsetHigh_depth]; decide)

/-- Settles O3: no context's walk is deeper than 30 bits. -/
theorem thirtyBitsAlwaysDecode : Obligations.ThirtyBitsAlwaysDecode := by
  intro ctx db bits hdb hlen
  have hdepth := decodeWalk_depth_le ctx db hdb
  obtain ⟨i, rest, hrun, hused⟩ := (decodeWalk ctx db).runBits_of_depth_le bits (hdepth.trans hlen)
  exact ⟨i, rest, hrun, by omega⟩

/-! ## Sizes and fixed words -/

theorem lengthConsumed_bounds (len : Nat) : 2 ≤ lengthConsumed len ∧ lengthConsumed len ≤ 15 := by
  unfold lengthConsumed
  repeat' refine iteInduction (motive := fun n => 2 ≤ n ∧ n ≤ 15) (fun _ => ?_) fun _ => ?_
  all_goals decide

theorem highConsumed_bounds (high : Nat) : 2 ≤ highConsumed high ∧ highConsumed high ≤ 8 := by
  unfold highConsumed
  repeat' refine iteInduction (motive := fun n => 2 ≤ n ∧ n ≤ 8) (fun _ => ?_) fun _ => ?_
  all_goals decide

/-- A legal `COPY` has 8 to 30 bits (R98): its shortest length field, of length 3, comes with at least four low offset bits. -/
theorem size_copy_bounds (db : BitVec 3) (len : BitVec 10) (off : BitVec 12) (h : (Instr.copy len off).wf db = true) :
    8 ≤ Laws.EncodedSize.size db (.copy len off) ∧ Laws.EncodedSize.size db (.copy len off) ≤ 30 := by
  obtain ⟨hlegal, -⟩ := (copy_wf_iff db len off).mp h
  have hlen := lengthConsumed_bounds len.toNat
  have hhigh := highConsumed_bounds (off.toNat >>> lowBits db len.toNat)
  have hlow := lowBits_le db len.toNat hlegal
  have hshort : 5 ≤ lengthConsumed len.toNat + lowBits db len.toNat := by
    by_cases h2 : len.toNat = 2
    · rw [h2, lowBits, if_pos rfl]
      decide
    · have hdb : 4 ≤ db.toNat := by rcases legalSizeCode_cases db hlegal with rfl | rfl | rfl <;> decide
      rw [lowBits, if_neg h2]
      omega
  simp only [Laws.EncodedSize.size]
  omega

/-- Settles O4: each encoding has the size of its row (`Laws.EncodedSize`). -/
theorem tokenSizes : Obligations.TokenSizes := by
  refine ⟨fun db b => Laws.EncodedSize.lit b db rfl, fun db => Laws.EncodedSize.eos db rfl, fun db len off h => ?_,
    fun db h => ?_, ?_⟩
  · rw [Laws.EncodedSize.copy len off db h]
    exact size_copy_bounds db len off h
  · rcases legalSizeCode_cases db h with rfl | rfl | rfl <;> rfl
  · exact Laws.EncodedSize.copy 518 4095 6 rfl

/-- Settles O5: by evaluation. -/
theorem writtenWordsDecode : Obligations.WrittenWordsDecode :=
  ⟨rfl, rfl, rfl, rfl, rfl, rfl, rfl⟩

/-- Settles O9: entry by entry. -/
theorem reversalTables : Obligations.ReversalTables := by
  unfold Obligations.ReversalTables
  decide

end Sys2Proof
end

section
/-! SUPPORT. The rows of the two code tables run by themselves (spec/30_encoding.md R100, R104; spec/41_code_tables.md R161, R164):
with its bits ready, each row completes. -/

namespace Sys2Proof.Machine

theorem runLength_ready_lenVal (n len : Nat) (s : State) (h : n ≤ s.bitsReady) :
    ∃ u, AfterBits n s u ∧ u.lenVal = BitVec.ofNat 10 len ∧ u.highVal = s.highVal ∧
      runLength n len s = .next { u with lookupReq := none } := by
  obtain ⟨t, hread⟩ := lookupLength_ready n len s h
  rcases lookupLength_cases n len s with ⟨t', hread', hbits, hlen, hhigh⟩ | ⟨e, t', hread', -⟩ | ⟨t', hread', -⟩ <;>
    rw [hread] at hread' <;> cases hread'
  exact ⟨_, hbits, hlen, hhigh, by unfold runLength; rw [hread]; rfl⟩

theorem runOffsetHigh_ready_highVal (n high : Nat) (s : State) (h : n ≤ s.bitsReady) :
    ∃ u, AfterBits n s u ∧ u.highVal = BitVec.ofNat 6 high ∧ u.lenVal = s.lenVal ∧
      runOffsetHigh n high s = .next { u with lookupReq := none } := by
  obtain ⟨t, hread⟩ := lookupOffsetHigh_ready n high s h
  rcases lookupOffsetHigh_cases n high s with ⟨t', hread', hbits, hhigh, hlen⟩ | ⟨e, t', hread', -⟩ | ⟨t', hread', -⟩ <;>
    rw [hread] at hread' <;> cases hread'
  exact ⟨_, hbits, hhigh, hlen, by unfold runOffsetHigh; rw [hread]; rfl⟩

/-- A row of `LEN_TABLE` completes (R161); its length fits the ten bits of `lenVal`. -/
theorem lengthRowCompletes {i : Instr} {n len : Nat} {s : State} (hexec : exec i s = runLength n len s) (hlen : len < 1024) :
    LengthRowCompletes i n len s := by
  intro hready
  obtain ⟨u, hbits, hval, hhigh, hrun⟩ := runLength_ready_lenVal n len s hready
  have hframe := hbits.frame
  rw [hhigh] at hframe
  exact ⟨_, hexec.trans hrun, by simp [hval, Nat.mod_eq_of_lt hlen], hbits.bitpos, hbits.cursor,
    congrArg (fun v : State => { v with lookupReq := none }) hframe⟩

/-- A row of `DIST_TABLE` completes (R164); its value fits the six bits of `highVal`. -/
theorem offsetRowCompletes {i : Instr} {n high : Nat} {s : State} (hexec : exec i s = runOffsetHigh n high s)
    (hhigh : high < 64) : OffsetRowCompletes i n high s := by
  intro hready
  obtain ⟨u, hbits, hval, hlen, hrun⟩ := runOffsetHigh_ready_highVal n high s hready
  have hframe := hbits.frame
  rw [hlen] at hframe
  exact ⟨_, hexec.trans hrun, by simp [hval, Nat.mod_eq_of_lt hhigh], hbits.bitpos, hbits.cursor,
    congrArg (fun v : State => { v with lookupReq := none }) hframe⟩

/-- Settles O24: each of the rows is `runLength` of its bits and its length. -/
theorem lengthRowsWithoutExtraBits : Obligations.LengthRowsWithoutExtraBits := by
  intro s
  and_intros <;> exact lengthRowCompletes rfl (by decide)

/-- Settles O25: each of the rows is `runLength` of its bits and of its base plus the extra value. -/
theorem lengthRowsWithExtraBits : Obligations.LengthRowsWithExtraBits := by
  intro s
  and_intros <;> exact fun e => lengthRowCompletes rfl (by omega)

/-- Settles O26: each of the rows is `runOffsetHigh` of its bits and its value. -/
theorem offsetRowsGroupsAB : Obligations.OffsetRowsGroupsAB := by
  intro s
  and_intros <;> exact offsetRowCompletes rfl (by decide)

/-- Settles O27: each of the rows is `runOffsetHigh` of its bits and its value. -/
theorem offsetRowsGroupC : Obligations.OffsetRowsGroupC := by
  intro s
  and_intros <;> exact offsetRowCompletes rfl (by decide)

/-- Settles O28: each of the rows is `runOffsetHigh` of its bits and its value. -/
theorem offsetRowsGroupsDEFG : Obligations.OffsetRowsGroupsDEFG := by
  intro s
  and_intros <;> exact offsetRowCompletes rfl (by decide)

end Sys2Proof.Machine
end

section
/-! SUPPORT. The bit cursor bit by bit (spec/40_bit_cursor.md R142 to R146): what a byte's fetch and a bit's read answer, where the
cursor stands after `n` bits, and what a read does that asks for more bits than are ready. -/

namespace Sys2Proof.Machine

/-! ## One byte, one bit -/

/-- Settles O10: by the branches of `fetchByte()`, and by what `settle` makes of a raise. -/
theorem fetchByteRule : Obligations.FetchByteRule := by
  intro s
  refine ⟨fun hrem => if_pos hrem, fun x rest hrem hsource => ⟨fun v hx => ?_, fun hx => ?_, fun hx => ?_⟩,
    fun e u go hraised => by rw [hraised]; rfl⟩ <;>
    simp only [fetchByte, if_neg hrem, hsource, hx]

theorem fetchByte_eq_waiting_iff (s t : State) : fetchByte s = .waiting t ↔ t = s ∧ s.bytesRem ≠ 0 ∧ s.source = [] := by
  refine ⟨fetchByte_waiting s t, fun ⟨ht, hrem, hsource⟩ => ?_⟩
  subst ht
  simp only [fetchByte, if_neg hrem, hsource]

theorem readBit_of_errored {s : State} (hbc : s.bcErrored = true) : readBit s = .raised s.errCode s := if_pos hbc

/-- Inside a byte `readBit()` moves `bit_off` alone (R143). -/
theorem readBit_in_byte {s : State} (hbc : s.bcErrored = false) (hoff : s.bitOff ≠ 8) : readBit s = takeBit s := by
  simp only [readBit, hbc, hoff, Bool.false_eq_true, if_false]

/-- At the end of a byte `readBit()` fetches the next one first: the advance is lazy (R143). -/
theorem readBit_at_byte_end {s : State} (hbc : s.bcErrored = false) (hoff : s.bitOff = 8) :
    readBit s = (fetchByte s).bind fun _ t => takeBit t := by
  simp only [readBit, hbc, hoff, Bool.false_eq_true, if_false, if_true]

/-- Settles O11: by where the cursor stands. -/
theorem readBitRule : Obligations.ReadBitRule := by
  intro s
  refine ⟨readBit_of_errored, fun hbc hoff => ?_, fun hbc hoff => ⟨fun u hgot => ?_, fun e u hraised => ?_⟩⟩
  · exact ⟨_, readBit_in_byte hbc hoff, (takeBit_spec s (Fin9_lt s.bitOff hoff)).2, rfl⟩
  · obtain ⟨-, x, v, rest, -, -, rfl⟩ := fetchByte_got s u hgot
    rw [readBit_at_byte_end hbc hoff, hgot]
    rfl
  · rw [readBit_at_byte_end hbc hoff, hraised]
    rfl

theorem readBit_eq_waiting_iff (s t : State) : readBit s = .waiting t ↔
    t = s ∧ s.bcErrored = false ∧ s.bitOff = 8 ∧ s.bytesRem ≠ 0 ∧ s.source = [] := by
  refine ⟨fun h => ?_, fun ⟨ht, hbc, hoff, hwaits⟩ => ?_⟩
  · obtain ⟨ht, hbc, hoff, -, hsource, hrem⟩ := readBit_waiting s t h
    exact ⟨ht, hbc, hoff, hrem, hsource⟩
  · rw [readBit_at_byte_end hbc hoff, (fetchByte_eq_waiting_iff s t).mpr ⟨ht, hwaits⟩]
    rfl

/-! ## Where the cursor stands after a walk -/

/-- A bit read leaves the cursor at no byte's start. -/
theorem readBit_got_bitOff_pos {s t : State} {b : Bool} (h : readBit s = .got b t) : 0 < t.bitOff.val := by
  cases hbc : s.bcErrored with
  | true => rw [readBit_of_errored hbc] at h; cases h
  | false =>
    by_cases hoff : s.bitOff = 8
    · cases hf : fetchByte s with
      | got a u =>
        obtain ⟨-, x, v, rest, -, -, rfl⟩ := fetchByte_got s u hf
        rw [readBit_at_byte_end hbc hoff, hf] at h
        cases h
        exact Nat.one_pos
      | raised e u => rw [readBit_at_byte_end hbc hoff, hf] at h; cases h
      | waiting u => rw [readBit_at_byte_end hbc hoff, hf] at h; cases h
    · rw [readBit_in_byte hbc hoff] at h
      cases h
      rw [(takeBit_spec s (Fin9_lt s.bitOff hoff)).2]
      exact Nat.succ_pos _

/-- A walk leaves the cursor where it was, or at no byte's start. -/
theorem runWalk_got_bitOff {α : Type} (w : Walk α) (s t : State) (a : α) (h : runWalk w s = .got a t) :
    (t.bitOff = s.bitOff ∧ t.bytesRem = s.bytesRem) ∨ 0 < t.bitOff.val := by
  induction w generalizing s with
  | done x => cases h; exact .inl ⟨rfl, rfl⟩
  | ask g ih =>
    simp only [runWalk] at h
    cases hr : nextBit s with
    | raised e u => rw [hr] at h; cases h
    | waiting u => rw [hr] at h; cases h
    | got b u =>
      rw [hr] at h
      rcases ih b u (remember_got h) with ⟨hoff, hrem⟩ | hpos
      · unfold nextBit at hr
        split at hr
        · cases hr; exact .inl ⟨hoff, hrem⟩
        · exact .inr (hoff ▸ readBit_got_bitOff_pos hr)
      · exact .inr hpos

/-- Settles O12: the value and the coming bits are those of `readBits_ready`; `bit_off` follows from `bitpos`, for at most one
byte is fetched. -/
theorem readBitsLittleEndian : Obligations.ReadBitsLittleEndian := by
  refine ⟨fun s => rfl, fun n s hn hready => ?_⟩
  obtain ⟨t, hread, hmoved, hpos, hcoming, -, -, -, htaken⟩ := readBits_ready n s hready
  have hlen : (s.upcomingBits.take n).length = n := by
    rw [List.length_take, upcomingBits_length]; exact Nat.min_eq_left hready
  refine ⟨t, hread, by simpa only [hlen] using bitsVal_lt (s.upcomingBits.take n), hmoved, hcoming, hpos, ?_⟩
  have hchunk : t.chunkLen = s.chunkLen := by rw [hmoved]
  have hstands := runWalk_got_bitOff _ s t _ hread
  have hle := htaken.le
  have hunread : s.unread n ≤ n := Nat.sub_le _ _
  have hs := s.bitOff.isLt
  have ht := t.bitOff.isLt
  simp only [State.bitpos, hchunk] at hpos
  simp only [Fin.ext_iff, ← BitVec.toNat_inj] at hstands
  split <;> omega

/-! ## Reads of more bits than are ready -/

theorem bytesPresented_append {used rest : List SrcXfer} (h : ∀ x ∈ used, ∃ v, x.answer = .byte v) :
    bytesPresented (used ++ rest) = used.length + bytesPresented rest := by
  induction used with
  | nil => simp
  | cons x used ih =>
    obtain ⟨v, hv⟩ := h x (List.mem_cons_self ..)
    simp only [List.cons_append, bytesPresented, hv, List.length_cons, ih fun y hy => h y (List.mem_cons_of_mem x hy)]
    omega

/-- What was taken and what is still presented are the bytes that were presented. -/
theorem BytesTaken.presented {s t : State} (h : BytesTaken s t) :
    bytesPresented s.source + t.bytesRem.toNat = bytesPresented t.source + s.bytesRem.toNat := by
  obtain ⟨used, hsource, hbytes, hrem⟩ := h
  rw [hsource, bytesPresented_append hbytes]
  omega

/-- A read of more bits than are ready raises when the source answers every request: in the state `u` with the bytes before
taken, a fetch fails. -/
theorem readBits_past_ready {n : Nat} {s : State} (hbc : s.bcErrored = false) (hanswers : s.sourceAnswers)
    (hn : s.bitsReady < n) : ∃ e t u, readBits n s = .raised e t ∧ BytesTaken s u ∧ fetchByte u = .raised e t := by
  cases hread : readBits n s with
  | got v t => exact absurd (readBits_got n s t v hread).1 (Nat.not_le_of_lt hn)
  | raised e t =>
    obtain ⟨u, hmoved, -, htaken, -, hraised, -⟩ := runWalk_raised _ s t e hread
    obtain ⟨-, -, -, ⟨hset, -⟩ | ⟨-, hfetch⟩⟩ := readBit_raised u t e hraised
    · rw [hmoved] at hset; exact absurd (hbc.symm.trans hset) Bool.false_ne_true
    · exact ⟨e, t, u, rfl, htaken, hfetch⟩
  | waiting t =>
    obtain ⟨-, ⟨used, hsource, hbytes, hrem⟩, -, hempty, -, hdue, -⟩ := runWalk_waiting _ s t hread
    have hpos := (bytesRem_pred t.bytesRem hdue).2
    rw [hempty, List.append_nil] at hsource
    have hall : bytesPresented s.source = s.source.length := by
      rw [hsource]; simpa [bytesPresented] using bytesPresented_append (rest := []) hbytes
    have hused : used.length = s.source.length := by rw [hsource]
    rcases hanswers with h | h <;> omega

/-- A fetch that fails although the source presents all remaining bytes is one at the end of the chunk (R142, R146). -/
theorem fetchByte_raised_at_chunk_end {s t : State} {e : ErrCode} (h : fetchByte s = .raised e t)
    (hall : s.bytesRem.toNat ≤ bytesPresented s.source) :
    s.bytesRem = 0 ∧ e = .unexpectedEndOfChunk ∧ t.source = s.source := by
  obtain ⟨-, hend | ⟨hdue, x, rest, hsource, -, hx⟩⟩ := fetchByte_raised s t e h
  · exact hend
  · have hpos := (bytesRem_pred s.bytesRem hdue).2
    have hnone : bytesPresented s.source = 0 := by
      rcases hx with ⟨hx, -⟩ | ⟨hx, -⟩ <;> simp only [hsource, bytesPresented, hx]
    omega

/-- Settles O14: by the causes of the failing fetch. -/
theorem readPastReadyBitsRaises : Obligations.ReadPastReadyBitsRaises := by
  intro n s hbc hanswers hn
  obtain ⟨e, t, u, hread, htaken, hfetch⟩ := readBits_past_ready hbc hanswers hn
  obtain ⟨hframe, hcause⟩ := fetchByte_raised u t e hfetch
  refine ⟨e, t, hread, ?_, by rw [hframe], fun hall => ?_⟩
  · rcases hcause with ⟨-, he, -⟩ | ⟨-, x, rest, -, -, ⟨-, he⟩ | ⟨-, he⟩⟩
    · exact .inl he
    · exact .inl he
    · exact .inr he
  · have hpresented := htaken.presented
    obtain ⟨hrem, he, -⟩ := fetchByte_raised_at_chunk_end hfetch (by omega)
    exact ⟨he, by rw [hframe]; exact hrem⟩

theorem applyStart_bitsReady (len : Len) (s : State) :
    (applyStart len s).bitsReady = 8 * min len.toNat (bytesPresented s.source) := by
  simp [State.bitsReady, State.cursorReady]

/-- Settles O13: `Start` leaves no bit of an earlier chunk, and the failing fetch stands at the end of the chunk. -/
theorem chunkDeliversExactlyItsBits : Obligations.ChunkDeliversExactlyItsBits := by
  intro s len
  refine ⟨applyStart_bitsReady len s, fun n hn => ?_, fun hall n hn => ?_⟩
  · obtain ⟨t, hread, -⟩ := readBits_ready n (applyStart len s) (by rw [applyStart_bitsReady]; exact hn)
    exact ⟨_, t, hread⟩
  · have hready : (applyStart len s).bitsReady < n := by rw [applyStart_bitsReady, Nat.min_eq_left hall]; exact hn
    obtain ⟨e, t, u, hread, htaken, hfetch⟩ := readBits_past_ready rfl (.inl hall) hready
    have hpresented := htaken.presented
    obtain ⟨used, hsource, -, htotal⟩ := htaken
    simp only [applyStart_source, applyStart_bytesRem] at hpresented hsource htotal
    obtain ⟨hrem, rfl, htsource⟩ := fetchByte_raised_at_chunk_end hfetch (by omega)
    have hlen : used.length = len.toNat := by rw [hrem] at htotal; simpa using htotal
    exact ⟨t, hread, by rw [htsource, hsource, ← hlen, List.drop_left]⟩

end Sys2Proof.Machine
end

section
/-! SUPPORT. The header's reads as a walk (spec/40_bit_cursor.md R145, spec/43_decoder_fsm.md R212): at a byte boundary a header
byte is `readBits(8)`, so that a fetch in any context is one walk over the coming bits. -/

namespace Sys2Proof.Machine

/-! ## Walks in sequence -/

/-- A read that came to wait remembers the bits read before it. -/
def Read.rememberBits {α : Type} (bits : Bits) : Read α → Read α
  | .got a s => .got a s
  | .raised e s => .raised e s
  | .waiting s => .waiting { s with stepBits := bits ++ s.stepBits }

theorem Read.rememberBits_nil {α : Type} (r : Read α) : r.rememberBits [] = r := by cases r <;> rfl

theorem Read.rememberBits_cons {α : Type} (b : Bool) (bits : Bits) (r : Read α) :
    r.rememberBits (b :: bits) = (r.rememberBits bits).remember b := by cases r <;> rfl

theorem Read.bind_got {α β : Type} (a : α) (s : State) (f : α → State → Read β) : (Read.got a s).bind f = f a s := rfl

theorem Read.bind_assoc {α β γ : Type} (r : Read α) (f : α → State → Read β) (g : β → State → Read γ) :
    (r.bind f).bind g = r.bind fun a t => (f a t).bind g := by cases r <;> rfl

theorem Read.rememberByte_eq {α : Type} (v : Byte) (r : Read α) : r.rememberByte v = r.rememberBits (bitsOf 8 v.toNat) := by
  cases r <;> rfl

theorem runWalk_ask_got {α : Type} {g : Bool → Walk α} {s t : State} {b : Bool} (h : nextBit s = .got b t) :
    runWalk (.ask g) s = (runWalk (g b) t).remember b := by simp only [runWalk, h]

/-- A walk leaves at most the bits that were ready. -/
theorem runWalk_got_bitsReady {α : Type} {w : Walk α} {s t : State} {a : α} (h : runWalk w s = .got a t) :
    t.bitsReady ≤ s.bitsReady := by
  obtain ⟨-, -, hle, -⟩ := runWalk_got w s t a h
  exact hle

/-- A walk's continuation runs where the walk ended, and where it waits it remembers the bits of both. -/
theorem runWalk_bind_got {α β : Type} (w : Walk α) (f : α → Walk β) {s t : State} {a : α} (h : runWalk w s = .got a t) :
    runWalk (w.bind f) s = (runWalk (f a) t).rememberBits (s.upcomingBits.take (s.bitsReady - t.bitsReady)) := by
  induction w generalizing s with
  | done x => cases h; simp [Read.rememberBits_nil]
  | ask g ih =>
    cases hr : nextBit s with
    | raised e u => simp only [runWalk, hr] at h; cases h
    | waiting u => simp only [runWalk, hr] at h; cases h
    | got b u =>
      obtain ⟨-, -, hcoming, -⟩ := nextBit_got s u b hr
      rw [runWalk_ask_got hr] at h
      have hgot := remember_got h
      have hle := runWalk_got_bitsReady hgot
      have hlen : s.bitsReady - t.bitsReady = u.bitsReady - t.bitsReady + 1 := by
        rw [← upcomingBits_length s, hcoming, List.length_cons, upcomingBits_length]; omega
      rw [Walk.bind_ask, runWalk_ask_got hr, ih b hgot, hlen, hcoming, List.take_succ_cons, Read.rememberBits_cons]

theorem runWalk_bind_raised {α β : Type} (w : Walk α) (f : α → Walk β) {s t : State} {e : ErrCode}
    (h : runWalk w s = .raised e t) : runWalk (w.bind f) s = .raised e t := by
  induction w generalizing s with
  | done x => cases h
  | ask g ih =>
    cases hr : nextBit s with
    | raised e' u => simp only [runWalk, hr] at h; cases h; simp only [Walk.bind_ask, runWalk, hr]
    | waiting u => simp only [runWalk, hr] at h; cases h
    | got b u =>
      rw [runWalk_ask_got hr] at h
      rw [Walk.bind_ask, runWalk_ask_got hr, ih b (remember_raised h)]
      rfl

theorem runWalk_bind_waiting {α β : Type} (w : Walk α) (f : α → Walk β) {s t : State} (h : runWalk w s = .waiting t) :
    runWalk (w.bind f) s = .waiting t := by
  induction w generalizing s t with
  | done x => cases h
  | ask g ih =>
    cases hr : nextBit s with
    | raised e u => simp only [runWalk, hr] at h; cases h
    | waiting u => simp only [runWalk, hr] at h; cases h; simp only [Walk.bind_ask, runWalk, hr]
    | got b u =>
      rw [runWalk_ask_got hr] at h
      obtain ⟨v, hv, rfl⟩ := remember_waiting h
      rw [Walk.bind_ask, runWalk_ask_got hr, ih b hv]
      rfl

/-! ## A byte of bits -/

theorem nextBit_of_stepBits_nil {s : State} (h : s.stepBits = []) : nextBit s = readBit s := by simp only [nextBit, h]

theorem readBits_succ_got {n v : Nat} {s t u : State} {b : Bool} (hbit : nextBit s = .got b t)
    (hrest : readBits n t = .got v u) : readBits (n + 1) s = .got (b.toNat + 2 * v) u := by
  have hmap := runWalk_bind_done (Walk.readBits n) (fun v => b.toNat + 2 * v) t
  rw [show runWalk (Walk.readBits n) t = .got v u from hrest] at hmap
  unfold readBits
  simp only [Walk.readBits, Walk.readBit, Walk.bind_ask, Walk.bind_done]
  rw [runWalk_ask_got hbit, hmap]
  rfl

/-- Bits read before the step came to wait cost the cursor nothing. -/
theorem readBits_remembered {n : Nat} {s : State} (h : n ≤ s.stepBits.length) :
    ∃ v, readBits n s = .got v { s with stepBits := s.stepBits.drop n } := by
  induction n generalizing s with
  | zero => exact ⟨0, rfl⟩
  | succ n ih =>
    cases hbits : s.stepBits with
    | nil => simp [hbits] at h
    | cons b rest =>
      have hbit : nextBit s = .got b { s with stepBits := rest } := by simp only [nextBit, hbits]
      obtain ⟨v, hv⟩ := ih (s := { s with stepBits := rest }) (by simpa [hbits] using h)
      exact ⟨_, readBits_succ_got hbit hv⟩

/-- Bits inside the byte at the cursor move `bit_off` alone. -/
theorem readBits_in_byte {n : Nat} {s : State} (hbc : s.bcErrored = false) (hbits : s.stepBits = [])
    (hn : s.bitOff.val + n ≤ 8) :
    ∃ v t, readBits n s = .got v t ∧ t = { s with bitOff := t.bitOff } ∧ t.bitOff.val = s.bitOff.val + n := by
  induction n generalizing s with
  | zero => exact ⟨0, s, rfl, rfl, rfl⟩
  | succ n ih =>
    have hlt : s.bitOff.val < 8 := by omega
    obtain ⟨htake, hnext⟩ := takeBit_spec s hlt
    have hbit : nextBit s = .got (s.curByte.toNat.testBit s.bitOff.val) { s with bitOff := s.bitOff + 1 } := by
      rw [nextBit_of_stepBits_nil hbits, readBit_in_byte hbc (Fin.ne_of_lt hlt), htake]
    obtain ⟨v, t, hread, hframe, hoff⟩ := ih (s := { s with bitOff := s.bitOff + 1 }) hbc hbits
      (by show (s.bitOff + 1 : Fin 9).val + n ≤ 8; omega)
    exact ⟨_, t, readBits_succ_got hbit hread, hframe, by rw [hoff]; show (s.bitOff + 1 : Fin 9).val + n = _; omega⟩

/-- A byte fetched leaves the cursor at its start. -/
theorem fetchByte_got_cursor {s u : State} (h : fetchByte s = .got () u) :
    u.bitOff = 0 ∧ u.bcErrored = s.bcErrored ∧ u.stepBits = s.stepBits := by
  obtain ⟨-, x, v, rest, -, -, rfl⟩ := fetchByte_got s u h
  exact ⟨rfl, rfl, rfl⟩

/-- At the end of a byte reads go on in the byte fetched. -/
theorem readBits_after_fetch {n : Nat} {s u : State} (hbc : s.bcErrored = false) (hbits : s.stepBits = [])
    (hoff : s.bitOff = 8) (hfetch : fetchByte s = .got () u) : readBits (n + 1) s = readBits (n + 1) u := by
  obtain ⟨hoff', hbc', hbits'⟩ := fetchByte_got_cursor hfetch
  have hbit : nextBit s = nextBit u := by
    rw [nextBit_of_stepBits_nil hbits, nextBit_of_stepBits_nil (hbits'.trans hbits), readBit_at_byte_end hbc hoff, hfetch,
      readBit_in_byte (hbc'.trans hbc) (by rw [hoff']; decide), Read.bind_got]
  simp only [readBits, Walk.readBits, Walk.readBit, Walk.bind_ask, runWalk, hbit]

/-- Eight bits from a byte's start are the byte. -/
theorem readBits_eight_in_byte {u : State} (hbc : u.bcErrored = false) (hbits : u.stepBits = []) (hoff : u.bitOff = 0) :
    readBits 8 u = .got u.curByte.toNat { u with bitOff := 8 } := by
  obtain ⟨n, t, hread, hframe, hend⟩ := readBits_in_byte (n := 8) hbc hbits (by rw [hoff]; decide)
  obtain ⟨-, hval, -⟩ := readBits_got 8 u t n hread
  have hcoming : u.upcomingBits = bitsOf 8 u.curByte.toNat ++
      bytesBits ((presentedBytes u.source).take u.bytesRem.toNat) := by
    simp [State.upcomingBits, State.cursorBits, hbits, hbc, hoff]
  have hvalue : n = u.curByte.toNat := by
    rw [hval, hcoming, List.take_left' (bitsOf_length 8 _), bitsVal_bitsOf]
    exact Nat.mod_eq_of_lt u.curByte.isLt
  have hoff8 : t.bitOff = 8 := Fin.ext (by rw [hend, hoff]; rfl)
  rw [hread, hframe, hoff8, hvalue]

/-- `readHeaderByte()` is `readBits(8)` at a byte boundary (R145). -/
theorem readBits_eight_eq {s : State} (hoff : s.bitOff = 8) (hbc : s.bcErrored = false) (hbits : s.stepBits = []) :
    readBits 8 s = (readHeaderByte s).bind fun v t => .got v.toNat t := by
  have hbit : nextBit s = (fetchByte s).bind fun _ t => takeBit t :=
    (nextBit_of_stepBits_nil hbits).trans (readBit_at_byte_end hbc hoff)
  unfold readHeaderByte
  cases hfetch : fetchByte s with
  | got a u =>
    obtain ⟨hoff', hbc', hbits'⟩ := fetchByte_got_cursor hfetch
    rw [readBits_after_fetch hbc hbits hoff hfetch,
      readBits_eight_in_byte (hbc'.trans hbc) (hbits'.trans hbits) hoff']
    rfl
  | raised e t =>
    rw [hfetch] at hbit
    simp only [readBits, Walk.readBits, Walk.readBit, Walk.bind_ask, runWalk, hbit, Read.bind]
  | waiting t =>
    rw [hfetch] at hbit
    simp only [readBits, Walk.readBits, Walk.readBit, Walk.bind_ask, runWalk, hbit, Read.bind]

/-- Settles O15: both are the same read. -/
theorem headerByteIsReadBitsEight : Obligations.HeaderByteIsReadBitsEight := by
  intro s hoff hbc hbits
  rw [readBits_eight_eq hoff hbc hbits]
  cases readHeaderByte s <;> simp [Read.bind, BitVec.toNat_inj]

/-! ## The header's reads -/

/-- The cursor stands at the end of a byte, and what the step has read before it came to wait are whole bytes. -/
structure AtByteBoundary (s : State) : Prop where
  bitOff : s.bitOff = 8
  bcErrored : s.bcErrored = false
  wholeBytes : s.stepBits.length % 8 = 0

theorem readBits_eight_eq_nextHeaderByte {s : State} (h : AtByteBoundary s) :
    readBits 8 s = (nextHeaderByte s).bind fun v t => .got v.toNat t := by
  by_cases hbits : s.stepBits = []
  · rw [readBits_eight_eq h.bitOff h.bcErrored hbits]
    simp only [nextHeaderByte, hbits]
  · have hpos := List.length_pos_iff.mpr hbits
    have hwhole := h.wholeBytes
    have h8 : 8 ≤ s.stepBits.length := by omega
    obtain ⟨v, hread⟩ := readBits_remembered h8
    obtain ⟨-, hval, -⟩ := readBits_got _ _ _ _ hread
    have htake : s.upcomingBits.take 8 = s.stepBits.take 8 := List.take_append_of_le_length h8
    have hlt : bitsVal (s.stepBits.take 8) < 2 ^ 8 := by
      simpa [Nat.min_eq_left h8] using bitsVal_lt (s.stepBits.take 8)
    have hbyte : nextHeaderByte s =
        .got (BitVec.ofNat 8 (bitsVal (s.stepBits.take 8))) { s with stepBits := s.stepBits.drop 8 } := by
      unfold nextHeaderByte
      split
      · next hnil => exact absurd hnil hbits
      · rfl
    rw [hread, hbyte, hval, htake, Read.bind, BitVec.toNat_ofNat, Nat.mod_eq_of_lt hlt]

theorem AtByteBoundary.nextHeaderByte {s t : State} {v : Byte} (h : AtByteBoundary s) (hr : nextHeaderByte s = .got v t) :
    AtByteBoundary t := by
  obtain ⟨hmoved, -, -, hbits, hcase⟩ := nextHeaderByte_got s t v hr
  refine ⟨?_, by rw [hmoved]; exact h.bcErrored, ?_⟩
  · rcases hcase with ⟨-, hread⟩ | ⟨-, -, rfl⟩
    · obtain ⟨-, -, -, hoff, -⟩ := readHeaderByte_got s t v hread
      exact hoff
    · exact h.bitOff
  · have := h.wholeBytes
    rw [hbits, List.length_drop]
    omega

/-- The header's two bytes as a walk. -/
def headerBytes : Walk (Byte × Byte) :=
  (Walk.readBits 8).bind fun m => (Walk.readBits 8).bind fun c => .done (BitVec.ofNat 8 m, BitVec.ofNat 8 c)

theorem Walk.bind_assoc {α β γ : Type} (w : Walk α) (f : α → Walk β) (g : β → Walk γ) :
    (w.bind f).bind g = w.bind fun a => (f a).bind g := by
  induction w with
  | done a => rfl
  | ask next ih => simp only [Walk.bind_ask, ih]

theorem decodeHeader_eq : decodeHeader = headerBytes.bind fun mc => .done (.hdr mc.1 mc.2) := by
  simp only [decodeHeader, headerBytes, Walk.bind_assoc, Walk.bind_done]

/-- At a byte boundary the header's reads are that walk (R145, R212). -/
theorem readHeader_eq_runWalk {s : State} (h : AtByteBoundary s) : readHeader s = runWalk headerBytes s := by
  have hfirst : runWalk (Walk.readBits 8) s = _ := readBits_eight_eq_nextHeaderByte h
  unfold readHeader headerBytes
  cases hm : nextHeaderByte s with
  | raised e t => rw [hm] at hfirst; exact (runWalk_bind_raised _ _ hfirst).symm
  | waiting t => rw [hm] at hfirst; exact (runWalk_bind_waiting _ _ hfirst).symm
  | got m t =>
    rw [hm] at hfirst
    have hsecond : runWalk (Walk.readBits 8) t = _ := readBits_eight_eq_nextHeaderByte (h.nextHeaderByte hm)
    obtain ⟨h8, hval, -, -, -, -, -, hready, -⟩ := readBits_got 8 s t m.toNat hfirst
    have hlen : (s.upcomingBits.take 8).length = 8 := by
      rw [List.length_take, upcomingBits_length]; exact Nat.min_eq_left h8
    have hbits : bitsOf 8 m.toNat = s.upcomingBits.take 8 := by
      rw [hval]; simpa only [hlen] using bitsOf_bitsVal (s.upcomingBits.take 8)
    rw [runWalk_bind_got _ _ hfirst, runWalk_bind_done, hsecond, show s.bitsReady - t.bitsReady = 8 by omega, ← hbits,
      ← Read.rememberByte_eq]
    simp only [Read.bind_assoc, Read.bind_got, BitVec.ofNat_toNat, BitVec.setWidth_eq]

/-- What a fetch in a context needs to be a walk: nothing outside the header. -/
abbrev FetchAligned (ctx : Context) (s : State) : Prop := ctx = .header → AtByteBoundary s ∧ 2 < s.chunkLen.toNat

/-- A fetch is the walk of its context over the coming bits. -/
theorem fetchInstr_eq_runWalk {ctx : Context} {s : State} (h : FetchAligned ctx s) :
    fetchInstr ctx s = runWalk (decodeWalk ctx s.dictBits) s := by
  by_cases hctx : ctx = .header
  · subst hctx
    obtain ⟨hboundary, hlen⟩ := h rfl
    simp only [fetchInstr, decodeWalk, decodeHeader_eq, runWalk_bind_done, if_neg (Nat.not_le_of_lt hlen),
      readHeader_eq_runWalk hboundary]
  · exact fetchInstr_of_ne_header ctx s hctx

end Sys2Proof.Machine
end

section
/-! SUPPORT. Fetching, and waiting for the source (spec/40_bit_cursor.md R148, spec/43_decoder_fsm.md R214, R215): a step runs the
instruction its coming bits decode to, and where they do not suffice it waits, with no difference to what it does once the answers
come. -/

namespace Sys2Proof.Machine

/-! ## The fetch of a step -/

theorem ready_activity (s : State) : s.ready.activity = s.activity := by
  simp only [State.activity, decodingActivity, handOver_state, takeInput_state, handOver_lookupReq, takeInput_lookupReq,
    handOver_copyRem, takeInput_copyRem]

theorem ready_upcomingBits (s : State) : s.ready.upcomingBits = (takeInput s).upcomingBits := by
  unfold State.ready
  cases s.input.outReady <;> rfl

theorem decoderStep_fetch {s : State} {ctx : Context} (h : s.activity = .fetch ctx) :
    decoderStep s = settle (fetchInstr ctx (leaveHeaderRead s)) fun i _ => exec i (leaveHeaderRead s) := by
  unfold decoderStep; rw [h]

/-- A step that holds no beat and fetches is the fetch and what follows it. -/
theorem step_fetch {s : State} {ctx : Context} (hrst : s.input.rst = false) (hstart : s.input.start = none)
    (ho : s.ready.outHold = none) (ha : s.activity = .fetch ctx) :
    step s = settle (fetchInstr ctx (leaveHeaderRead s.ready)) fun i _ => exec i (leaveHeaderRead s.ready) := by
  rw [step_block s hrst hstart]
  rcases blockStep_cases s.ready with ⟨hheld, -⟩ | ⟨-, hstep⟩
  · exact absurd ho hheld
  · rw [hstep, decoderStep_fetch ((ready_activity s).trans ha)]

/-- Settles O51: the fetch is the walk of its context over the coming bits. -/
theorem stepRunsUpcomingBits : Obligations.StepRunsUpcomingBits := by
  intro s ctx i rest hrst hstart ho hstate ha hheader hdecode
  have hleave : leaveHeaderRead s.ready = s.ready := leaveHeaderRead_eq _ (by simpa using hstate)
  have haligned : FetchAligned ctx s.ready := fun hctx => by
    obtain ⟨hoff, hbc, hlen, hwhole⟩ := hheader hctx
    exact ⟨⟨by simpa using hoff, by simpa using hbc, by simpa using hwhole⟩, by simpa using hlen⟩
  have hwalk : (decodeWalk ctx s.ready.dictBits).runBits s.ready.upcomingBits = .ok (i, rest) := by
    rw [ready_upcomingBits, handOver_dictBits, takeInput_dictBits]; exact hdecode
  obtain ⟨t, hgot, -⟩ := runWalk_of_runBits _ _ _ _ hwalk
  rw [step_fetch hrst hstart ho ha, hleave, fetchInstr_eq_runWalk haligned, hgot]
  rfl

/-! ## A walk that waits -/

/-- Where a walk came to wait the cursor is at the end of a byte, with no byte cut. -/
theorem AtByteBoundary.waiting {α : Type} {w : Walk α} {s t : State} (h : AtByteBoundary s)
    (hr : runWalk w s = .waiting t) : AtByteBoundary t := by
  obtain ⟨-, -, hbits, -, hoff, -, hbc, -⟩ := runWalk_waiting w s t hr
  refine ⟨hoff, hbc, ?_⟩
  have := h.wholeBytes
  rw [hbits, upcomingBits_length, State.bitsReady, State.cursorReady, h.bitOff, h.bcErrored]
  simp only [Bool.false_eq_true, if_false]
  omega

theorem AtByteBoundary.setSource {s : State} (h : AtByteBoundary s) (xs : List SrcXfer) :
    AtByteBoundary { s with source := xs } := ⟨h.bitOff, h.bcErrored, h.wholeBytes⟩

theorem FetchAligned.waiting {α : Type} {w : Walk α} {ctx : Context} {s t : State} (h : FetchAligned ctx s)
    (hr : runWalk w s = .waiting t) : FetchAligned ctx t := fun hctx => by
  obtain ⟨hboundary, hlen⟩ := h hctx
  obtain ⟨hmoved, -⟩ := runWalk_waiting w s t hr
  exact ⟨hboundary.waiting hr, by rw [hmoved]; exact hlen⟩

theorem setSource_nil {t : State} (h : t.source = []) : ({ t with source := [] } : State) = t := by cases t; cases h; rfl

/-- While the source presents nothing, a walk that waits goes on waiting and changes nothing (R148). -/
theorem runWalk_waiting_again {α : Type} {w : Walk α} {s t : State} (h : runWalk w s = .waiting t) :
    runWalk w t = .waiting t := by
  obtain ⟨-, -, -, hsource, -⟩ := runWalk_waiting w s t h
  have hlate := runWalk_late w s t [] h
  rw [List.append_nil, setSource_nil hsource] at hlate
  exact hlate.trans h

/-- A header's fetch that waits is one of a chunk of more than two bytes. -/
theorem chunkLen_of_header_waiting {s t : State} (h : fetchInstr .header s = .waiting t) : 2 < s.chunkLen.toNat := by
  by_contra hlen
  simp only [fetchInstr, if_pos (Nat.le_of_not_lt hlen)] at h
  cases h

/-- Settles O53: the fetch that waits is a walk that waits. -/
theorem waitingForTheSource : Obligations.WaitingForTheSource := by
  refine ⟨fetchByte_eq_waiting_iff, readBit_eq_waiting_iff, ?_⟩
  rintro s u t ctx hrst hstart rfl ho ha hheader hwaits
  have haligned : FetchAligned ctx (leaveHeaderRead s.ready) := fun hctx => by
    obtain ⟨hoff, hbc, hwhole⟩ := hheader hctx
    exact ⟨⟨hoff, hbc, hwhole⟩, chunkLen_of_header_waiting (hctx ▸ hwaits)⟩
  have hwalk := (fetchInstr_eq_runWalk haligned).symm.trans hwaits
  obtain ⟨hmoved, ⟨used, hused, hbytes, hrem⟩, hbits, hsource, hoff, hdue, -⟩ := runWalk_waiting _ _ t hwalk
  rw [hsource, List.append_nil] at hused
  have hdict : t.dictBits = (leaveHeaderRead s.ready).dictBits := by rw [hmoved]
  have hagain : fetchInstr ctx t = .waiting t := by
    rw [fetchInstr_eq_runWalk (haligned.waiting hwalk), hdict]
    exact runWalk_waiting_again hwalk
  refine ⟨?_, hmoved, hsource, hoff, hdue, hused ▸ hbytes, hused ▸ hrem, hbits, hagain⟩
  rw [step_fetch hrst hstart (by rw [leaveHeaderRead_outHold] at ho; exact ho) ha, hwaits]
  rfl

end Sys2Proof.Machine
end

section
/-! SUPPORT. Late answers (spec/40_bit_cursor.md R148, spec/44_host_interface.md R255, R258): a step that waited, resumed with the
answers that came, is the step made with those answers in the source from the start. -/

namespace Sys2Proof.Machine

/-! ## A meaning is a read of its bits and what follows -/

/-- `go` is what the instruction `i` does once its bits are read: outside the header a meaning reads as many bits as its encoding
has and looks at nothing but where that read ends. A token's meaning ends in a beat, a table row's answers the walk request. -/
structure ReadsThenRuns (db : BitVec 3) (i : Instr) (go : State → Outcome) : Prop where
  exec_eq : ∀ s : State, s.dictBits = db → exec i s = settle (readBits (Laws.EncodedSize.size db i) s) fun _ u => go u
  beat : i.context = .token → ∀ u t : State, go u = .next t → t.outHold ≠ none
  answered : i.context ≠ .token → ∀ u t : State, go u = .next t → t.lookupReq = none

theorem putEmit_outHold {b : Byte} {s t : State} (h : putEmit b s = .next t) : t.outHold ≠ none := by
  obtain ⟨-, -, -, -, hframe⟩ := putEmit_next b s t h
  rw [hframe]
  exact Option.some_ne_none _

theorem copyContinue_outHold {s t : State} (h : copyContinue s = .next t) : t.outHold ≠ none := by
  obtain ⟨u, -, hput⟩ := copyContinue_next s t h
  exact putEmit_outHold hput

theorem readsThenRuns_lit (db : BitVec 3) (b : Byte) : ReadsThenRuns db (.lit b) (putEmit b) where
  exec_eq _ _ := rfl
  beat _ _ _ h := putEmit_outHold h
  answered h := absurd rfl h

/-- What a `COPY` does once its fields are read (R221). -/
def copyAfterFields (db : BitVec 3) (len : BitVec 10) (off : BitVec 12) (u : State) : Outcome :=
  let found := { u with
    lenVal := BitVec.ofNat 10 len.toNat, highVal := BitVec.ofNat 6 (off.toNat >>> lowBits db len.toNat) }
  copyStart (copyOffset len.toNat off.toNat found) found

theorem readsThenRuns_copy (db : BitVec 3) (len : BitVec 10) (off : BitVec 12) (h : (Instr.copy len off).wf db = true) :
    ReadsThenRuns db (.copy len off) (copyAfterFields db len off) where
  exec_eq s hdb := by
    subst hdb
    show execCopy len off s = _
    rw [← copyFieldBits_eq_size s.dictBits len off h]
    unfold execCopy readCopyFields copyAfterFields
    cases readBits (copyFieldBits s.dictBits len.toNat off.toNat) s <;> rfl
  beat _ u t hgo := by
    obtain ⟨v, -, hput⟩ := copyStart_next _ _ t hgo
    exact putEmit_outHold hput
  answered h := absurd rfl h

theorem readsThenRuns_eos (db : BitVec 3) :
    ReadsThenRuns db .eos fun u => .next (emit .eos { u with lenVal := 519, state := .finished }) where
  exec_eq s _ := by
    show execEos s = settle (readBits 16 s) _
    unfold execEos lookupLength
    cases readBits 16 s <;> rfl
  beat _ _ _ h := by cases h; exact Option.some_ne_none _
  answered h := absurd rfl h

/-- A row of `LEN_TABLE` is `runLength` of its bits and one length. -/
theorem exec_length_row (i : Instr) (h : i.context = .length) :
    ∃ len, ∀ (db : BitVec 3) (s : State), exec i s = runLength (Laws.EncodedSize.size db i) len s := by
  cases i <;> cases h <;> exact ⟨_, fun _ _ => rfl⟩

/-- A row of `DIST_TABLE` is `runOffsetHigh` of its bits and one value. -/
theorem exec_offsetHigh_row (i : Instr) (h : i.context = .offsetHigh) :
    ∃ high, ∀ (db : BitVec 3) (s : State), exec i s = runOffsetHigh (Laws.EncodedSize.size db i) high s := by
  cases i <;> cases h <;> exact ⟨_, fun _ _ => rfl⟩

theorem readsThenRuns_length (db : BitVec 3) (i : Instr) (h : i.context = .length) : ∃ go, ReadsThenRuns db i go := by
  obtain ⟨len, hexec⟩ := exec_length_row i h
  refine ⟨fun u => .next { u with lenVal := BitVec.ofNat 10 len, lookupReq := none }, fun s _ => ?_, fun htok => ?_,
    fun _ u t hgo => by cases hgo; rfl⟩
  · rw [hexec db s]
    unfold runLength lookupLength
    cases readBits (Laws.EncodedSize.size db i) s <;> rfl
  · rw [h] at htok; cases htok

theorem readsThenRuns_offsetHigh (db : BitVec 3) (i : Instr) (h : i.context = .offsetHigh) :
    ∃ go, ReadsThenRuns db i go := by
  obtain ⟨high, hexec⟩ := exec_offsetHigh_row i h
  refine ⟨fun u => .next { u with highVal := BitVec.ofNat 6 high, lookupReq := none }, fun s _ => ?_, fun htok => ?_,
    fun _ u t hgo => by cases hgo; rfl⟩
  · rw [hexec db s]
    unfold runOffsetHigh lookupOffsetHigh
    cases readBits (Laws.EncodedSize.size db i) s <;> rfl
  · rw [h] at htok; cases htok

theorem exists_readsThenRuns (db : BitVec 3) (i : Instr) (hctx : i.context ≠ .header) (hwf : i.wf db = true) :
    ∃ go, ReadsThenRuns db i go := by
  cases hi : i.context with
  | header => exact absurd hi hctx
  | token =>
    obtain ⟨tok, rfl⟩ := eq_toInstr_of_context_token i hi
    cases tok with
    | lit b => exact ⟨_, readsThenRuns_lit db b⟩
    | copy len off => exact ⟨_, readsThenRuns_copy db len off hwf⟩
    | eos => exact ⟨_, readsThenRuns_eos db⟩
  | length => exact readsThenRuns_length db i hi
  | offsetHigh => exact readsThenRuns_offsetHigh db i hi

/-! ## The walk that finds an instruction and the read of its bits end alike -/

/-- A walk ends where the read of as many bits ends. -/
theorem readBits_of_runWalk_got {α : Type} (w : Walk α) {s u : State} {a : α} (h : runWalk w s = .got a u) :
    ∃ v, readBits (s.bitsReady - u.bitsReady) s = .got v u := by
  induction w generalizing s with
  | done x => cases h; exact ⟨0, by rw [Nat.sub_self]; rfl⟩
  | ask g ih =>
    cases hr : nextBit s with
    | raised e t => simp only [runWalk, hr] at h; cases h
    | waiting t => simp only [runWalk, hr] at h; cases h
    | got b t =>
      rw [runWalk_ask_got hr] at h
      have hgot := remember_got h
      obtain ⟨v, hv⟩ := ih b hgot
      obtain ⟨-, -, hcoming, -⟩ := nextBit_got s t b hr
      have hle := runWalk_got_bitsReady hgot
      have hlen : s.bitsReady - u.bitsReady = t.bitsReady - u.bitsReady + 1 := by
        rw [← upcomingBits_length s, hcoming, List.length_cons, upcomingBits_length]; omega
      exact ⟨_, hlen ▸ readBits_succ_got hr hv⟩

/-- Outside the header: the instruction fetched is a legal one of the context, and the read of its bits ends where the fetch
ended. -/
theorem readBits_of_decodeWalk_got {ctx : Context} {s u : State} {i : Instr} (hctx : ctx ≠ .header)
    (hdb : legalSizeCode s.dictBits.toNat = true) (h : runWalk (decodeWalk ctx s.dictBits) s = .got i u) :
    i.context = ctx ∧ i.wf s.dictBits = true ∧ ∃ v, readBits (Laws.EncodedSize.size s.dictBits i) s = .got v u := by
  obtain ⟨-, -, -, hruns, -⟩ := runWalk_got _ s u i h
  obtain ⟨k, hlen, hbits, hcontext, hwf⟩ := decodeWalk_takesBits ctx s.dictBits hctx hdb _ _ _ hruns
  rw [upcomingBits_length, upcomingBits_length] at hlen
  have hsize : Laws.EncodedSize.size s.dictBits i = s.bitsReady - u.bitsReady := by omega
  exact ⟨hcontext, hwf, hsize ▸ readBits_of_runWalk_got _ h⟩

/-- The meaning of an instruction fetched is what follows its bits, from where the fetch ended. -/
theorem exec_of_decodeWalk_got {ctx : Context} {s u : State} {i : Instr} {go : State → Outcome} (hctx : ctx ≠ .header)
    (hdb : legalSizeCode s.dictBits.toNat = true) (hgo : ReadsThenRuns s.dictBits i go)
    (h : runWalk (decodeWalk ctx s.dictBits) s = .got i u) : exec i s = go { u with stepBits := [] } := by
  obtain ⟨-, -, v, hread⟩ := readBits_of_decodeWalk_got hctx hdb h
  rw [hgo.exec_eq s rfl, hread]
  rfl

/-! ## Steps that wait while decoding -/

theorem lookupReq_of_fetch {s : State} {ctx : Context} (hs : s.state = .decoding) (ha : s.activity = .fetch ctx)
    (hctx : ctx ≠ .token) : s.lookupReq ≠ none := by
  intro hnone
  unfold State.activity decodingActivity at ha
  simp only [hs, hnone] at ha
  split at ha
  · exact hctx (by cases ha; rfl)
  · cases ha

/-- While decoding, a step that fetches is the walk of its context and what follows it (R215). -/
theorem decoderStep_decoding {s : State} {ctx : Context} (hs : s.state = .decoding) (ha : s.activity = .fetch ctx)
    (hctx : ctx ≠ .header) : decoderStep s = settle (runWalk (decodeWalk ctx s.dictBits) s) fun i _ => exec i s := by
  rw [decoderStep_fetch ha, leaveHeaderRead_eq s (by rw [hs]; decide), fetchInstr_of_ne_header ctx s hctx]

/-- A step that answers without a beat and without a walk's answer waits in its fetch. -/
theorem decoding_step_waits {s t : State} (h : DecodingInv s) (ht : decoderStep s = .next t) (ho : t.outHold = none)
    (hl : t.lookupReq = s.lookupReq) :
    ∃ ctx, ctx ≠ .header ∧ s.activity = .fetch ctx ∧ runWalk (decodeWalk ctx s.dictBits) s = .waiting t := by
  rcases activity_decoding s h.state with ⟨ctx, hctx, ha⟩ | ⟨-, ha⟩
  · refine ⟨ctx, hctx, ha, ?_⟩
    rw [decoderStep_decoding h.state ha hctx] at ht
    rcases settle_next t _ _ ht with ⟨i, u, hgot, hexec⟩ | ⟨e, u, -, rfl⟩ | hwaits
    · obtain ⟨rfl, hwf, -⟩ := readBits_of_decodeWalk_got hctx h.legal hgot
      obtain ⟨go, hgo⟩ := exists_readsThenRuns s.dictBits i hctx hwf
      have hend := (exec_of_decodeWalk_got hctx h.legal hgo hgot).symm.trans hexec
      by_cases htok : i.context = .token
      · exact absurd ho (hgo.beat htok _ t hend)
      · exact absurd (hl.symm.trans (hgo.answered htok _ t hend)) (lookupReq_of_fetch h.state ha htok)
    · cases ho
    · exact hwaits
  · have hcopy : decoderStep s = copyContinue (leaveHeaderRead s) := by unfold decoderStep; rw [ha]
    exact absurd ho (copyContinue_outHold (hcopy.symm.trans ht))

/-- Two states in which the same walk answers the same take the same step: its meaning starts where the walk ended. -/
theorem decoding_step_congr {s t : State} {ctx : Context} (hctx : ctx ≠ .header) (hs : s.state = .decoding)
    (ht : t.state = .decoding) (has : s.activity = .fetch ctx) (hat : t.activity = .fetch ctx)
    (hdb : legalSizeCode s.dictBits.toNat = true) (hdict : t.dictBits = s.dictBits)
    (hwalk : runWalk (decodeWalk ctx s.dictBits) t = runWalk (decodeWalk ctx s.dictBits) s) :
    decoderStep t = decoderStep s := by
  rw [decoderStep_decoding hs has hctx, decoderStep_decoding ht hat hctx, hdict, hwalk]
  cases hgot : runWalk (decodeWalk ctx s.dictBits) s with
  | raised e u => rfl
  | waiting u => rfl
  | got i u =>
    obtain ⟨rfl, hwf, -⟩ := readBits_of_decodeWalk_got hctx hdb hgot
    obtain ⟨go, hgo⟩ := exists_readsThenRuns s.dictBits i hctx hwf
    have hgot' : runWalk (decodeWalk i.context t.dictBits) t = .got i u := by rw [hdict, hwalk, hgot]
    exact (exec_of_decodeWalk_got hctx (hdict ▸ hdb) (hdict ▸ hgo) hgot').trans
      (exec_of_decodeWalk_got hctx hdb hgo hgot).symm

/-- The step that waited in `t`, resumed with the answers `late`, is the step from `s` with them behind its source. -/
structure Resumes (s t : State) : Prop where
  host : t.host = s.host
  source : t.source = []
  late : ∀ late, decoderStep { t with source := late } = decoderStep { s with source := s.source ++ late }

theorem decoding_step_resumes {s t : State} (h : DecodingInv s) (ht : decoderStep s = .next t) (ho : t.outHold = none)
    (hl : t.lookupReq = s.lookupReq) : Resumes s t := by
  obtain ⟨ctx, hctx, ha, hwaits⟩ := decoding_step_waits h ht ho hl
  obtain ⟨hmoved, -, -, hsource, -⟩ := runWalk_waiting _ s t hwaits
  have hstate : t.state = .decoding := by rw [hmoved]; exact h.state
  have hat : t.activity = .fetch ctx := by rw [hmoved]; exact ha
  refine ⟨by rw [hmoved], hsource, fun late => ?_⟩
  exact decoding_step_congr (s := { s with source := s.source ++ late }) (t := { t with source := late }) hctx h.state hstate
    ha hat h.legal (by rw [hmoved]) (runWalk_late _ s t late hwaits)

/-! ## The header step -/

/-- Answers behind those a walk takes do not matter to it (R320). -/
theorem runWalk_append {α : Type} (w : Walk α) {s t : State} {a : α} (late : List SrcXfer) (h : runWalk w s = .got a t) :
    runWalk w { s with source := s.source ++ late } = .got a { t with source := t.source ++ late } := by
  induction w generalizing s with
  | done x => cases h; rfl
  | ask g ih =>
    cases hr : nextBit s with
    | raised e u => simp only [runWalk, hr] at h; cases h
    | waiting u => simp only [runWalk, hr] at h; cases h
    | got b u =>
      rw [runWalk_ask_got hr] at h
      rw [runWalk_ask_got (nextBit_append s u b late hr), ih b (remember_got h)]
      rfl

/-- In `INIT` the header is read at a byte boundary. -/
theorem atByteBoundary_of_init {s : State} (h : s.initFresh) (hs : s.state = .init) : AtByteBoundary s := by
  obtain ⟨hbits, hoff, -, -, -, hbc, -⟩ := h hs
  refine ⟨hoff, hbc, ?_⟩
  rcases hbits with ⟨hnil, -⟩ | ⟨h8, -⟩
  · rw [hnil]; rfl
  · rw [h8]

theorem readHeader_append {s u : State} {mc : Byte × Byte} (h : AtByteBoundary s) (late : List SrcXfer)
    (hr : readHeader s = .got mc u) :
    readHeader { s with source := s.source ++ late } = .got mc { u with source := u.source ++ late } := by
  rw [readHeader_eq_runWalk h] at hr
  rw [readHeader_eq_runWalk (h.setSource _), runWalk_append _ late hr]

theorem readHeader_late {s t : State} (h : AtByteBoundary s) (late : List SrcXfer) (hr : readHeader s = .waiting t) :
    readHeader { t with source := late } = readHeader { s with source := s.source ++ late } := by
  rw [readHeader_eq_runWalk h] at hr
  rw [readHeader_eq_runWalk ((h.waiting hr).setSource late), readHeader_eq_runWalk (h.setSource _),
    runWalk_late _ s t late hr]

/-- Past the test of the chunk's size the header step is its reads and its checks (R212). -/
theorem decoderStep_init_of_long {s : State} (hs : s.state = .init) (hlen : 2 < s.chunkLen.toNat) :
    decoderStep s = settle (readHeader s) fun mc t => headerChecks mc.1 mc.2 t := by
  rw [decoderStep_init s hs, if_neg (Nat.not_le_of_lt hlen)]

/-- After a valid header the checks are the decoder's step in `DECODING` (R217). -/
theorem headerChecks_eq_decoderStep {c : Byte} (s : State) (hc : legalSizeCode c.toNat = true) (hl : s.lookupReq = none) :
    headerChecks 0 c s =
      decoderStep { s with dictMode := 0, dictSizeCode := c, dictBits := c.setWidth 3, first := 0, state := .decoding } := by
  refine Eq.trans ?_ (decoderStep_eq_decodeStep { s with
    dictMode := 0, dictSizeCode := c, dictBits := c.setWidth 3, first := 0, state := .decoding } rfl hl).symm
  simp only [headerChecks, ne_eq, not_true_eq_false, if_false, hc, if_true]

/-- A header step that waits for a header byte. -/
theorem header_wait_resumes {s t : State} (h : AtByteBoundary s) (hs : s.state = .init) (hlen : 2 < s.chunkLen.toNat)
    (hr : readHeader s = .waiting t) : Resumes s t := by
  obtain ⟨hmoved, -, -, -, hsource, -⟩ := readHeader_waiting s t hr
  refine ⟨by rw [hmoved], hsource, fun late => ?_⟩
  rw [decoderStep_init_of_long (s := { t with source := late }) (by rw [hmoved]; exact hs) (by rw [hmoved]; exact hlen),
    decoderStep_init_of_long (s := { s with source := s.source ++ late }) hs hlen, readHeader_late h late hr]

/-- A header step whose bytes are read and whose first token waits (R217). -/
theorem first_token_wait_resumes {s u t : State} {m c : Byte} (h : AtByteBoundary s) (hs : s.state = .init)
    (hlen : 2 < s.chunkLen.toNat) (hfresh : FreshInv { u with stepBits := [] }) (hr : readHeader s = .got (m, c) u)
    (hchecks : headerChecks m c { u with stepBits := [] } = .next t) (ho : t.outHold = none) (hl : t.lookupReq = none) :
    Resumes s t := by
  obtain ⟨hmoved, -⟩ := readHeader_got s u m c hr
  rcases headerChecks_next m c _ t hchecks with ⟨-, rfl⟩ | ⟨rfl, hc, -⟩ | ⟨-, -, rfl⟩
  · cases ho
  · obtain ⟨hhost, hsource, hlate⟩ := decoding_step_resumes (hfresh.decoding c hc)
      ((headerChecks_eq_decoderStep _ hc hfresh.lookupReq).symm.trans hchecks) ho (hl.trans hfresh.lookupReq.symm)
    refine ⟨by rw [hhost, hmoved], hsource, fun late => ?_⟩
    rw [hlate late, decoderStep_init_of_long (s := { s with source := s.source ++ late }) hs hlen,
      readHeader_append h late hr]
    exact (headerChecks_eq_decoderStep { u with stepBits := [], source := u.source ++ late } hc hfresh.lookupReq).symm
  · cases ho

theorem State.Inv.init_step_resumes {s t : State} (h : s.Inv) (hs : s.state = .init) (hs' : s.outHold = none)
    (ht : Machine.decoderStep s = .next t) (ho : t.outHold = none) (hl : t.lookupReq = s.lookupReq) : Resumes s t := by
  have hfresh := h.fresh hs hs'
  obtain ⟨-, -, -, -, -, hinit, -⟩ := h
  have hboundary := atByteBoundary_of_init hinit hs
  by_cases hlen : 2 < s.chunkLen.toNat
  · rw [decoderStep_init_of_long hs hlen] at ht
    rcases settle_next t _ _ ht with ⟨mc, u, hr, hchecks⟩ | ⟨e, u, -, rfl⟩ | hr
    · exact first_token_wait_resumes hboundary hs hlen (hfresh.readHeader hr) hr hchecks ho (hl.trans hfresh.lookupReq)
    · cases ho
    · exact header_wait_resumes hboundary hs hlen hr
  · rw [Machine.decoderStep_init s hs, if_pos (Nat.le_of_not_lt hlen)] at ht
    cases ht
    cases ho

/-! ## Every step -/

/-- Under the invariant a decoder's step that comes to wait resumes. -/
theorem State.Inv.step_resumes {s t : State} (h : s.Inv) (hs : s.state ≠ .idle) (hs' : s.outHold = none)
    (ht : Machine.decoderStep s = .next t) (ho : t.outHold = none) (hl : t.lookupReq = s.lookupReq) : Resumes s t := by
  have hterminal : s.activity ≠ .repeatTerminal := by
    intro ha
    obtain ⟨b, hb⟩ := Machine.decoderStep_terminal s ha
    obtain rfl := Host.Outcome.next.inj (hb.symm.trans ht)
    rw [emit_outHold] at ho
    cases ho
  cases hstate : s.state with
  | idle => exact absurd hstate hs
  | init => exact h.init_step_resumes hstate hs' ht ho hl
  | headerRead =>
    obtain ⟨-, -, -, -, -, -, -, hnever, -⟩ := h
    exact absurd hstate hnever
  | decoding => exact decoding_step_resumes (h.decoding hstate) ht ho hl
  | finished => exact absurd (by unfold State.activity; rw [hstate]) hterminal
  | errored => exact absurd (by unfold State.activity; rw [hstate]) hterminal

theorem ready_quiet {s : State} (h : s.host = []) : s.ready = { s with outHold := none } := by
  have hinput : s.input = HostInput.quiet := by simp only [State.input, h]
  unfold State.ready takeInput handOver
  simp [hinput, HostInput.quiet, h]

/-- With a quiet host a step hands over the held beat and runs the decoder. -/
theorem step_quiet {s : State} (h : s.host = []) : step s = decoderStep { s with outHold := none } := by
  have hinput : s.input = HostInput.quiet := by simp only [State.input, h]
  rw [step_block s (by rw [hinput]; rfl) (by rw [hinput]; rfl), ready_quiet h]
  rfl

/-- Settles O54: with a quiet host both steps are the decoder's, and the one that waited resumes. -/
theorem lateAnswersMakeNoDifference : Obligations.LateAnswersMakeNoDifference := by
  intro s t h hhost hs ht ho hl
  have hinv : ({ s with outHold := none } : State).Inv := ready_quiet hhost ▸ h.ready
  rw [step_quiet hhost] at ht
  obtain ⟨hhost', hsource, hlate⟩ := hinv.step_resumes hs rfl ht ho hl
  refine ⟨hsource, fun late => ?_⟩
  have ht' : ({ t with source := late, outHold := none } : State) = { t with source := late } := by rw [← ho]
  rw [step_quiet (s := { t with source := late }) (hhost'.trans hhost),
    step_quiet (s := { s with source := s.source ++ late }) hhost, ht', hlate late]

end Sys2Proof.Machine
end

section
/-! SUPPORT. The results of the length and offset walks (spec/41_code_tables.md R162, R165, R168): their ranges, the bits they take
and the one word of each. -/

namespace Sys2Proof

open Machine

/-! ## What the walks return -/

/-- Settles O6: `decodeLength()` undoes `encodeLength` (`decodeLength_eq_ok_iff`), whose lengths R162 lists, and is 15 bits deep. -/
theorem decodeLengthProperties : Obligations.DecodeLengthProperties := by
  refine ⟨fun bits rest len h => ?_, fun bits hbits => ?_, fun len h2 h519 => ?_⟩
  · obtain ⟨h2, h519, rfl⟩ := (decodeLength_eq_ok_iff bits rest len).mp h
    rw [List.length_append, Laws.EncodedSize.encodeLength_length len h2 h519, Nat.add_comm]
    exact ⟨h2, h519, rfl⟩
  · obtain ⟨len, rest, hrun, -⟩ := decodeLength.runBits_of_depth_le bits (by rwa [decodeLength_depth])
    exact ⟨len, rest, hrun⟩
  · refine ⟨encodeLength len, (decodeLength_eq_ok_iff ..).mpr ⟨h2, h519, by simp⟩, fun bits rest h => ?_⟩
    obtain ⟨-, -, hword⟩ := (decodeLength_eq_ok_iff bits rest len).mp h
    exact hword

/-- Settles O7: `decodeOffsetHigh()` undoes `encodeOffsetHigh` (`decodeOffsetHigh_eq_ok_iff`), whose lengths R165 lists, and is
8 bits deep. -/
theorem decodeOffsetHighProperties : Obligations.DecodeOffsetHighProperties := by
  refine ⟨fun bits rest high h => ?_, fun bits hbits => ?_, fun high hhigh => ⟨?_, fun bits rest h => ?_⟩⟩
  · obtain ⟨hhigh, rfl⟩ := (decodeOffsetHigh_eq_ok_iff bits rest high).mp h
    rw [List.length_append, Laws.EncodedSize.encodeOffsetHigh_length high hhigh, Nat.add_comm]
    exact ⟨Nat.le_of_lt_succ hhigh, rfl⟩
  · obtain ⟨high, rest, hrun, -⟩ := decodeOffsetHigh.runBits_of_depth_le bits (by rwa [decodeOffsetHigh_depth])
    exact ⟨high, rest, hrun⟩
  · exact (decodeOffsetHigh_eq_ok_iff ..).mpr ⟨Nat.lt_succ_of_le hhigh, by simp⟩
  · exact ((decodeOffsetHigh_eq_ok_iff bits rest high).mp h).2

/-- The offsets that six high bits and the low bits of a length reach are those below the capacity, for length 2 those up to 255
(R110, R168). -/
theorem lt_lowBits_range_iff (db : BitVec 3) (len off : Nat) (hdb : legalSizeCode db.toNat = true) :
    off < 64 * 2 ^ lowBits db len ↔ off < capacity db ∧ (len = 2 → off ≤ 255) := by
  have hcap : 256 ≤ capacity db := by rcases legalSizeCode_cases db hdb with rfl | rfl | rfl <;> decide
  by_cases h2 : len = 2
  · simp only [lowBits, h2, if_true, true_implies]
    omega
  · have hrange : capacity db = 64 * 2 ^ db.toNat := Nat.pow_add 2 6 db.toNat
    simp [lowBits, h2, hrange]

/-- Settles O8: `decodeOffset(len)` undoes the encoding of exactly the offsets in its range (`decodeOffset_eq_ok_iff`). -/
theorem offsetRange : Obligations.OffsetRange := by
  intro db len hdb _ _
  refine ⟨fun bits rest off h => ?_, fun off hcap h2 => ?_⟩
  · exact (lt_lowBits_range_iff db len off hdb).mp ((decodeOffset_eq_ok_iff db len off bits rest).mp h).1
  · have hoff := (lt_lowBits_range_iff db len off hdb).mpr ⟨hcap, h2⟩
    refine ⟨encodeOffsetHigh (off >>> lowBits db len) ++ bitsOf (lowBits db len) off,
      (decodeOffset_eq_ok_iff ..).mpr ⟨hoff, by simp⟩, fun bits rest h => ?_⟩
    rw [List.append_assoc]
    exact ((decodeOffset_eq_ok_iff db len off bits rest).mp h).2

end Sys2Proof
end

section
/-! SUPPORT. What a row of the code tables leaves alone when it runs by itself (spec/41_code_tables.md R160), and the read of a
token's bits, which ends where the token's walk ends (R169). -/

namespace Sys2Proof.Machine

/-! ## The frame of a table row -/

/-- A slot reads the dictionary memory and nothing else of the state. -/
theorem slot_congr {s t : State} (h : t.dict = s.dict) (a : Nat) : t.slot a = s.slot a := by
  rw [State.slot, State.slot, h]

/-- What a row of either table can do: its bits are read, the other table's result is kept and the walk request is answered; or it
raises; or it waits (R148, R160). -/
theorem exec_tableRow_next {i : Instr} {s t : State} (hctx : i.context = .length ∨ i.context = .offsetHigh)
    (h : exec i s = .next t) :
    (∃ n u, AfterBits n s u ∧ (i.context = .length → u.highVal = s.highVal) ∧
        (i.context = .offsetHigh → u.lenVal = s.lenVal) ∧ t = { u with lookupReq := none }) ∨
      (∃ e u, FailedRead s u ∧ t = raisedState e u) ∨ Waits s t := by
  rcases hctx with hctx | hctx
  · obtain ⟨len, hrow⟩ := exec_of_context_length i s.dictBits s hctx
    refine (runLength_next _ len s t (hrow.symm.trans h)).imp_left ?_
    rintro ⟨u, hbits, -, hhigh, ht⟩
    exact ⟨_, u, hbits, fun _ => hhigh, by simp [hctx], ht⟩
  · obtain ⟨high, hrow⟩ := exec_of_context_offsetHigh i s.dictBits s hctx
    refine (runOffsetHigh_next _ high s t (hrow.symm.trans h)).imp_left ?_
    rintro ⟨u, hbits, -, hlen, ht⟩
    exact ⟨_, u, hbits, by simp [hctx], fun _ => hlen, ht⟩

/-- Settles O29: a row completes, raises or waits (`exec_tableRow_next`); no case's frame names the dictionary, and a row that
completes keeps the other table's result. -/
theorem tableRowFrame : Obligations.TableRowFrame := by
  intro i s t hctx hexec
  rcases exec_tableRow_next hctx hexec with ⟨n, u, hbits, hhigh, hlen, rfl⟩ | ⟨e, u, hfailed, ht⟩ | hwaits
  · have hframe := hbits.frame
    exact ⟨.inr (by rw [hframe]), hhigh, hlen, slot_congr (by rw [hframe])⟩
  · have hraised : ErrorRaised s t := ht ▸ hfailed.errorRaised e
    exact ⟨.inl hraised, fun _ => by rw [hraised], fun _ => by rw [hraised], slot_congr (by rw [hraised])⟩
  · have hframe := hwaits.frame
    exact ⟨.inr (by rw [hframe]), fun _ => by rw [hframe], fun _ => by rw [hframe], slot_congr (by rw [hframe])⟩

/-! ## The walk of a token and the read of its bits -/

/-- Reading as many bits as a walk's word has gives the word and ends where the walk ended (R144, R169). -/
theorem readBits_of_runWalk_word {α : Type} {w : Walk α} {s u : State} {a : α} {word : Bits} (h : runWalk w s = .got a u)
    (hword : s.upcomingBits = word ++ u.upcomingBits) : readBits word.length s = .got (bitsVal word) u := by
  have hcount : s.bitsReady - u.bitsReady = word.length := by
    rw [← upcomingBits_length, ← upcomingBits_length, hword, List.length_append, Nat.add_sub_cancel]
  obtain ⟨v, hread⟩ := readBits_of_runWalk_got w h
  rw [hcount] at hread
  obtain ⟨-, hval, -⟩ := readBits_got _ s u v hread
  rw [hread, hval, hword, List.take_left]

/-- Settles O52: the bits a token's walk takes are the token's encoding (`decodeToken_eq_ok_iff`). -/
theorem walkAndEncodingAgree : Obligations.WalkAndEncodingAgree := by
  intro s u tok hdb h
  obtain ⟨-, -, -, hruns, -⟩ := runWalk_got _ s u tok h
  obtain ⟨-, hword⟩ := (decodeToken_eq_ok_iff s.dictBits tok _ _ fun _ _ _ => hdb).mp hruns
  exact readBits_of_runWalk_word h hword

end Sys2Proof.Machine
end

section
/-! SUPPORT. The sliding dictionary (spec/42_sliding_dictionary.md R191 to R195): `put` and `get` by themselves, and a copy's
remaining steps, which read the dictionary at a fixed offset while it slides under them (spec/43_decoder_fsm.md R222, R223). -/

namespace Sys2Proof.Machine

/-! ## `put` and `get` -/

/-- A legal size code is not the one whose capacity the RAM does not have (R25, R32). -/
theorem dictBits_ne_seven {db : BitVec 3} (h : legalSizeCode db.toNat = true) : db ≠ 7 := by
  rintro rfl
  exact absurd h (by decide)

theorem put_of_lt (b : Byte) {s : State} (h : putIndex s < Config.ramSize) : ∃ t, put b s = .ok t := by
  unfold put
  rw [if_pos h]
  exact ⟨_, rfl⟩

/-- `get(off)` is the byte at the load address, and the state of that byte's `put` (R192, R193). -/
theorem get_of_put {off : BitVec 12} {s t : State} (h : getIndex s off < Config.ramSize)
    (hput : put (s.slot (getIndex s off)) s = .ok t) : get off s = .ok (s.slot (getIndex s off), t) := by
  unfold get
  rw [if_pos h, hput]
  rfl

/-- With a legal size code `get(off)` succeeds, whatever `first` and `off` are. -/
theorem get_of_legal (off : BitVec 12) {s : State} (h : legalSizeCode s.dictBits.toNat = true) :
    ∃ t, put (s.slot (getIndex s off)) s = .ok t ∧ get off s = .ok (s.slot (getIndex s off), t) := by
  have hdb := dictBits_ne_seven h
  obtain ⟨t, hput⟩ := put_of_lt (s.slot (getIndex s off)) (putIndex_lt s hdb)
  exact ⟨t, hput, get_of_put (getIndex_lt s off hdb) hput⟩

/-- Settles O34: `put_ok` with the store address inside the RAM. -/
theorem putAdvancesAndStores : Obligations.PutAdvancesAndStores := by
  intro b s hdb
  obtain ⟨t, hput⟩ := put_of_lt b (putIndex_lt s (dictBits_ne_seven hdb))
  obtain ⟨-, hfirst, hnew, hold, hframe⟩ := put_ok b s t hput
  refine ⟨t, hput, hfirst, hfirst ▸ hnew, hfirst ▸ hold, ?_⟩
  rw [hframe]

/-- The load and the store address meet at the offset of the oldest byte only (R191, R192). -/
theorem getIndex_eq_putIndex_iff {s : State} {off : BitVec 12} (hfirst : s.first.toNat < capacity s.dictBits)
    (hoff : off.toNat < capacity s.dictBits) :
    getIndex s off = putIndex s ↔ off.toNat = capacity s.dictBits - 1 := by
  constructor
  · intro heq
    by_contra hne
    obtain ⟨-, hmiss⟩ := stepBack_of_next (capacity s.dictBits) s.first.toNat off.toNat hfirst (by omega)
    exact hmiss heq
  · intro heq
    rw [getIndex, putIndex]
    congr 1
    omega

/-- A slot's own byte stored again changes no slot. -/
theorem put_slot_of_putIndex {b : Byte} {s t : State} (hput : put b s = .ok t) (hb : b = s.slot (putIndex s)) (a : Nat) :
    t.slot a = s.slot a := by
  obtain ⟨-, -, hnew, hold, -⟩ := put_ok b s t hput
  by_cases ha : a = putIndex s
  · rw [ha, hnew, hb]
  · exact hold a ha

/-- Settles O35: `get_of_legal`; at the oldest byte's offset the byte is stored where it was read. -/
theorem getReadsBeforePut : Obligations.GetReadsBeforePut := by
  intro off s hdb hfirst hoff
  obtain ⟨t, hput, hget⟩ := get_of_legal off hdb
  have hmeet := getIndex_eq_putIndex_iff hfirst hoff
  exact ⟨t, hget, hput, hmeet, fun hoff => put_slot_of_putIndex hput (by rw [hmeet.mpr hoff])⟩

/-- A slot that nothing has written holds its free value (R195; log entry 4). -/
theorem slot_of_unwritten {s : State} {a : Nat} (h : Memory.lookup s.dict a = none) : s.slot a = Config.dictInit a := by
  rw [State.slot, h]

/-- Settles O36: `get` gives what the slot holds, and `put` stores it. -/
theorem unwrittenSlotGivesFreeByte : Obligations.UnwrittenSlotGivesFreeByte := by
  intro off s hdb hunwritten
  obtain ⟨t, hput, hget⟩ := get_of_legal off hdb
  rw [slot_of_unwritten hunwritten] at hput hget
  obtain ⟨-, -, hnew, -, -⟩ := put_ok _ s t hput
  exact ⟨t, hget, hnew⟩

/-! ## The byte at an offset -/

/-- The byte at offset `k`: the one that stands `k` places before the newest (R192). -/
def State.byteBack (s : State) (k : Nat) : Byte :=
  s.slot ((capacity s.dictBits + s.first.toNat - k) % capacity s.dictBits)

/-- The byte put last is at offset 0 (R191). -/
theorem putEmit_byteBack_zero {b : Byte} {s t : State} (h : putEmit b s = .next t) : t.byteBack 0 = b := by
  obtain ⟨-, hfirst, hnew, -, hframe⟩ := putEmit_next b s t h
  have hbits : t.dictBits = s.dictBits := by rw [hframe]
  rw [State.byteBack, hbits, hfirst, Nat.sub_zero, Nat.add_mod_left, putIndex, Nat.mod_mod]
  exact hnew

/-- Every other byte of the dictionary moves one offset on; only the oldest is lost (R191). -/
theorem putEmit_byteBack_succ {b : Byte} {s t : State} {k : Nat} (h : putEmit b s = .next t)
    (hfirst : s.first.toNat < capacity s.dictBits) (hk : k + 1 < capacity s.dictBits) :
    t.byteBack (k + 1) = s.byteBack k := by
  obtain ⟨-, hnext, -, hold, hframe⟩ := putEmit_next b s t h
  have hbits : t.dictBits = s.dictBits := by rw [hframe]
  obtain ⟨hindex, hne⟩ := stepBack_of_next (capacity s.dictBits) s.first.toNat k hfirst hk
  rw [State.byteBack, State.byteBack, hbits, hnext, putIndex, hindex]
  exact hold _ hne

/-! ## One step of a copy -/

/-- A `DECODING` state under a quiet host in which no table walk is asked for: what every step of a copy starts from. -/
structure QuietDecoding (s : State) : Prop where
  inv : s.Inv
  state : s.state = .decoding
  lookupReq : s.lookupReq = none
  host : s.host = []

/-- What one step of a copy does to the registers and the output (R223). -/
structure CopyStep (s t : State) : Prop where
  quiet : QuietDecoding t
  copyRem : t.copyRem = s.copyRem - 1
  copyOff : t.copyOff = s.copyOff
  bitpos : t.bitpos = s.bitpos
  out : t.out = s.out ++ [s.byteBack s.copyOff.toNat]
  newest : t.byteBack 0 = s.byteBack s.copyOff.toNat
  older : ∀ k, k < s.copyOff.toNat → t.byteBack (k + 1) = s.byteBack k

theorem QuietDecoding.step_eq_copyContinue {s : State} (h : QuietDecoding s) (hc : s.copyRem ≠ 0) :
    step s = copyContinue { s with outHold := none } := by
  have hactivity : ({ s with outHold := none } : State).activity = .continueCopy := by
    simp only [State.activity, decodingActivity, h.state, h.lookupReq, if_neg hc]
  have hstate : ({ s with outHold := none } : State).state ≠ .headerRead := by
    rw [h.state]
    decide
  rw [step_quiet h.host, decoderStep, hactivity]
  exact congrArg copyContinue (leaveHeaderRead_eq _ hstate)

/-- With the load and the store address inside the RAM a copy goes on (R223). -/
theorem copyContinue_of_ne_seven {s : State} (h : s.dictBits ≠ 7) : ∃ t, copyContinue s = .next t := by
  unfold copyContinue
  rw [getEmit_eq]
  · exact putEmit_of_lt _ _ (putIndex_lt _ h)
  · exact getIndex_lt _ _ h

/-- The byte a copy's step puts is the one at `copy_off` before the step (R193, R223). -/
theorem copyContinue_byteBack_zero {s t : State} (h : copyContinue s = .next t) :
    t.byteBack 0 = s.byteBack s.copyOff.toNat := by
  obtain ⟨u, -, hput⟩ := copyContinue_next s t h
  exact putEmit_byteBack_zero hput

theorem copyContinue_byteBack_succ {s t : State} {k : Nat} (h : copyContinue s = .next t)
    (hfirst : s.first.toNat < capacity s.dictBits) (hk : k + 1 < capacity s.dictBits) :
    t.byteBack (k + 1) = s.byteBack k := by
  obtain ⟨u, rfl, hput⟩ := copyContinue_next s t h
  exact (putEmit_byteBack_succ hput hfirst hk :)

theorem QuietDecoding.exists_copyStep {s : State} (h : QuietDecoding s) (hc : s.copyRem ≠ 0) :
    ∃ t, step s = .next t ∧ CopyStep s t := by
  have hdec := h.inv.decoding h.state
  obtain ⟨t, ht⟩ := copyContinue_of_ne_seven (s := { s with outHold := none }) (dictBits_ne_seven hdec.legal)
  have hstep : step s = .next t := (h.step_eq_copyContinue hc).trans ht
  have hbitpos := copyContinue_bitpos ht
  obtain ⟨u, rfl, hput⟩ := copyContinue_next _ t ht
  obtain ⟨-, -, -, -, hframe⟩ := putEmit_next _ _ t hput
  refine ⟨t, hstep, ?_⟩
  exact {
    quiet := {
      inv := stepKeepsInvariant s t h.inv hstep
      state := by rw [hframe]; exact h.state
      lookupReq := by rw [hframe]; exact h.lookupReq
      host := by rw [hframe]; exact h.host }
    copyRem := by rw [hframe]
    copyOff := by rw [hframe]
    bitpos := hbitpos
    out := by rw [hframe]; rfl
    newest := (copyContinue_byteBack_zero ht :)
    older := fun k hk => (copyContinue_byteBack_succ ht hdec.first (Nat.lt_of_le_of_lt hk hdec.copyOff) :) }

/-! ## A whole copy -/

/-- In the output of `t`, byte `j` of a copy that goes on from `s` (R194): the byte at offset `copy_off - j` before the run, and
after a whole period the byte one period earlier. -/
def CopyByte (s t : State) (j : Nat) : Prop :=
  t.out[s.out.length + j]? =
    if j ≤ s.copyOff.toNat then some (s.byteBack (s.copyOff.toNat - j))
    else t.out[s.out.length + j - (s.copyOff.toNat + 1)]?

/-- What the remaining steps of a copy lead to: the copy is over, and the bytes emitted have the copy's period (R194). -/
structure CopyRun (s t : State) : Prop where
  copyRem : t.copyRem = 0
  mode : t.mode = .literal
  state : t.state = .decoding
  bitpos : t.bitpos = s.bitpos
  length : t.out.length = s.out.length + s.copyRem.toNat
  kept : t.out.take s.out.length = s.out
  period : ∀ j, j < s.copyRem.toNat → CopyByte s t j

/-- No step is left of a copy that is over. -/
theorem QuietDecoding.copyRun_refl {s : State} (h : QuietDecoding s) (hc : s.copyRem = 0) : CopyRun s s where
  copyRem := hc
  mode := by
    have hcopying := (h.inv.decoding h.state).mode
    cases hm : s.mode with
    | literal => rfl
    | copying => exact absurd hc (hcopying.mp hm)
  state := h.state
  bitpos := rfl
  length := by simp [hc]
  kept := List.take_length
  period := by simp [hc]

theorem CopyStep.copyByte_zero {s u t : State} (h : CopyStep s u) (hkept : t.out.take u.out.length = u.out) :
    CopyByte s t 0 := by
  have hlt : s.out.length < u.out.length := by
    rw [h.out, List.length_append]
    exact Nat.lt_succ_self _
  have hlast : t.out[s.out.length]? = some (s.byteBack s.copyOff.toNat) := by
    rw [← List.getElem?_take_of_lt hlt, hkept, h.out, List.getElem?_concat_length]
  rw [CopyByte, if_pos (Nat.zero_le _)]
  exact hlast

/-- A byte of the rest of the copy is the next one counted from before the step: at the offset it has after the step, and the
one that ends the first period is byte 0 again. -/
theorem CopyStep.copyByte_succ {s u t : State} {j : Nat} (h : CopyStep s u) (hfirst : CopyByte s t 0)
    (hrest : CopyByte u t j) : CopyByte s t (j + 1) := by
  have hlen : u.out.length + j = s.out.length + (j + 1) := by
    rw [h.out, List.length_append, List.length_singleton]
    omega
  rw [CopyByte, hlen, h.copyOff] at hrest
  rw [CopyByte, if_pos (Nat.zero_le _), Nat.add_zero, Nat.sub_zero] at hfirst
  rw [CopyByte, hrest]
  rcases Nat.lt_trichotomy j s.copyOff.toNat with hlt | heq | hgt
  · rw [if_pos hlt.le, if_pos (Nat.succ_le_of_lt hlt), ← h.older _ (by omega)]
    congr 2
    omega
  · rw [if_pos heq.le, if_neg (by omega), ← heq, Nat.sub_self, Nat.add_sub_cancel, hfirst, h.newest]
  · rw [if_neg (by omega), if_neg (by omega)]

/-- A copy's step, then the rest of the copy. -/
theorem CopyStep.copyRun {s u t : State} (h : CopyStep s u) (hc : s.copyRem ≠ 0) (hrest : CopyRun u t) : CopyRun s t := by
  have hrem : s.copyRem.toNat = u.copyRem.toNat + 1 := by
    rw [h.copyRem]
    bv_omega
  have hlen : u.out.length = s.out.length + 1 := by rw [h.out, List.length_append, List.length_singleton]
  have hfirst := h.copyByte_zero hrest.kept
  exact {
    copyRem := hrest.copyRem
    mode := hrest.mode
    state := hrest.state
    bitpos := hrest.bitpos.trans h.bitpos
    length := by rw [hrest.length, hlen, hrem]; omega
    kept := by
      have htake := congrArg (List.take s.out.length) hrest.kept
      rwa [List.take_take, Nat.min_eq_left (by omega), h.out, List.take_left] at htake
    period := fun j hj => by
      cases j with
      | zero => exact hfirst
      | succ j => exact h.copyByte_succ hfirst (hrest.period j (by omega)) }

theorem run_succ_of_step {M : Host.Core} {s u : M.State} (n : Nat) (h : M.step s = .next u) :
    M.run (n + 1) s = M.run n u := by
  rw [Host.Core.run, h]

/-- `copy_rem` steps end the copy; induction on `copy_rem`, one step at the front. -/
theorem QuietDecoding.exists_copyRun (n : Nat) :
    ∀ {s : State}, QuietDecoding s → s.copyRem.toNat = n → ∃ t, Host.Core.run core n s = .next t ∧ CopyRun s t := by
  induction n with
  | zero => exact fun {s} h hn => ⟨s, rfl, h.copyRun_refl (BitVec.eq_of_toNat_eq hn)⟩
  | succ n ih =>
    intro s h hn
    have hc : s.copyRem ≠ 0 := by
      intro h0
      rw [h0] at hn
      exact Nat.succ_ne_zero n hn.symm
    obtain ⟨u, hstep, hu⟩ := h.exists_copyStep hc
    have hleft : u.copyRem.toNat = n := by
      rw [hu.copyRem]
      bv_omega
    obtain ⟨t, hrun, ht⟩ := ih hu.quiet hleft
    exact ⟨t, (run_succ_of_step n hstep).trans hrun, hu.copyRun hc ht⟩

/-- Settles O37: the run of `QuietDecoding.exists_copyRun`, whose steps each emit the byte at `copy_off`. -/
theorem copyRunRepeatsItsOutput : Obligations.CopyRunRepeatsItsOutput := by
  intro s h hs hl hhost _
  obtain ⟨t, hrun, ht⟩ := QuietDecoding.exists_copyRun _ ⟨h, hs, hl, hhost⟩ rfl
  exact ⟨t, hrun, ht.copyRem, ht.mode, ht.state, ht.bitpos, ht.length, ht.kept, ht.period⟩

end Sys2Proof.Machine
end

section
/-! SUPPORT. The three tokens by themselves (spec/43_decoder_fsm.md R220, R221, R224): each completes when its bits are ready, and
what each leaves unchanged whatever it answers. -/

namespace Sys2Proof.Machine

/-! ## Reads leave the dictionary alone -/

theorem AfterBits.dictBits {n : Nat} {s u : State} (h : AfterBits n s u) : u.dictBits = s.dictBits := by rw [h.frame]

theorem AfterBits.putIndex {n : Nat} {s u : State} (h : AfterBits n s u) : putIndex u = putIndex s := by
  rw [h.frame]
  rfl

theorem AfterBits.getIndex {n : Nat} {s u : State} (h : AfterBits n s u) (off : BitVec 12) :
    getIndex u off = getIndex s off := by
  rw [h.frame]
  rfl

theorem AfterBits.slot {n : Nat} {s u : State} (h : AfterBits n s u) (a : Nat) : u.slot a = s.slot a :=
  slot_congr (by rw [h.frame]) a

/-- Under a legal size code `put` and `emit` succeed (R191, R295). -/
theorem putEmit_of_legal (b : Byte) {s : State} (h : legalSizeCode s.dictBits.toNat = true) : ∃ t, putEmit b s = .next t :=
  putEmit_of_lt b s (putIndex_lt s (dictBits_ne_seven h))

/-- Under a legal size code the load of `copyStart` succeeds too: its end is the `put` of the byte at the offset (R221). -/
theorem copyStart_of_legal (off : BitVec 12) {s : State} (h : legalSizeCode s.dictBits.toNat = true) :
    copyStart off s =
      putEmit (s.slot (getIndex s off)) { s with copyOff := off, copyRem := s.lenVal - 1, mode := .copying } :=
  getEmit_eq off _ (getIndex_lt _ off (dictBits_ne_seven h))

/-! ## `LIT` -/

theorem execLit_ready_results (b : Byte) (s : State) (h : 9 ≤ s.bitsReady) :
    ∃ u, AfterBits 9 s u ∧ u.lenVal = s.lenVal ∧ u.highVal = s.highVal ∧ exec (.lit b) s = putEmit b u := by
  obtain ⟨t, hread, -⟩ := readBits_ready 9 s h
  obtain ⟨hbits, hlen, hhigh⟩ := readBits_afterBits 9 s t _ hread
  refine ⟨_, hbits, hlen, hhigh, ?_⟩
  show settle (readBits 9 s) _ = _
  rw [hread]
  rfl

theorem execLit_of_raised {b : Byte} {s u : State} {e : ErrCode} (h : readBits 9 s = .raised e u) :
    exec (.lit b) s = .next (raisedState e { u with stepBits := [] }) := by
  show settle (readBits 9 s) _ = _
  rw [h]
  rfl

/-- Settles O17: the nine bits are read, then the byte is put; where the read fails, the raise keeps the dictionary. -/
theorem litPutsAndEmits : Obligations.LitPutsAndEmits := by
  refine fun b s => ⟨fun hready hlegal => ?_, fun e u hraised => ?_⟩
  · obtain ⟨u, hbits, hlen, hhigh, hexec⟩ := execLit_ready_results b s hready
    have hkept := hbits.frame
    rw [hlen, hhigh] at hkept
    obtain ⟨t, hput⟩ := putEmit_of_legal b (hbits.dictBits ▸ hlegal)
    have hpos := putEmit_bitpos hput
    obtain ⟨-, hfirst, hnew, hold, hframe⟩ := putEmit_next b u t hput
    rw [hbits.putIndex] at hfirst hnew hold
    exact ⟨t, hexec.trans hput, hpos.trans hbits.bitpos, by rw [hframe]; exact hbits.cursor, hfirst, hnew,
      fun a ha => (hold a ha).trans (hbits.slot a), by rw [hframe], by rw [hframe, hkept], by rw [hframe, hkept]⟩
  · have hframe := (runWalk_failed _ s u e hraised).frame
    exact ⟨_, execLit_of_raised hraised, rfl, rfl, rfl, (congrArg State.out hframe :),
      (congrArg State.dict hframe :), (congrArg State.first hframe :)⟩

/-- Settles O30: `LIT` puts its byte once its bits are read (`execLit_next`), or raises, or waits. -/
theorem litFrame : Obligations.LitFrame := by
  intro b s t h
  rcases execLit_next b s t h with ⟨u, hbits, hlen, hhigh, hput⟩ | ⟨e, u, hfailed, ht⟩ | hwaits
  · have hkept := hbits.frame
    rw [hlen, hhigh] at hkept
    obtain ⟨-, -, -, hold, hframe⟩ := putEmit_next b u t hput
    rw [hbits.putIndex] at hold
    exact ⟨.inr (by rw [hframe, hkept]), fun a ha => (hold a ha).trans (hbits.slot a)⟩
  · have hraised : ErrorRaised s t := ht ▸ hfailed.errorRaised e
    exact ⟨.inl hraised, fun a _ => slot_congr (by rw [hraised]) a⟩
  · have hframe := hwaits.frame
    exact ⟨.inr (by rw [hframe]), fun a _ => slot_congr (by rw [hframe]) a⟩

/-! ## `COPY` -/

theorem execCopy_ready_results (len : BitVec 10) (off : BitVec 12) (s : State)
    (h : copyFieldBits s.dictBits len.toNat off.toNat ≤ s.bitsReady) :
    ∃ u, AfterBits (copyFieldBits s.dictBits len.toNat off.toNat) s u ∧ u.lenVal = len ∧
      u.highVal = BitVec.ofNat 6 (off.toNat >>> lowBits s.dictBits len.toNat) ∧
      exec (.copy len off) s = copyStart (copyOffset len.toNat off.toNat u) u := by
  obtain ⟨t, hread⟩ := readCopyFields_ready len.toNat off.toNat s h
  rcases readCopyFields_cases len.toNat off.toNat s with
    ⟨t', hread', hbits, hlen, hhigh⟩ | ⟨e, t', hread', -⟩ | ⟨t', hread', -⟩ <;> rw [hread] at hread' <;> cases hread'
  refine ⟨_, hbits, by simpa using hlen, hhigh, ?_⟩
  show execCopy len off s = _
  unfold execCopy
  rw [hread]
  rfl

/-- The high part of a legal `COPY`'s offset fits the six bits of `highVal` (R110). -/
theorem highVal_of_wf {db : BitVec 3} {len : BitVec 10} {off : BitVec 12} (h : (Instr.copy len off).wf db = true) :
    (BitVec.ofNat 6 (off.toNat >>> lowBits db len.toNat)).toNat = off.toNat >>> lowBits db len.toNat := by
  rw [BitVec.toNat_ofNat]
  exact Nat.mod_eq_of_lt (Laws.EncodedSize.high_lt db len off h)

/-- The offset put together from the high part read and the low bits is the operand (R110, R167). -/
theorem copyOffset_of_highVal {len : BitVec 10} {off : BitVec 12} {u : State} (h : (Instr.copy len off).wf u.dictBits = true)
    (hhigh : u.highVal = BitVec.ofNat 6 (off.toNat >>> lowBits u.dictBits len.toNat)) :
    copyOffset len.toNat off.toNat u = off := by
  rw [copyOffset, hhigh, highVal_of_wf h, assembleOffset_parts, BitVec.ofNat_toNat, BitVec.setWidth_eq]

/-- A legal `COPY` with its bits ready: the fields stand in the table results, the first byte is loaded at the operand and put
(R221). -/
theorem execCopy_ready_putEmit {len : BitVec 10} {off : BitVec 12} {s : State}
    (hwf : (Instr.copy len off).wf s.dictBits = true) (hready : Laws.EncodedSize.size s.dictBits (.copy len off) ≤ s.bitsReady) :
    ∃ u, AfterBits (Laws.EncodedSize.size s.dictBits (.copy len off)) s u ∧ u.lenVal = len ∧
      u.highVal.toNat = off.toNat >>> lowBits s.dictBits len.toNat ∧
      exec (.copy len off) s =
        putEmit (s.slot (getIndex s off)) { u with copyOff := off, copyRem := len - 1, mode := .copying } := by
  obtain ⟨hlegal, -⟩ := (copy_wf_iff _ len off).mp hwf
  rw [← copyFieldBits_eq_size _ len off hwf] at hready ⊢
  obtain ⟨u, hbits, hlen, hhigh, hexec⟩ := execCopy_ready_results len off s hready
  have hdb := hbits.dictBits
  refine ⟨u, hbits, hlen, by rw [hhigh, highVal_of_wf hwf], ?_⟩
  rw [hexec, copyOffset_of_highVal (hdb ▸ hwf) (hdb ▸ hhigh), copyStart_of_legal off (hdb ▸ hlegal), hbits.getIndex,
    hbits.slot, hlen]

/-- Settles O18: after the token's bits the step is the `put` of the byte at the offset. -/
theorem copyStarts : Obligations.CopyStarts := by
  intro len off s hwf hready
  obtain ⟨hlegal, h2, -, -⟩ := (copy_wf_iff _ len off).mp hwf
  rw [Laws.EncodedSize.copy len off s.dictBits hwf] at hready ⊢
  obtain ⟨u, hbits, hlen, hhigh, hexec⟩ := execCopy_ready_putEmit hwf hready
  have hkept := hbits.frame
  obtain ⟨t, hput⟩ := putEmit_of_legal (s.slot (getIndex s off))
    (s := { u with copyOff := off, copyRem := len - 1, mode := .copying }) (hbits.dictBits ▸ hlegal)
  have hpos := putEmit_bitpos hput
  have hindex : putIndex { u with copyOff := off, copyRem := len - 1, mode := .copying } = putIndex s := hbits.putIndex
  obtain ⟨-, hfirst, hnew, hold, hframe⟩ := putEmit_next _ _ t hput
  rw [hindex] at hfirst hnew hold
  have hcopyRem : t.copyRem = len - 1 := by rw [hframe]
  exact ⟨t, hexec.trans hput, hpos.trans hbits.bitpos, by rw [hframe]; exact hbits.cursor, by rw [hframe],
    by rw [hcopyRem]; bv_omega, by rw [hframe], by rw [hframe], by rw [hframe, hkept], hfirst, hnew,
    fun a ha => (hold a ha).trans (hbits.slot a), by rw [hframe]; exact hlen, by rw [hframe]; exact hhigh,
    by rw [hframe, hkept]⟩

/-- Settles O31: `COPY` starts the copy once its bits are read (`execCopy_next`), or raises, or waits. -/
theorem copyFrame : Obligations.CopyFrame := by
  intro len off s t h
  rcases execCopy_next len off s t h with ⟨u, hbits, -, -, hcopy⟩ | ⟨e, u, hfailed, ht⟩ | hwaits
  · have hkept := hbits.frame
    obtain ⟨v, rfl, hput⟩ := copyStart_next _ u t hcopy
    obtain ⟨-, -, -, hold, hframe⟩ := putEmit_next _ _ t hput
    have hindex := hbits.putIndex
    exact ⟨.inr (by rw [hframe, hkept]), fun a ha => (hold a (hindex ▸ ha)).trans (hbits.slot a)⟩
  · have hraised : ErrorRaised s t := ht ▸ hfailed.errorRaised e
    exact ⟨.inl hraised, fun a _ => slot_congr (by rw [hraised]) a⟩
  · have hframe := hwaits.frame
    exact ⟨.inr (by rw [hframe]), fun a _ => slot_congr (by rw [hframe]) a⟩

/-! ## `END` -/

theorem emit_eos_eq (s : State) : emit .eos s = { s with outHold := some .eos } := rfl

theorem execEos_ready_results (s : State) (h : 16 ≤ s.bitsReady) :
    ∃ u, AfterBits 16 s u ∧ u.lenVal = 519 ∧ u.highVal = s.highVal ∧
      exec .eos s = .next (emit .eos { u with state := .finished }) := by
  obtain ⟨t, hread⟩ := lookupLength_ready 16 519 s h
  rcases lookupLength_cases 16 519 s with ⟨t', hread', hbits, hlen, hhigh⟩ | ⟨e, t', hread', -⟩ | ⟨t', hread', -⟩ <;>
    rw [hread] at hread' <;> cases hread'
  refine ⟨_, hbits, hlen, hhigh, ?_⟩
  show execEos s = _
  unfold execEos
  rw [hread]
  rfl

/-- Settles O20: the sixteen bits are read, then the state and the beat are written. -/
theorem endFinishes : Obligations.EndFinishes := by
  intro s hready
  obtain ⟨u, hbits, hlen, hhigh, hexec⟩ := execEos_ready_results s hready
  have hkept := hbits.frame
  rw [hhigh] at hkept
  exact ⟨_, hexec, rfl, rfl, hbits.bitpos, hbits.cursor, hlen,
    by rw [emit_eos_eq, hkept]⟩

/-- Settles O32: `END` finishes once its bits are read (`execEos_next`), or raises, or waits; no case's frame names the
dictionary. -/
theorem endFrame : Obligations.EndFrame := by
  intro s t h
  rcases execEos_next s t h with ⟨u, hbits, -, hhigh, rfl⟩ | ⟨e, u, hfailed, ht⟩ | hwaits
  · have hkept := hbits.frame
    rw [hhigh] at hkept
    exact ⟨.inr (by rw [emit_eos_eq, hkept]), hbits.slot⟩
  · have hraised : ErrorRaised s t := ht ▸ hfailed.errorRaised e
    exact ⟨.inl hraised, slot_congr (by rw [hraised])⟩
  · have hframe := hwaits.frame
    exact ⟨.inr (by rw [hframe]), slot_congr (by rw [hframe])⟩

end Sys2Proof.Machine
end

section
/-! SUPPORT. What a step of the decoder can end in (spec/43_decoder_fsm.md R211, R215, R217, R227): a byte, the end of the stream,
an error or a wait, each with all it leaves unchanged. These hold in every state. -/

namespace Sys2Proof.Machine

/-! ## A `DECODING` step -/

/-- A step that emits a byte (R220, R221, R223): one slot is written, and nothing but the cursor, the copy registers, `first`, the
dictionary, the beat, `OUT` and the table results differs. -/
structure EmitsByte (s t : State) : Prop where
  beat : ∃ v, t.outHold = some (.byte v) ∧ t.out = s.out ++ [v]
  first : t.first.toNat = putIndex s
  slot : ∀ a, a ≠ putIndex s → t.slot a = s.slot a
  frame : t = { s with
    curByte := t.curByte, bitOff := t.bitOff, bytesRem := t.bytesRem, source := t.source, stepBits := t.stepBits
    copyOff := t.copyOff, copyRem := t.copyRem, mode := t.mode, first := t.first, dict := t.dict
    outHold := t.outHold, out := t.out, lenVal := t.lenVal, highVal := t.highVal }

/-- A step that ends the stream (R224): nothing but the cursor, `state`, the beat and the table results differs. -/
abbrev EmitsEos (s t : State) : Prop :=
  t = { s with
    curByte := t.curByte, bitOff := t.bitOff, bytesRem := t.bytesRem, source := t.source, stepBits := t.stepBits
    state := .finished, outHold := some .eos, lenVal := t.lenVal, highVal := t.highVal }

/-- What a `DECODING` step, or a token's meaning, can do. -/
inductive DecodeEffect (s t : State) : Prop
  | byte (h : EmitsByte s t)
  | eos (h : EmitsEos s t)
  | error (h : ErrorRaised s t)
  | waits (h : Waits s t)

/-- A `put` with its beat emits a byte, whatever the copy registers became before it. -/
theorem putEmit_emitsByte {b : Byte} {s t : State} (h : putEmit b s = .next t) : EmitsByte s t := by
  obtain ⟨-, hfirst, -, hold, hframe⟩ := putEmit_next b s t h
  exact ⟨⟨b, by rw [hframe], by rw [hframe]⟩, hfirst, hold, by rw [hframe]⟩

theorem EmitsByte.of_setCopy {s t : State} {off : BitVec 12} {n : BitVec 10} {m : Mode}
    (h : EmitsByte { s with copyOff := off, copyRem := n, mode := m } t) : EmitsByte s t :=
  ⟨h.beat, h.first, h.slot, h.frame⟩

theorem EmitsByte.of_afterBits {n : Nat} {s u t : State} (h : EmitsByte u t) (hu : AfterBits n s u) : EmitsByte s t := by
  have hframe := h.frame
  have hkept := hu.frame
  have hout : u.out = s.out := by rw [hkept]
  exact ⟨hout ▸ h.beat, hu.putIndex ▸ h.first, fun a ha => (h.slot a (hu.putIndex.symm ▸ ha)).trans (hu.slot a),
    by rw [hframe, hkept]⟩

theorem copyContinue_emitsByte {s t : State} (h : copyContinue s = .next t) : EmitsByte s t := by
  obtain ⟨u, rfl, hput⟩ := copyContinue_next s t h
  exact (putEmit_emitsByte hput).of_setCopy

theorem copyStart_emitsByte {off : BitVec 12} {s t : State} (h : copyStart off s = .next t) : EmitsByte s t := by
  obtain ⟨u, rfl, hput⟩ := copyStart_next off s t h
  exact (putEmit_emitsByte hput).of_setCopy

/-- The bits of an instruction are read, or their read fails, or it waits. -/
theorem decodeEffect_of_reads {s t : State} {done : Prop} (hdone : done → DecodeEffect s t)
    (h : done ∨ (∃ e u, FailedRead s u ∧ t = raisedState e u) ∨ Waits s t) : DecodeEffect s t := by
  rcases h with h | ⟨e, u, hfailed, rfl⟩ | hwaits
  · exact hdone h
  · exact .error (hfailed.errorRaised e)
  · exact .waits hwaits

theorem runToken_effect {tok : Token} {s t : State} (h : runToken tok s = .next t) : DecodeEffect s t := by
  cases tok with
  | lit b =>
    refine decodeEffect_of_reads ?_ (execLit_next b s t h)
    rintro ⟨u, hbits, -, -, hput⟩
    exact .byte ((putEmit_emitsByte hput).of_afterBits hbits)
  | copy len off =>
    refine decodeEffect_of_reads ?_ (execCopy_next len off s t h)
    rintro ⟨u, hbits, -, -, hcopy⟩
    exact .byte ((copyStart_emitsByte hcopy).of_afterBits hbits)
  | eos =>
    refine decodeEffect_of_reads ?_ (execEos_next s t h)
    rintro ⟨u, hbits, -, -, rfl⟩
    have hkept := hbits.frame
    exact .eos (by rw [EmitsEos, emit_eos_eq, hkept])

theorem decodeStep_effect {s t : State} (h : decodeStep s = .next t) : DecodeEffect s t := by
  rcases decodeStep_next s t h with ⟨-, hcopy⟩ | ⟨-, htoken⟩
  · exact .byte (copyContinue_emitsByte hcopy)
  · refine decodeEffect_of_reads ?_ (htoken.imp_right (Or.imp_right And.left))
    rintro ⟨tok, u, -, hrun⟩
    exact runToken_effect hrun

/-! ## The header with its first token -/

/-- After a valid header the first token's step puts into slot 1, for `first` is 0 (R197, R212). -/
theorem putIndex_of_first_zero {s : State} (h : s.first = 0) : putIndex s = 1 := by
  have hcap : 1 < capacity s.dictBits := Nat.one_lt_two_pow (by omega)
  rw [putIndex, h]
  exact Nat.mod_eq_of_lt hcap

/-- What a header step changes of `OUT` and of the dictionary, and what it leaves (R212, R217). -/
structure HeaderFrame (s t : State) : Prop where
  chunkLen : t.chunkLen = s.chunkLen
  lookupReq : t.lookupReq = s.lookupReq
  host : t.host = s.host
  out : t.out = s.out ∨ ∃ v, t.out = s.out ++ [v] ∧ t.outHold = some (.byte v)
  slot : ∀ a, a ≠ 1 → t.slot a = s.slot a

/-- The step has emitted nothing and put nothing. -/
theorem headerFrame_of_frame {s t : State} (h : t = { t with
    chunkLen := s.chunkLen, lookupReq := s.lookupReq, host := s.host, out := s.out, dict := s.dict }) : HeaderFrame s t :=
  ⟨(congrArg State.chunkLen h :), (congrArg State.lookupReq h :), (congrArg State.host h :), .inl (congrArg State.out h :),
    fun a _ => slot_congr (congrArg State.dict h :) a⟩

theorem ErrorRaised.headerFrame {s t : State} (h : ErrorRaised s t) : HeaderFrame s t := headerFrame_of_frame (by rw [h])

theorem CursorMoved.headerFrame {s t : State} (h : CursorMoved s t) : HeaderFrame s t := headerFrame_of_frame (by rw [h])

theorem HeaderFrame.of_cursorMoved {s u t : State} (h : HeaderFrame u t) (hu : CursorMoved s u) : HeaderFrame s t := by
  rw [hu] at h
  exact ⟨h.chunkLen, h.lookupReq, h.host, h.out, h.slot⟩

theorem DecodeEffect.headerFrame {s t : State} (h : DecodeEffect s t) (hfirst : s.first = 0) : HeaderFrame s t := by
  cases h with
  | byte h =>
    obtain ⟨⟨v, hbeat, hout⟩, -, hslot, hframe⟩ := h
    exact ⟨by rw [hframe], by rw [hframe], by rw [hframe], .inr ⟨v, hout, hbeat⟩, putIndex_of_first_zero hfirst ▸ hslot⟩
  | eos h => exact headerFrame_of_frame (by rw [h])
  | error h => exact h.headerFrame
  | waits h => exact h.frame.headerFrame

theorem headerChecks_headerFrame {m c : Byte} {s t : State} (h : headerChecks m c s = .next t) : HeaderFrame s t := by
  rcases headerChecks_next m c s t h with ⟨-, rfl⟩ | ⟨-, -, hstep⟩ | ⟨-, -, rfl⟩
  · exact headerFrame_of_frame rfl
  · obtain ⟨hlen, hreq, hhost, hout, hslot⟩ := (decodeStep_effect hstep).headerFrame rfl
    exact ⟨hlen, hreq, hhost, hout, hslot⟩
  · exact headerFrame_of_frame rfl

/-- Settles O33: the header's own part writes neither `OUT` nor the dictionary; its first token puts with `first` 0. -/
theorem hdrFrame : Obligations.HdrFrame := by
  intro m c s t h
  suffices hframe : HeaderFrame s t from
    ⟨hframe.chunkLen, hframe.lookupReq, hframe.host, hframe.out, hframe.slot⟩
  rcases execHdr_next m c s t h with ⟨-, rfl⟩ | ⟨-, ⟨mc, u, hread, hchecks⟩ | ⟨e, u, hfailed, rfl⟩ | hwaits⟩
  · exact headerFrame_of_frame rfl
  · obtain ⟨hmoved, -⟩ := readHeader_got s u mc.1 mc.2 hread
    exact (headerChecks_headerFrame hchecks).of_cursorMoved (by rw [hmoved])
  · exact (hfailed.errorRaised e).headerFrame
  · obtain ⟨hmoved, -⟩ := readHeader_waiting s t hwaits
    exact CursorMoved.headerFrame hmoved

/-! ## The state and the beat a step ends in -/

/-- Where a step past `INIT` ends, with `held` the beat before it (R211, R257): in `DECODING` with a byte, or without a beat of its
own; in `FINISHED` with `Eos`; in `ERRORED` with the recorded error. -/
inductive EndsPastInit (held : Option Beat) (t : State) : Prop
  | noBeat (hs : t.state = .decoding) (ho : t.outHold = held)
  | byte (hs : t.state = .decoding) (ho : ∃ v, t.outHold = some (.byte v))
  | eos (hs : t.state = .finished) (ho : t.outHold = some .eos)
  | error (hs : t.state = .errored) (ho : t.outHold = some (.err t.errCode))

theorem ErrorRaised.endsPastInit {s t : State} (h : ErrorRaised s t) (held : Option Beat) : EndsPastInit held t :=
  .error (by rw [h]) (by rw [h])

theorem Waits.endsPastInit {s t : State} (h : Waits s t) (hs : s.state = .decoding) : EndsPastInit s.outHold t := by
  have hmoved := h.frame
  exact .noBeat (by rw [hmoved]; exact hs) (by rw [hmoved])

theorem DecodeEffect.endsPastInit {s t : State} (h : DecodeEffect s t) (hs : s.state = .decoding) :
    EndsPastInit s.outHold t := by
  cases h with
  | byte h =>
    obtain ⟨⟨v, hbeat, -⟩, -, -, hframe⟩ := h
    exact .byte (by rw [hframe]; exact hs) ⟨v, hbeat⟩
  | eos h => exact .eos (by rw [h]) (by rw [h])
  | error h => exact h.endsPastInit _
  | waits h => exact h.endsPastInit hs

theorem exec_tableRow_endsPastInit {i : Instr} {s t : State} (hctx : i.context = .length ∨ i.context = .offsetHigh)
    (hs : s.state = .decoding) (h : exec i s = .next t) : EndsPastInit s.outHold t := by
  rcases exec_tableRow_next hctx h with ⟨n, u, hbits, -, -, rfl⟩ | ⟨e, u, hfailed, rfl⟩ | hwaits
  · have hkept := hbits.frame
    exact .noBeat (by rw [hkept]; exact hs) (by rw [hkept])
  · exact (hfailed.errorRaised e).endsPastInit _
  · exact hwaits.endsPastInit hs

theorem exec_endsPastInit {i : Instr} {s t : State} (hctx : i.context ≠ .header) (hs : s.state = .decoding)
    (h : exec i s = .next t) : EndsPastInit s.outHold t := by
  cases hi : i.context with
  | header => exact absurd hi hctx
  | token =>
    obtain ⟨tok, rfl⟩ := eq_toInstr_of_context_token i hi
    exact (runToken_effect ((exec_toInstr tok s).symm.trans h)).endsPastInit hs
  | length => exact exec_tableRow_endsPastInit (.inl hi) hs h
  | offsetHigh => exact exec_tableRow_endsPastInit (.inr hi) hs h

/-- A walk finds an instruction of its context, whatever `dict_bits` is (R93). -/
theorem context_of_decodeWalk {ctx : Context} {db : BitVec 3} {bits rest : Bits} {i : Instr}
    (h : (decodeWalk ctx db).runBits bits = .ok (i, rest)) : i.context = ctx := by
  cases ctx with
  | header =>
    obtain ⟨m, c, rfl, -⟩ := (decodeHeader_eq_ok_iff i bits rest).mp h
    rfl
  | token =>
    simp only [decodeWalk, Walk.runBits_bind_eq_ok, Walk.runBits_done_eq_ok] at h
    obtain ⟨tok, -, -, rfl, -⟩ := h
    cases tok <;> rfl
  | length =>
    simp only [decodeWalk, Walk.runBits_bind_eq_ok, Walk.runBits_done_eq_ok] at h
    obtain ⟨len, -, -, rfl, -⟩ := h
    exact lenInstr_context len
  | offsetHigh =>
    simp only [decodeWalk, Walk.runBits_bind_eq_ok, Walk.runBits_done_eq_ok, decodeOffsetHigh_eq_ok_iff] at h
    obtain ⟨high, -, ⟨hhigh, -⟩, rfl, -⟩ := h
    exact (wordFound_distInstr db high hhigh).context

theorem decoderStep_decoding_ends {s t : State} (hs : s.state = .decoding) (h : decoderStep s = .next t) :
    EndsPastInit s.outHold t := by
  rcases activity_decoding s hs with ⟨ctx, hctx, ha⟩ | ⟨-, ha⟩
  · rw [decoderStep_decoding hs ha hctx] at h
    rcases settle_next t _ _ h with ⟨i, u, hgot, hexec⟩ | ⟨e, u, hraised, rfl⟩ | hwaits
    · obtain ⟨-, -, -, hruns, -⟩ := runWalk_got _ s u i hgot
      exact exec_endsPastInit (context_of_decodeWalk hruns ▸ hctx) hs hexec
    · exact ((runWalk_failed _ s u e hraised).errorRaised e).endsPastInit _
    · exact (runWalk_waits _ s t hwaits).endsPastInit hs
  · have hcopy : decoderStep s = copyContinue s := by
      unfold decoderStep
      rw [ha]
      exact congrArg copyContinue (leaveHeaderRead_eq s (by rw [hs]; decide))
    exact (DecodeEffect.byte (copyContinue_emitsByte (hcopy.symm.trans h))).endsPastInit hs

theorem headerChecks_endsPastInit {m c : Byte} {s t : State} (h : headerChecks m c s = .next t) :
    EndsPastInit s.outHold t := by
  rcases headerChecks_next m c s t h with ⟨-, rfl⟩ | ⟨-, -, hstep⟩ | ⟨-, -, rfl⟩
  · exact .error rfl rfl
  · exact ((decodeStep_effect hstep).endsPastInit rfl :)
  · exact .error rfl rfl

/-- The header step waits in `INIT` with the beat it had, or goes past it (R211, R217). -/
theorem decoderStep_init_ends {s t : State} (hs : s.state = .init) (h : decoderStep s = .next t) :
    (t.state = .init ∧ t.outHold = s.outHold) ∨ EndsPastInit s.outHold t := by
  rw [decoderStep_init s hs] at h
  split at h
  · obtain rfl := Host.Outcome.next.inj h
    exact .inr (.error rfl rfl)
  rcases settle_next t _ _ h with ⟨mc, u, hread, hchecks⟩ | ⟨e, u, -, rfl⟩ | hwaits
  · obtain ⟨hmoved, -⟩ := readHeader_got s u mc.1 mc.2 hread
    have hheld : u.outHold = s.outHold := by rw [hmoved]
    exact .inr (hheld ▸ headerChecks_endsPastInit hchecks :)
  · exact .inr (.error rfl rfl)
  · obtain ⟨hmoved, -⟩ := readHeader_waiting s t hwaits
    exact .inl ⟨by rw [hmoved]; exact hs, by rw [hmoved]⟩

/-- `HEADER_READ` steps as `DECODING` does (R211). -/
theorem decoderStep_headerRead {s : State} (hs : s.state = .headerRead) :
    decoderStep s = decoderStep { s with state := .decoding } := by
  have hleave : leaveHeaderRead s = { s with state := .decoding } := if_pos hs
  have hstays : leaveHeaderRead { s with state := .decoding } = { s with state := .decoding } := if_neg nofun
  have hsame : s.activity = ({ s with state := .decoding } : State).activity := by
    simp only [State.activity, hs]
    rfl
  unfold decoderStep
  rw [hsame, hleave, hstays]
  rcases activity_decoding { s with state := .decoding } rfl with ⟨ctx, -, ha⟩ | ⟨-, ha⟩ <;> rw [ha]

theorem decoderStep_headerRead_ends {s t : State} (hs : s.state = .headerRead) (h : decoderStep s = .next t) :
    EndsPastInit s.outHold t :=
  (decoderStep_decoding_ends rfl ((decoderStep_headerRead hs).symm.trans h) :)

/-! ## Every step -/

theorem beatFits_of_outHold_none {t : State} (h : t.outHold = none) : t.beatFits = true := by
  unfold State.beatFits
  rw [h]

theorem EndsPastInit.beatFits {t : State} (h : EndsPastInit none t) : t.beatFits = true := by
  cases h with
  | noBeat hs ho => exact beatFits_of_outHold_none ho
  | byte hs ho =>
    obtain ⟨v, ho⟩ := ho
    simp only [State.beatFits, hs, ho]
  | eos hs ho => simp only [State.beatFits, hs, ho]
  | error hs ho => simp only [State.beatFits, hs, ho, beq_self_eq_true]

theorem EndsPastInit.state {held : Option Beat} {t : State} (h : EndsPastInit held t) :
    t.state = .decoding ∨ t.state = .finished ∨ t.state = .errored := by
  cases h with
  | noBeat hs ho => exact .inl hs
  | byte hs ho => exact .inl hs
  | eos hs ho => exact .inr (.inl hs)
  | error hs ho => exact .inr (.inr hs)

/-- In `FINISHED` the decoder's step emits `Eos` again, in `ERRORED` the recorded error (R228). -/
theorem decoderStep_finished {s : State} (hs : s.state = .finished) : decoderStep s = .next (emit .eos s) := by
  simp only [decoderStep, State.activity, hs, terminalStep, State.finishedFlag, beq_self_eq_true, if_true]

theorem decoderStep_errored {s : State} (hs : s.state = .errored) : decoderStep s = .next (emit (.err s.errCode) s) := by
  have hflag : s.finishedFlag = false := by
    unfold State.finishedFlag
    rw [hs]
    rfl
  simp only [decoderStep, State.activity, hs, terminalStep, hflag, Bool.false_eq_true, if_false]

theorem decoderStep_beatFits {s t : State} (ho : s.outHold = none) (h : decoderStep s = .next t) : t.beatFits = true := by
  cases hs : s.state with
  | idle => exact beatFits_of_outHold_none (Host.Outcome.next.inj ((decoderStep_idle s hs).symm.trans h) ▸ ho)
  | init =>
    rcases decoderStep_init_ends hs h with ⟨-, hheld⟩ | hends
    · exact beatFits_of_outHold_none (hheld.trans ho)
    · exact (ho ▸ hends).beatFits
  | headerRead => exact (ho ▸ decoderStep_headerRead_ends hs h).beatFits
  | decoding => exact (ho ▸ decoderStep_decoding_ends hs h).beatFits
  | finished =>
    obtain rfl := Host.Outcome.next.inj ((decoderStep_finished hs).symm.trans h)
    simp only [State.beatFits, emit_state, emit_outHold, hs]
  | errored =>
    obtain rfl := Host.Outcome.next.inj ((decoderStep_errored hs).symm.trans h)
    simp only [State.beatFits, emit_state, emit_outHold, emit_errCode, hs, beq_self_eq_true]

/-- The host's input leaves the state, and the beat if it is not taken. -/
theorem beatFits_ready {s : State} (h : s.beatFits = true) : s.ready.beatFits = true := by
  unfold State.ready
  cases s.input.outReady with
  | true => exact beatFits_of_outHold_none rfl
  | false => exact h

/-- Settles O45: reset and `Start` drop the beat; the decoder runs with none held and ends in a beat of its state. -/
theorem stepKeepsBeatFits : Obligations.StepKeepsBeatFits := by
  intro s t h ht
  rcases step_cases s with ⟨-, hstep⟩ | ⟨len, -, -, hstep⟩ | ⟨-, -, hstep⟩ <;> rw [hstep] at ht
  · exact Host.Outcome.next.inj ht ▸ beatFits_of_outHold_none rfl
  · exact Host.Outcome.next.inj ht ▸ beatFits_of_outHold_none rfl
  · rcases blockStep_cases s.ready with ⟨-, hheld⟩ | ⟨ho, hrun⟩
    · exact Host.Outcome.next.inj (hheld.symm.trans ht) ▸ beatFits_ready h
    · exact decoderStep_beatFits ho (hrun.symm.trans ht)

/-- The transitions of R211 that a step without reset and `Start` may take from a state. -/
def FsmState.reaches : FsmState → FsmState → Prop
  | .idle, b => b = .idle
  | .init, b => b = .init ∨ b = .decoding ∨ b = .finished ∨ b = .errored
  | .headerRead, b => b = .headerRead ∨ b = .decoding ∨ b = .finished ∨ b = .errored
  | .decoding, b => b = .decoding ∨ b = .finished ∨ b = .errored
  | .finished, b => b = .finished
  | .errored, b => b = .errored

theorem FsmState.reaches_self (a : FsmState) : a.reaches a := by
  cases a with
  | idle => rfl
  | init => exact .inl rfl
  | headerRead => exact .inl rfl
  | decoding => exact .inl rfl
  | finished => rfl
  | errored => rfl

theorem decoderStep_reaches {s t : State} (h : decoderStep s = .next t) : s.state.reaches t.state := by
  cases hs : s.state with
  | idle => exact Host.Outcome.next.inj ((decoderStep_idle s hs).symm.trans h) ▸ hs
  | init =>
    rcases decoderStep_init_ends hs h with ⟨hinit, -⟩ | hends
    · exact .inl hinit
    · exact .inr hends.state
  | headerRead => exact .inr (decoderStep_headerRead_ends hs h).state
  | decoding => exact (decoderStep_decoding_ends hs h).state
  | finished => exact Host.Outcome.next.inj ((decoderStep_finished hs).symm.trans h) ▸ hs
  | errored => exact Host.Outcome.next.inj ((decoderStep_errored hs).symm.trans h) ▸ hs

/-- Settles O46: a held beat leaves the state, and the decoder's step takes a transition of the table. -/
theorem onlyListedTransitions : Obligations.OnlyListedTransitions := by
  intro s t hrst hstart h
  have hreaches : s.state.reaches t.state := by
    rw [step_block s hrst hstart] at h
    have hready : s.ready.state = s.state := by simp
    rcases blockStep_cases s.ready with ⟨-, hheld⟩ | ⟨-, hrun⟩
    · obtain rfl := Host.Outcome.next.inj (hheld.symm.trans h)
      exact hready ▸ FsmState.reaches_self _
    · exact hready ▸ decoderStep_reaches (hrun.symm.trans h)
  and_intros <;> intro hs <;> rw [hs] at hreaches <;> exact hreaches

end Sys2Proof.Machine
end

section
/-! SUPPORT. One step after the host's input (spec/43_decoder_fsm.md R212 to R215, R223, R227, R228): the step is the decoder's, and
what it answers is the state after the host's input with the step's own changes. -/

namespace Sys2Proof.Machine

/-- Handing over the beat changes the beat alone. -/
theorem ready_eq (s : State) : s.ready = { takeInput s with outHold := s.ready.outHold } := by
  unfold State.ready
  cases s.input.outReady <;> rfl

theorem ready_eq_of_outHold_none {s : State} (ho : s.ready.outHold = none) :
    s.ready = { takeInput s with outHold := none } := ho ▸ ready_eq s

/-- An error's beat replaces the one handed over. -/
theorem errorRaised_takeInput {s t : State} (h : ErrorRaised s.ready t) : ErrorRaised (takeInput s) t := by
  rw [ErrorRaised, ready_eq s] at h
  exact h

/-- With nothing held after the host's input the step is the decoder's (R259). -/
theorem step_eq_decoderStep {s : State} (hrst : s.input.rst = false) (hstart : s.input.start = none)
    (ho : s.ready.outHold = none) : step s = decoderStep s.ready := by
  rw [step_block s hrst hstart]
  rcases blockStep_cases s.ready with ⟨hheld, -⟩ | ⟨-, hstep⟩
  · exact absurd ho hheld
  · exact hstep

/-- Settles O50: outside `HEADER_READ` the state the decoder fetches in is the one after the host's input. -/
theorem stepRunsFetchedInstruction : Obligations.StepRunsFetchedInstruction := by
  intro s u ctx i hrst hstart ho hs ha hgot
  rw [step_fetch hrst hstart ho ha, leaveHeaderRead_eq s.ready (by simpa using hs), hgot]
  rfl

/-- Settles O47: both terminal steps emit their beat and write nothing else. -/
theorem terminalStatesAreSticky : Obligations.TerminalStatesAreSticky := by
  intro s hrst hstart ho
  rw [step_eq_decoderStep hrst hstart ho]
  refine ⟨fun hs => ?_, fun hs => ?_⟩
  · rw [decoderStep_finished (by simpa using hs), ready_eq s]
    rfl
  · rw [decoderStep_errored (by simpa using hs), ready_eq s]
    rfl

/-! ## The header -/

/-- Past the test of the chunk's size `HDR` is its reads and its checks (R212). -/
theorem execHdr_of_long {m c : Byte} {s : State} (h : 2 < s.chunkLen.toNat) :
    exec (.hdr m c) s = settle (readHeader s) fun _ t => headerChecks m c t :=
  if_neg (Nat.not_le_of_lt h)

/-- Settles O22: past the size test the step is the reads, then the checks, mode before size code; each failure is a raise. -/
theorem headerChecksInOrder : Obligations.HeaderChecksInOrder := by
  intro m c s
  refine ⟨fun hlen => if_pos hlen, fun hlen => ?_⟩
  rw [execHdr_of_long hlen]
  refine ⟨fun e u hread => ?_, fun mc u hread => ?_⟩ <;> rw [hread]
  · rfl
  · refine ⟨fun hm => if_pos hm, fun hm hc => ?_⟩
    exact (if_neg (not_not_intro hm)).trans (if_neg (by rw [hc]; exact Bool.false_ne_true))

/-- Settles O23: the header step of such a chunk raises before its first read. -/
theorem shortChunkTakesNoByte : Obligations.ShortChunkTakesNoByte := by
  intro s hrst hstart ho hs hlen
  refine ⟨raisedState .chunkTooSmall { s.ready with stepBits := [] }, ?_, rfl, rfl, rfl, ?_⟩
  · rw [step_eq_decoderStep hrst hstart ho, decoderStep_init _ (by simpa using hs), if_pos (by simpa using hlen)]
    rfl
  · simp

/-! ## Decoding -/

/-- Settles O48: the step raises what the walk raised, and a failed read leaves all but the cursor and the flag. -/
theorem errorInTokenIsPrecise : Obligations.ErrorInTokenIsPrecise := by
  intro s u e hrst hstart ho hs hl hc hraised
  have hfailed := runWalk_failed _ _ u e hraised
  have hwalk : runWalk (decodeToken s.ready.dictBits) s.ready = .raised e u := by simpa using hraised
  refine ⟨raisedState e { u with stepBits := [] }, ?_, rfl, rfl, rfl, hfailed.flag, rfl, ?_, ?_⟩
  · rw [step_eq_decoderStep hrst hstart ho, decoderStep_eq_decodeStep _ (by simpa using hs) (by simpa using hl), decodeStep,
      if_pos (by simpa using hc), hwalk]
    rfl
  · exact ready_bitpos s ▸ hfailed.mono
  · exact errorRaised_takeInput (hfailed.errorRaised e)

/-- In `DECODING` with a copy left and no table walk asked for, the decoder's step goes on with the copy (R215). -/
theorem decoderStep_of_copy {s : State} (hs : s.state = .decoding) (hl : s.lookupReq = none) (hc : s.copyRem ≠ 0) :
    decoderStep s = copyContinue s := by
  rw [decoderStep_eq_decodeStep s hs hl, decodeStep, if_neg hc]

/-- Under a legal size code a copy's step is the `put` of the byte at `copy_off` (R223). -/
theorem copyContinue_of_legal {s : State} (h : legalSizeCode s.dictBits.toNat = true) :
    copyContinue s = putEmit (s.slot (getIndex s s.copyOff)) { s with
      copyRem := s.copyRem - 1, mode := if s.copyRem - 1 = 0 then .literal else s.mode } :=
  getEmit_eq s.copyOff _ (getIndex_lt _ s.copyOff (dictBits_ne_seven h))

theorem copyRem_pred {n : BitVec 10} (h : n ≠ 0) : (n - 1).toNat = n.toNat - 1 ∧ (n - 1 = 0 ↔ n.toNat = 1) := by
  constructor
  · bv_omega
  · rw [← BitVec.toNat_inj]
    bv_omega

/-- Settles O19: the step is the `put` of the byte at `copy_off` of the state after the host's input. -/
theorem copyContinues : Obligations.CopyContinues := by
  intro s hrst hstart ho hs hl hc hlegal
  obtain ⟨hrem, hlast⟩ := copyRem_pred hc
  have hcopy : step s = copyContinue { takeInput s with outHold := none } := by
    rw [step_eq_decoderStep hrst hstart ho, ready_eq_of_outHold_none ho]
    exact decoderStep_of_copy hs hl hc
  obtain ⟨t, ht⟩ := putEmit_of_legal (s.slot (getIndex s s.copyOff)) (s := { takeInput s with
    outHold := none, copyRem := s.copyRem - 1, mode := if s.copyRem - 1 = 0 then .literal else s.mode }) hlegal
  have hlegal' : legalSizeCode ({ takeInput s with outHold := none } : State).dictBits.toNat = true := hlegal
  have hnext : step s = .next t := hcopy.trans ((copyContinue_of_legal hlegal').trans ht)
  obtain ⟨-, hfirst, hnew, hold, hframe⟩ := putEmit_next _ _ t ht
  exact ⟨t, hnext, by rw [hframe]; exact hrem, by rw [hframe]; exact if_congr hlast rfl rfl, by rw [hframe],
    by rw [hframe]; rfl, hfirst, hnew, hold, by rw [hframe]⟩

end Sys2Proof.Machine
end

section
/-! SUPPORT. A source that answers every request (spec/70_reset_and_hazards.md R322): the header and every token then end in a
beat, and a chunk's decoding ends (spec/43_decoder_fsm.md R212, R217, R219). -/

namespace Sys2Proof.Machine

/-! ## The source's answers -/

/-- Taking bytes keeps the source answering. -/
theorem BytesTaken.sourceAnswers {s t : State} (h : BytesTaken s t) (ha : s.sourceAnswers) : t.sourceAnswers := by
  have hpresented := h.presented
  obtain ⟨used, hsource, -, hrem⟩ := h
  have hlen := congrArg List.length hsource
  rw [List.length_append] at hlen
  unfold State.sourceAnswers at ha ⊢
  omega

/-- A source that answers every request lets no read wait (R148). -/
theorem not_waiting_of_sourceAnswers {s t : State} (ha : s.sourceAnswers) (ht : BytesTaken s t) (hsource : t.source = [])
    (hdue : t.bytesRem ≠ 0) : False := by
  have hpos := (bytesRem_pred t.bytesRem hdue).2
  rcases ht.sourceAnswers ha with h | h
  · rw [hsource, bytesPresented] at h
    omega
  · rw [hsource] at h
    exact Nat.not_lt_zero _ h

/-! ## The header's two bytes -/

/-- A header byte that is due and presented is read (R142, R145). -/
theorem readHeaderByte_of_presented {s : State} (hdue : 1 ≤ s.bytesRem.toNat) (hbyte : 1 ≤ bytesPresented s.source) :
    ∃ v t, readHeaderByte s = .got v t := by
  have hrem : s.bytesRem ≠ 0 := by
    intro h
    rw [h] at hdue
    exact absurd hdue (by decide)
  cases hr : readHeaderByte s with
  | got v t => exact ⟨v, t, rfl⟩
  | raised e t =>
    have hnone : bytesPresented s.source = 0 := by
      obtain ⟨-, ⟨h0, -⟩ | ⟨-, x, rest, hsource, -, ⟨hx, -⟩ | ⟨hx, -⟩⟩⟩ :=
        fetchByte_raised s t e (readHeaderByte_raised s t e hr)
      · exact absurd h0 hrem
      · simp only [hsource, bytesPresented, hx]
      · simp only [hsource, bytesPresented, hx]
    omega
  | waiting t =>
    obtain ⟨-, -, hsource⟩ := readHeaderByte_waiting s t hr
    rw [hsource] at hbyte
    exact absurd hbyte (by decide)

/-- The bits of a header step from its first: those it read before it came to wait, then the bytes presented. -/
def State.headerBits (s : State) : Bits := s.stepBits ++ bytesBits (presentedBytes s.source)

theorem nextHeaderByte_of_stepBits_nil {s : State} (h : s.stepBits = []) : nextHeaderByte s = readHeaderByte s := by
  simp only [nextHeaderByte, h]

/-- A header byte from the source. -/
theorem nextHeaderByte_from_source {s : State} (hbits : s.stepBits = []) (hdue : 1 ≤ s.bytesRem.toNat)
    (hbyte : 1 ≤ bytesPresented s.source) :
    ∃ v t, nextHeaderByte s = .got v t ∧ s.headerBits = bitsOf 8 v.toNat ++ t.headerBits ∧ t.stepBits = [] ∧
      t.bytesRem.toNat = s.bytesRem.toNat - 1 ∧ bytesPresented t.source = bytesPresented s.source - 1 := by
  obtain ⟨v, t, hr⟩ := readHeaderByte_of_presented hdue hbyte
  have hnext := (nextHeaderByte_of_stepBits_nil hbits).trans hr
  obtain ⟨-, -, -, hkeep, -⟩ := nextHeaderByte_got s t v hnext
  have hnil : t.stepBits = [] := by rw [hkeep, hbits]; rfl
  obtain ⟨-, hrem, hpred, -, -, x, hsource, hx⟩ := readHeaderByte_got s t v hr
  refine ⟨v, t, hnext, ?_, hnil, ?_, ?_⟩
  · simp only [State.headerBits, hbits, hnil, hsource, presentedBytes, hx, bytesBits_cons, List.nil_append]
  · rw [hpred, (bytesRem_pred _ hrem).1]
  · simp only [hsource, bytesPresented, hx, Nat.add_sub_cancel_left]

/-- The header byte that the step read before it came to wait (log entry 3). -/
theorem nextHeaderByte_from_stepBits {s : State} (h : s.stepBits.length = 8) :
    ∃ v, nextHeaderByte s = .got v { s with stepBits := [] } ∧
      s.headerBits = bitsOf 8 v.toNat ++ ({ s with stepBits := [] } : State).headerBits := by
  have htake : s.stepBits.take 8 = s.stepBits := List.take_of_length_le (Nat.le_of_eq h)
  have hdrop : s.stepBits.drop 8 = [] := List.drop_eq_nil_of_le (Nat.le_of_eq h)
  have hlayout : bitsOf 8 (BitVec.ofNat 8 (bitsVal s.stepBits)).toNat = s.stepBits := by
    rw [bitsOf_toNat_ofNat, ← h, bitsOf_bitsVal]
  refine ⟨BitVec.ofNat 8 (bitsVal s.stepBits), ?_, ?_⟩
  · unfold nextHeaderByte
    split
    · next hnil => rw [hnil] at h; cases h
    · rw [htake, hdrop]
  · rw [hlayout]
    rfl

theorem readHeader_of_bytes {s t u : State} {m k : Byte} (hm : nextHeaderByte s = .got m t)
    (hk : nextHeaderByte t = .got k u) : readHeader s = .got (m, k) u := by
  rw [readHeader, hm, Read.bind_got, hk]
  rfl

/-- With both bytes to come and presented, or the first read before a wait and the second presented, the header is read (R212). -/
theorem readHeader_of_presented {s : State}
    (h : s.stepBits = [] ∧ 2 ≤ s.bytesRem.toNat ∧ 2 ≤ bytesPresented s.source ∨
      s.stepBits.length = 8 ∧ 1 ≤ s.bytesRem.toNat ∧ 1 ≤ bytesPresented s.source) :
    ∃ m k u, readHeader s = .got (m, k) u ∧
      s.headerBits = bitsOf 8 m.toNat ++ bitsOf 8 k.toNat ++ bytesBits (presentedBytes u.source) := by
  obtain ⟨m, t, hm, hfirst, hnil, hdue, hbyte⟩ : ∃ m t, nextHeaderByte s = .got m t ∧
      s.headerBits = bitsOf 8 m.toNat ++ t.headerBits ∧ t.stepBits = [] ∧ 1 ≤ t.bytesRem.toNat ∧
      1 ≤ bytesPresented t.source := by
    rcases h with ⟨hnil, hdue, hbyte⟩ | ⟨h8, hdue, hbyte⟩
    · obtain ⟨m, t, hm, hbits, ht, hrem, hpresented⟩ :=
        nextHeaderByte_from_source hnil (Nat.le_of_succ_le hdue) (Nat.le_of_succ_le hbyte)
      exact ⟨m, t, hm, hbits, ht, by omega, by omega⟩
    · obtain ⟨m, hm, hbits⟩ := nextHeaderByte_from_stepBits h8
      exact ⟨m, _, hm, hbits, rfl, hdue, hbyte⟩
  obtain ⟨k, u, hk, hsecond, hu, -⟩ := nextHeaderByte_from_source hnil hdue hbyte
  refine ⟨m, k, u, readHeader_of_bytes hm hk, ?_⟩
  rw [hfirst, hsecond, State.headerBits, hu, List.nil_append, List.append_assoc]

/-! ## A token that the source supplies -/

/-- A step boundary of `DECODING` with a legal size code and a source that answers every request. -/
structure SuppliedDecoding (s : State) : Prop where
  state : s.state = .decoding
  legal : legalSizeCode s.dictBits.toNat = true
  boundary : s.stepBits = []
  answers : s.sourceAnswers

/-- The chunk bits after the cursor (R31). -/
def State.bitsLeft (s : State) : Nat := 8 * s.bytesRem.toNat + (8 - s.bitOff.val)

/-- A bound on the steps to the terminal state: a token has at least eight bits and is done in at most 518 steps, then one step
finds the end of the chunk (R219). -/
def State.stepsLeft (s : State) : Nat := 518 * (s.bitsLeft / 8) + s.copyRem.toNat + 1

theorem AfterBits.bitsLeft {n : Nat} {s u : State} (h : AfterBits n s u) (hs : s.stepBits = []) :
    u.bitsLeft + n = s.bitsLeft := by
  have hpos := h.bitpos
  have hchunk : u.chunkLen = s.chunkLen := by rw [h.frame]
  have hoff := s.bitOff.isLt
  have hoff' := u.bitOff.isLt
  simp only [State.bitpos, State.unread, hchunk, hs, List.length_nil] at hpos
  unfold State.bitsLeft
  omega

/-- A token's bits pay for its steps: the present one and the `c` of the copy that it leaves. -/
theorem AfterBits.stepsLeft_lt {n c : Nat} {s u : State} (h : AfterBits n s u) (hs : s.stepBits = []) (hn : 8 ≤ n)
    (hc : c ≤ 517) : 518 * (u.bitsLeft / 8) + c + 1 < s.stepsLeft := by
  have hbits := h.bitsLeft hs
  unfold State.stepsLeft
  omega

theorem SuppliedDecoding.of_taken {s t : State} (h : SuppliedDecoding s) (ht : BytesTaken s t) (hs : t.state = s.state)
    (hdb : t.dictBits = s.dictBits) (hbits : t.stepBits = []) : SuppliedDecoding t :=
  ⟨hs.trans h.state, hdb ▸ h.legal, hbits, ht.sourceAnswers h.answers⟩

theorem SuppliedDecoding.afterBits {n : Nat} {s u : State} (h : SuppliedDecoding s) (hu : AfterBits n s u) :
    SuppliedDecoding u :=
  h.of_taken hu.taken (by rw [hu.frame]) hu.dictBits hu.stepBits

theorem SuppliedDecoding.setCopy {s : State} (h : SuppliedDecoding s) (off : BitVec 12) (n : BitVec 10) (m : Mode) :
    SuppliedDecoding { s with copyOff := off, copyRem := n, mode := m } :=
  ⟨h.state, h.legal, h.boundary, h.answers⟩

/-- `put` and its beat cost no bits and no steps of a copy. -/
theorem SuppliedDecoding.putEmit {s : State} (h : SuppliedDecoding s) (b : Byte) :
    ∃ t, putEmit b s = .next t ∧ SuppliedDecoding t ∧ t.stepsLeft = s.stepsLeft := by
  obtain ⟨t, ht⟩ := putEmit_of_legal b h.legal
  have htaken := putEmit_bytesTaken ht
  obtain ⟨-, -, -, -, hframe⟩ := putEmit_next b s t ht
  refine ⟨t, ht, h.of_taken htaken (by rw [hframe]) (by rw [hframe]) (by rw [hframe]; exact h.boundary), ?_⟩
  rw [hframe]
  rfl

/-- A step that ends the chunk's decoding, or leaves fewer steps to go. -/
def StepsTowardsEnd (s t : State) : Prop :=
  (t.state = .finished ∨ t.state = .errored) ∨ (SuppliedDecoding t ∧ t.stepsLeft < s.stepsLeft)

theorem SuppliedDecoding.copyContinue {s : State} (h : SuppliedDecoding s) (hc : s.copyRem ≠ 0) :
    ∃ t, copyContinue s = .next t ∧ StepsTowardsEnd s t := by
  obtain ⟨t, ht, hsupplied, hsteps⟩ := (h.setCopy s.copyOff (s.copyRem - 1)
    (if s.copyRem - 1 = 0 then .literal else s.mode)).putEmit (s.slot (getIndex s s.copyOff))
  refine ⟨t, (copyContinue_of_legal h.legal).trans ht, .inr ⟨hsupplied, ?_⟩⟩
  have hpred := (copyRem_pred hc).1
  have hpos : 0 < s.copyRem.toNat := by bv_omega
  rw [hsteps]
  show 518 * (s.bitsLeft / 8) + (s.copyRem - 1).toNat + 1 < s.stepsLeft
  unfold State.stepsLeft
  omega

/-- A token whose bits are ready runs towards the end. -/
theorem SuppliedDecoding.runToken {s : State} {tok : Token} (h : SuppliedDecoding s) (hc : s.copyRem = 0)
    (hwf : tok.toInstr.wf s.dictBits = true) (hn : Laws.EncodedSize.size s.dictBits tok.toInstr ≤ s.bitsReady) :
    ∃ t, runToken tok s = .next t ∧ StepsTowardsEnd s t := by
  rw [← exec_toInstr]
  cases tok with
  | lit b =>
    obtain ⟨u, hbits, -, -, hexec⟩ := execLit_ready_results b s hn
    obtain ⟨t, ht, hsupplied, hsteps⟩ := (h.afterBits hbits).putEmit b
    have hrem : u.copyRem.toNat ≤ 517 := by
      rw [show u.copyRem = 0 by rw [hbits.frame]; exact hc]
      decide
    exact ⟨t, hexec.trans ht, .inr ⟨hsupplied, hsteps.trans_lt (hbits.stepsLeft_lt h.boundary (by decide) hrem)⟩⟩
  | copy len off =>
    obtain ⟨-, h2, h518, -⟩ := (copy_wf_iff _ len off).mp hwf
    obtain ⟨u, hbits, -, -, hexec⟩ := execCopy_ready_putEmit hwf hn
    obtain ⟨t, ht, hsupplied, hsteps⟩ := ((h.afterBits hbits).setCopy off (len - 1) .copying).putEmit
      (s.slot (getIndex s off))
    have hrem := (copyRem_of_length len h2 h518).1
    have hsize := (size_copy_bounds _ len off hwf).1
    exact ⟨t, hexec.trans ht, .inr ⟨hsupplied, hsteps.trans_lt (hbits.stepsLeft_lt h.boundary hsize hrem)⟩⟩
  | eos =>
    obtain ⟨u, -, -, -, hexec⟩ := execEos_ready_results s hn
    exact ⟨_, hexec, .inl (.inl rfl)⟩

/-- A step of the decoder ends the chunk's decoding, or leaves fewer steps to go: no fault and no wait (R219, R322). -/
theorem SuppliedDecoding.decodeStep {s : State} (h : SuppliedDecoding s) :
    ∃ t, decodeStep s = .next t ∧ StepsTowardsEnd s t := by
  unfold Machine.decodeStep
  by_cases hc : s.copyRem = 0
  · rw [if_pos hc]
    cases hr : runWalk (decodeToken s.dictBits) s with
    | got tok u =>
      obtain ⟨-, -, -, hruns, -⟩ := runWalk_got _ s u tok hr
      obtain ⟨k, hlen, hfound⟩ := decodeToken_takesBits s.dictBits h.legal _ _ _ hruns
      rw [upcomingBits_length, upcomingBits_length, hfound.bits] at hlen
      exact h.runToken hc hfound.wf (by omega)
    | raised e u => exact ⟨_, rfl, .inl (.inr rfl)⟩
    | waiting u =>
      have hwaits := runWalk_waits _ s u hr
      exact (not_waiting_of_sourceAnswers h.answers hwaits.taken hwaits.source hwaits.due).elim
  · rw [if_neg hc]
    exact h.copyContinue hc

/-! ## A valid header and its first token -/

/-- The state in which the first token runs after the header's reads have left `u` (R212). -/
abbrev State.afterHeader (u : State) (c : Byte) : State :=
  { u with
    stepBits := [], dictMode := 0, dictSizeCode := c, dictBits := c.setWidth 3, first := 0, state := .decoding }

theorem suppliedDecoding_afterHeader {u : State} {c : Byte} (hc : legalSizeCode c.toNat = true) (ha : u.sourceAnswers) :
    SuppliedDecoding (u.afterHeader c) :=
  ⟨rfl, legalSizeCode_setWidth c hc, rfl, ha⟩

/-- A valid header's checks are the first token's step (R217). -/
theorem headerChecks_valid {u : State} {c : Byte} (hc : legalSizeCode c.toNat = true) :
    headerChecks 0 c { u with stepBits := [] } = decodeStep (u.afterHeader c) := by
  simp only [headerChecks, ne_eq, not_true_eq_false, if_false, hc, if_true]

/-- The low three bits of a legal size code are the code (R25, R91). -/
theorem legalSizeCode_setWidth_toNat {c : Byte} (h : legalSizeCode c.toNat = true) :
    (c.setWidth 3 : BitVec 3).toNat = c.toNat := by
  revert h
  revert c
  decide

/-- What the first token's step leaves of the header's registers, and its beat: a byte put into slot 1, `Eos`, or the error
recorded (R217). -/
structure FirstTokenDone (u : State) (c : Byte) (t : State) : Prop where
  dictMode : t.dictMode = 0
  dictSizeCode : t.dictSizeCode = c
  dictBits : t.dictBits = c.setWidth 3
  chunkLen : t.chunkLen = u.chunkLen
  beat : (t.state = .decoding ∧ t.first = 1 ∧ ∃ v, t.outHold = some (.byte v)) ∨
    (t.state = .finished ∧ t.first = 0 ∧ t.outHold = some .eos) ∨
    (t.state = .errored ∧ t.first = 0 ∧ t.outHold = some (.err t.errCode))

theorem firstTokenDone {u t : State} {c : Byte} (ha : u.sourceAnswers) (h : decodeStep (u.afterHeader c) = .next t) :
    FirstTokenDone u c t := by
  cases decodeStep_effect h with
  | byte heffect =>
    obtain ⟨⟨v, hbeat, -⟩, hfirst, -, hframe⟩ := heffect
    have hone : t.first = 1 := BitVec.eq_of_toNat_eq (hfirst.trans (putIndex_of_first_zero rfl))
    exact ⟨by rw [hframe], by rw [hframe], by rw [hframe], by rw [hframe], .inl ⟨by rw [hframe], hone, v, hbeat⟩⟩
  | eos heos =>
    exact ⟨by rw [heos], by rw [heos], by rw [heos], by rw [heos], .inr (.inl ⟨by rw [heos], by rw [heos], by rw [heos]⟩)⟩
  | error herror =>
    exact ⟨by rw [herror], by rw [herror], by rw [herror], by rw [herror],
      .inr (.inr ⟨by rw [herror], by rw [herror], by rw [herror]⟩)⟩
  | waits hwaits => exact (not_waiting_of_sourceAnswers ha hwaits.taken hwaits.source hwaits.due).elim

/-- Settles O21: the header's bytes are presented, and the first token's step ends in a beat, for the source answers. -/
theorem validHeaderRunsFirstToken : Obligations.ValidHeaderRunsFirstToken := by
  intro c s hc hlen hbytes ha
  obtain ⟨m, k, u, hread, hbits⟩ := readHeader_of_presented hbytes
  obtain ⟨hmoved, htaken, -⟩ := readHeader_got s u m k hread
  have hchunk : u.chunkLen = s.chunkLen := by rw [hmoved]
  have hanswers := htaken.sourceAnswers ha
  obtain ⟨t, ht, -⟩ := (suppliedDecoding_afterHeader hc hanswers).decodeStep
  have hdone := firstTokenDone hanswers ht
  have hexec : exec (.hdr 0 c) s = .next t := by
    rw [execHdr_of_long hlen, hread]
    exact (headerChecks_valid hc).trans ht
  exact ⟨m, k, u, t, hread, hbits, hexec, ht, hdone.dictMode, hdone.dictSizeCode,
    by rw [hdone.dictBits, legalSizeCode_setWidth_toNat hc], hdone.chunkLen.trans hchunk, hdone.beat⟩

/-! ## Decoding ends -/

/-- At most `n` steps from `s` reach a terminal state. -/
def EndsWithin (n : Nat) (s : State) : Prop :=
  ∃ k t, k ≤ n ∧ Host.Core.run core k s = .next t ∧ (t.state = .finished ∨ t.state = .errored)

theorem endsWithin_of_terminal {n : Nat} {s t : State} (h : step s = .next t) (ht : t.state = .finished ∨ t.state = .errored)
    (hn : 1 ≤ n) : EndsWithin n s :=
  ⟨1, t, hn, run_succ_of_step 0 h, ht⟩

theorem EndsWithin.of_step {n : Nat} {s t : State} (h : EndsWithin n t) (hstep : step s = .next t) :
    EndsWithin (n + 1) s := by
  obtain ⟨k, u, hk, hrun, hu⟩ := h
  exact ⟨k + 1, u, Nat.succ_le_succ hk, (run_succ_of_step k hstep).trans hrun, hu⟩

/-- A `DECODING` step leaves the walk request and the host's list (log entries 2, 6). -/
theorem decodeStep_keeps_request_host {s t : State} (h : decodeStep s = .next t) :
    t.lookupReq = s.lookupReq ∧ t.host = s.host := by
  cases decodeStep_effect h with
  | byte heffect =>
    have hframe := heffect.frame
    exact ⟨by rw [hframe], by rw [hframe]⟩
  | eos heos => exact ⟨by rw [heos], by rw [heos]⟩
  | error herror => exact ⟨by rw [herror], by rw [herror]⟩
  | waits hwaits =>
    have hmoved := hwaits.frame
    exact ⟨by rw [hmoved], by rw [hmoved]⟩

/-- With a quiet host a step that is a `DECODING` step in `x` ends within the steps left in `x`; induction on their bound. The
step that starts may be the header's, whose first token runs in `x` (R217). -/
theorem SuppliedDecoding.endsWithin (n : Nat) :
    ∀ {x s : State}, SuppliedDecoding x → x.lookupReq = none → x.host = [] → x.stepsLeft ≤ n → step s = Machine.decodeStep x →
      EndsWithin n s := by
  induction n with
  | zero => exact fun {x s} _ _ _ hn _ => absurd hn (Nat.not_succ_le_zero _)
  | succ n ih =>
    intro x s h hl hhost hn hstep
    obtain ⟨t, ht, hend | ⟨hsupplied, hless⟩⟩ := h.decodeStep
    · exact endsWithin_of_terminal (hstep.trans ht) hend (Nat.succ_pos n)
    obtain ⟨hreq, hquiet⟩ := decodeStep_keeps_request_host ht
    have hnext : step t = Machine.decodeStep { t with outHold := none } :=
      (step_quiet (hquiet.trans hhost)).trans (decoderStep_eq_decodeStep _ hsupplied.state (hreq.trans hl))
    have hrest : EndsWithin n t := ih (x := { t with outHold := none })
      ⟨hsupplied.state, hsupplied.legal, hsupplied.boundary, hsupplied.answers⟩ (hreq.trans hl) (hquiet.trans hhost)
      (Nat.le_of_lt_succ (Nat.lt_of_lt_of_le hless hn)) hnext
    exact hrest.of_step (hstep.trans ht)

/-- The header takes two bytes and leaves the cursor at their end (R212). -/
theorem readHeader_got_bitsLeft {s u : State} {mc : Byte × Byte} (hs : s.stepBits = []) (h : readHeader s = .got mc u) :
    u.bitsLeft / 8 = s.bytesRem.toNat - 2 := by
  obtain ⟨-, -, -, -, t, hm, hk⟩ := readHeader_got s u mc.1 mc.2 h
  obtain ⟨-, -, -, ht, -⟩ := nextHeaderByte_got s t mc.1 hm
  rw [nextHeaderByte_of_stepBits_nil hs] at hm
  rw [nextHeaderByte_of_stepBits_nil (by rw [ht, hs]; rfl)] at hk
  obtain ⟨-, hdue, hrem, -⟩ := readHeaderByte_got s t mc.1 hm
  obtain ⟨-, hdue', hrem', hoff, -⟩ := readHeaderByte_got t u mc.2 hk
  have hpred := (bytesRem_pred _ hdue).1
  have hpred' := (bytesRem_pred _ hdue').1
  have hoff8 : u.bitOff.val = 8 := by rw [hoff]; rfl
  rw [State.bitsLeft, hrem', hpred', hrem, hpred, hoff8]
  omega

/-- The checks raise, or they are the first token's step (R213, R217). -/
theorem headerChecks_cases (m c : Byte) (u : State) :
    (∃ t, headerChecks m c { u with stepBits := [] } = .next t ∧ t.state = .errored) ∨
      (legalSizeCode c.toNat = true ∧ headerChecks m c { u with stepBits := [] } = decodeStep (u.afterHeader c)) := by
  by_cases hm : m = 0
  · subst hm
    cases hc : legalSizeCode c.toNat with
    | true => exact .inr ⟨rfl, headerChecks_valid hc⟩
    | false =>
      refine .inl ⟨_, (if_neg (not_not_intro rfl)).trans (if_neg ?_), rfl⟩
      rw [hc]
      exact Bool.false_ne_true
  · exact .inl ⟨_, if_pos hm, rfl⟩

/-- The header step of a chunk that the source answers: it raises, or it is the first token's step with `L - 2` bytes to go. -/
theorem applyStart_step_cases (s : State) (len : Len) (hhost : s.host = []) (ha : (applyStart len s).sourceAnswers) :
    (∃ t, step (applyStart len s) = .next t ∧ t.state = .errored) ∨
      ∃ x, SuppliedDecoding x ∧ x.lookupReq = none ∧ x.host = [] ∧ x.stepsLeft = 518 * (len.toNat - 2) + 1 ∧
        step (applyStart len s) = decodeStep x := by
  have hstep : step (applyStart len s) = decoderStep (applyStart len s) := step_quiet hhost
  by_cases hlen : len.toNat ≤ 2
  · exact .inl ⟨_, hstep.trans ((decoderStep_init _ rfl).trans (if_pos hlen)), rfl⟩
  rw [hstep, decoderStep_init_of_long rfl (Nat.lt_of_not_le hlen)]
  cases hr : readHeader (applyStart len s) with
  | raised e u => exact .inl ⟨_, rfl, rfl⟩
  | waiting u =>
    obtain ⟨-, htaken, -, hdue, hsource, -⟩ := readHeader_waiting _ u hr
    exact (not_waiting_of_sourceAnswers ha htaken hsource hdue).elim
  | got mc u =>
    obtain ⟨hmoved, htaken, -⟩ := readHeader_got _ u mc.1 mc.2 hr
    refine (headerChecks_cases mc.1 mc.2 u).imp id fun ⟨hc, hchecks⟩ => ?_
    have hrem : u.copyRem = 0 := by rw [hmoved]; rfl
    have hsteps : (u.afterHeader mc.2).stepsLeft = 518 * (u.bitsLeft / 8) + u.copyRem.toNat + 1 := rfl
    rw [readHeader_got_bitsLeft rfl hr, hrem] at hsteps
    exact ⟨_, suppliedDecoding_afterHeader hc (htaken.sourceAnswers ha), by rw [hmoved]; rfl, by rw [hmoved]; exact hhost,
      hsteps, hchecks⟩

/-- Settles O60: after the header `L - 2` bytes are left; each token takes at least one of them and at most 518 steps. -/
theorem decodingEnds : Obligations.DecodingEnds := by
  intro s len hhost ha
  rcases applyStart_step_cases s len hhost ha with ⟨t, hstep, ht⟩ | ⟨x, hx, hl, hquiet, hsteps, hstep⟩
  · exact endsWithin_of_terminal hstep (.inr ht) (Nat.succ_pos _)
  · exact hx.endsWithin _ hl hquiet hsteps.le hstep

end Sys2Proof.Machine
end

section
/-! SUPPORT. The ports at a step (spec/44_host_interface.md R251 to R256, R259): when the source is asked for a byte, and what the
block does while it is held, idle or reset. -/

namespace Sys2Proof.Machine

/-! ## A source that presents nothing -/

/-- `s` before a source that presents nothing: `src_ready` is whether the step would wait there (R148, R254). -/
abbrev State.unanswered (s : State) : State := { s with source := [] }

theorem BytesTaken.bytesRem_of_source_nil {s t : State} (h : BytesTaken s t) (hs : s.source = []) :
    t.source = [] ∧ t.bytesRem = s.bytesRem := by
  obtain ⟨used, hsource, -, hrem⟩ := h
  obtain ⟨rfl, hnil⟩ := List.append_eq_nil_iff.mp (hsource.symm.trans hs)
  exact ⟨hnil, BitVec.eq_of_toNat_eq hrem⟩

/-- `fetchByte()` raises only on an answer or on no byte being due (R142). -/
theorem fetchByte_not_raised {s t : State} {e : ErrCode} (hs : s.source = []) (hdue : s.bytesRem ≠ 0) :
    fetchByte s ≠ .raised e t := by
  intro h
  obtain ⟨-, ⟨h0, -⟩ | ⟨-, x, rest, hsource, -⟩⟩ := fetchByte_raised s t e h
  · exact hdue h0
  · rw [hs] at hsource
    cases hsource

/-- With bytes due and none presented, a walk waits exactly when the bits already there do not suffice (R143, R148). -/
theorem runWalk_waits_iff {α : Type} (w : Walk α) {s : State} (hs : s.source = []) (hdue : s.bytesRem ≠ 0) :
    (∃ t, runWalk w s = .waiting t) ↔ s.bcErrored = false ∧ w.runBits s.upcomingBits = .error .bitsExhausted := by
  constructor
  · rintro ⟨t, ht⟩
    obtain ⟨hmoved, -, -, -, -, -, hbc, -, hbits⟩ := runWalk_waiting w s t ht
    rw [hmoved] at hbc
    exact ⟨hbc, hbits⟩
  · rintro ⟨hbc, hbits⟩
    cases hr : runWalk w s with
    | waiting t => exact ⟨t, rfl⟩
    | got a t =>
      obtain ⟨-, -, -, hruns, -⟩ := runWalk_got w s t a hr
      rw [hbits] at hruns
      cases hruns
    | raised e t =>
      obtain ⟨u, hmoved, -, htaken, -, hraised, -⟩ := runWalk_raised w s t e hr
      obtain ⟨hsource, hrem⟩ := htaken.bytesRem_of_source_nil hs
      obtain ⟨-, -, -, ⟨hsticky, -⟩ | ⟨-, hfetch⟩⟩ := readBit_raised u t e hraised
      · rw [hmoved] at hsticky
        exact absurd (hbc.symm.trans hsticky) Bool.false_ne_true
      · exact absurd hfetch (fetchByte_not_raised hsource (hrem ▸ hdue))

/-- A header byte that is not read yet waits (R145, R148). -/
theorem nextHeaderByte_waits {s : State} (hs : s.source = []) (hdue : s.bytesRem ≠ 0) (hbits : s.stepBits = []) :
    nextHeaderByte s = .waiting s := by
  rw [nextHeaderByte_of_stepBits_nil hbits, readHeaderByte, (fetchByte_eq_waiting_iff s s).mpr ⟨rfl, hdue, hs⟩]
  rfl

/-- A header byte that the step has read is not read again (log entry 3). -/
theorem nextHeaderByte_remembered {s : State} (h : s.stepBits ≠ []) :
    ∃ v, nextHeaderByte s = .got v { s with stepBits := s.stepBits.drop 8 } := by
  obtain ⟨b, rest, hbits⟩ := List.exists_cons_of_ne_nil h
  simp [nextHeaderByte, hbits]

/-- With bytes due and none presented, the header's reads wait exactly while the second byte is not read (R145, R212). -/
theorem readHeader_waits_iff {s : State} (hs : s.source = []) (hdue : s.bytesRem ≠ 0) :
    (∃ t, readHeader s = .waiting t) ↔ s.stepBits.length ≤ 8 := by
  by_cases hnone : s.stepBits = []
  · simp [readHeader, nextHeaderByte_waits hs hdue hnone, Read.bind, hnone]
  obtain ⟨m, hfirst⟩ := nextHeaderByte_remembered hnone
  rw [← List.drop_eq_nil_iff, readHeader, hfirst, Read.bind_got]
  by_cases hone : s.stepBits.drop 8 = []
  · have hsecond := nextHeaderByte_waits (s := { s with stepBits := s.stepBits.drop 8 }) hs hdue hone
    rw [hsecond]
    exact iff_of_true ⟨_, rfl⟩ hone
  · obtain ⟨c, hsecond⟩ := nextHeaderByte_remembered (s := { s with stepBits := s.stepBits.drop 8 }) hone
    simp [hsecond, Read.bind, Read.rememberByte, hone]

/-! ## `src_ready` -/

theorem srcReady_eq_true_iff (s : State) : srcReady s = true ↔
    s.input.rst = false ∧ s.outHold = none ∧
      ∃ ctx, s.activity = .fetch ctx ∧ ∃ t, fetchInstr ctx s.unanswered = .waiting t := by
  have hneeds : needsSource s = true ↔ ∃ ctx, s.activity = .fetch ctx ∧ ∃ t, fetchInstr ctx s.unanswered = .waiting t := by
    unfold needsSource
    cases ha : s.activity with
    | waitForStart => simp
    | repeatTerminal => simp
    | continueCopy => simp
    | fetch ctx => cases hr : fetchInstr ctx s.unanswered <;> simp [hr]
  simp [srcReady, hneeds, and_assoc]

/-- Where the decoder fetches, `src_ready` is whether the fetch would wait. -/
theorem srcReady_fetch_iff {s : State} {ctx : Context} (hrst : s.input.rst = false) (ho : s.outHold = none)
    (ha : s.activity = .fetch ctx) : srcReady s = true ↔ ∃ t, fetchInstr ctx s.unanswered = .waiting t := by
  simp [srcReady_eq_true_iff, hrst, ho, ha]

/-- Where the decoder fetches nothing, the source is not asked. -/
theorem srcReady_of_not_fetch {s : State} (h : ∀ ctx, s.activity ≠ .fetch ctx) : srcReady s = false := by
  rw [Bool.eq_false_iff, ne_eq, srcReady_eq_true_iff]
  rintro ⟨-, -, ctx, ha, -⟩
  exact h ctx ha

/-- With `bytes_rem` at 0 the source is not asked: the declared length is tested first (R142). -/
theorem srcReady_of_bytesRem_zero {s : State} (h : s.bytesRem = 0) : srcReady s = false := by
  rw [Bool.eq_false_iff, ne_eq, srcReady_eq_true_iff]
  rintro ⟨-, -, ctx, -, t, ht⟩
  obtain ⟨-, htaken, -, hdue⟩ := fetchInstr_waiting ctx _ t ht
  obtain ⟨-, hrem⟩ := htaken.bytesRem_of_source_nil rfl
  exact hdue (hrem.trans h)

theorem srcReady_init_iff {s : State} (hrst : s.input.rst = false) (ho : s.outHold = none) (hdue : s.bytesRem ≠ 0)
    (hs : s.state = .init) : srcReady s = true ↔ 2 < s.chunkLen.toNat ∧ s.stepBits.length ≤ 8 := by
  have ha : s.activity = .fetch .header := by rw [State.activity, hs]
  rw [srcReady_fetch_iff hrst ho ha, ← readHeader_waits_iff (s := s.unanswered) rfl hdue]
  by_cases hlen : s.chunkLen.toNat ≤ 2
  · simp [fetchInstr, hlen]
  · cases hr : readHeader s.unanswered <;> simp [fetchInstr, hlen, hr, Read.bind, Nat.lt_of_not_le hlen]

theorem upcomingBits_unanswered {s : State} (hbc : s.bcErrored = false) :
    s.unanswered.upcomingBits = s.stepBits ++ (bitsOf 8 s.curByte.toNat).drop s.bitOff.val := by
  simp [State.upcomingBits, State.cursorBits, hbc, presentedBytes]

theorem srcReady_walk_iff {s : State} {ctx : Context} (hrst : s.input.rst = false) (ho : s.outHold = none)
    (hdue : s.bytesRem ≠ 0) (ha : s.activity = .fetch ctx) (hctx : ctx ≠ .header) :
    srcReady s = true ↔ s.bcErrored = false ∧
      decodeBits ctx s.dictBits (s.stepBits ++ (bitsOf 8 s.curByte.toNat).drop s.bitOff.val) = .error .bitsExhausted := by
  rw [srcReady_fetch_iff hrst ho ha, fetchInstr_of_ne_header ctx _ hctx, runWalk_waits_iff (s := s.unanswered) _ rfl hdue]
  refine and_congr_right fun hbc => ?_
  rw [upcomingBits_unanswered hbc, decodeBits]

/-- Settles O57: `src_ready` is whether the fetch would wait before a source that presents nothing, and a header's reads and a
walk's wait there exactly when the bits already read do not suffice. -/
theorem sourceRequestedExactlyWhenNeeded : Obligations.SourceRequestedExactlyWhenNeeded := by
  intro s
  refine ⟨?_, fun hrst ho hdue => ⟨srcReady_init_iff hrst ho hdue, fun ctx => srcReady_walk_iff hrst ho hdue⟩⟩
  rintro (hrst | hs | hs | hs | hrem | ho | ha)
  · simp [srcReady, hrst]
  · exact srcReady_of_not_fetch (by simp [State.activity, hs])
  · exact srcReady_of_not_fetch (by simp [State.activity, hs])
  · exact srcReady_of_not_fetch (by simp [State.activity, hs])
  · exact srcReady_of_bytesRem_zero hrem
  · simp [srcReady, Option.isSome_iff_ne_none.mpr ho]
  · exact srcReady_of_not_fetch (by simp [ha])

/-! ## A held beat, `IDLE`, reset -/

/-- In `IDLE` a step takes the host's input and hands over a held beat (R214). -/
theorem step_idle {s : State} (hrst : s.input.rst = false) (hstart : s.input.start = none) (hs : s.state = .idle) :
    step s = .next s.ready := by
  rw [step_block s hrst hstart]
  rcases blockStep_cases s.ready with ⟨-, hheld⟩ | ⟨-, hrun⟩
  · exact hheld
  · exact hrun.trans (decoderStep_idle s.ready (by simpa using hs))

/-- Settles O55: a beat still held after the host's input stops the block, and the decoder has no step in `IDLE`. -/
theorem heldBeatAndIdleWait : Obligations.HeldBeatAndIdleWait := by
  intro s hrst hstart
  refine ⟨fun hheld hnot => ?_, step_idle hrst hstart⟩
  have hready : s.ready = takeInput s := by rw [State.ready, hnot]; rfl
  rw [step_block s hrst hstart, hready]
  rcases blockStep_cases (takeInput s) with ⟨-, hstep⟩ | ⟨hnone, -⟩
  · exact hstep
  · exact absurd hnone hheld

/-- Settles O40: the step is `applyReset`, which leaves `IDLE` with no beat; there the next step hands nothing over. -/
theorem resetFromAnyState : Obligations.ResetFromAnyState := by
  intro s hrst
  have hidle : ∀ ctx, (applyReset (takeInput s)).activity ≠ .fetch ctx := by simp [State.activity]
  refine ⟨applyReset (takeInput s), step_reset s hrst, rfl, rfl, rfl, rfl, rfl, rfl, rfl, rfl, rfl, rfl, rfl, rfl, rfl, rfl,
    fun _ => rfl, by simp [outValid, hrst], by simp [srcReady, hrst], by simp [outValid], srcReady_of_not_fetch hidle,
    fun hquiet hstart => ?_⟩
  rw [step_idle hquiet hstart rfl, State.ready]
  cases (applyReset (takeInput s)).input.outReady <;> rfl

end Sys2Proof.Machine
end

section
/-! SUPPORT. What `Start` forgets (spec/44_host_interface.md R262, spec/70_reset_and_hazards.md R312): two states that agree on
everything that still counts take the same step, and `Start` on one dictionary makes any two states agree. -/

namespace Sys2Proof.Machine

/-! ## Agreement -/

/-- `s` and `s'` agree on everything that can still reach what the host sees. Left out are the registers that no step reads for
another (`dict_mode`, `dict_size_code`, `mode`), the table results, which are written before they are read, `cur_byte` while
none of its bits is left, and the header's `dict_bits` and `first` outside the states in which a valid header has written them. -/
structure Alike (s s' : State) : Prop where
  state : s'.state = s.state
  errCode : s'.errCode = s.errCode
  chunkLen : s'.chunkLen = s.chunkLen
  bitOff : s'.bitOff = s.bitOff
  bytesRem : s'.bytesRem = s.bytesRem
  bcErrored : s'.bcErrored = s.bcErrored
  dict : s'.dict = s.dict
  copyRem : s'.copyRem = s.copyRem
  copyOff : s'.copyOff = s.copyOff
  outHold : s'.outHold = s.outHold
  out : s'.out = s.out
  stepBits : s'.stepBits = s.stepBits
  lookupReq : s'.lookupReq = s.lookupReq
  source : s'.source = s.source
  host : s'.host = s.host
  curByte : s.bitOff ≠ 8 → s'.curByte = s.curByte
  dictBits : s.state = .headerRead ∨ s.state = .decoding → s'.dictBits = s.dictBits
  first : s.state = .headerRead ∨ s.state = .decoding → s'.first = s.first

/-- Two reads that end alike: with the same value or the same error, in states that agree. -/
inductive Read.Alike {α : Type} : Read α → Read α → Prop
  | got {a : α} {t t' : State} (h : Machine.Alike t t') : Read.Alike (.got a t) (.got a t')
  | raised {e : ErrCode} {t t' : State} (h : Machine.Alike t t') : Read.Alike (.raised e t) (.raised e t')
  | waiting {t t' : State} (h : Machine.Alike t t') : Read.Alike (.waiting t) (.waiting t')

/-- Two steps that end alike: in states that agree, or in the same fault. -/
inductive SameOutcome : Outcome → Outcome → Prop
  | next {t t' : State} (h : Alike t t') : SameOutcome (.next t) (.next t')
  | fault (f : Fault) : SameOutcome (.fault f) (.fault f)

/-! ## Reads -/

theorem Read.Alike.bind {α β : Type} {r r' : Read α} {f f' : α → State → Read β} (h : r.Alike r')
    (hf : ∀ a t t', r = .got a t → Machine.Alike t t' → (f a t).Alike (f' a t')) : (r.bind f).Alike (r'.bind f') := by
  cases h with
  | got h => exact hf _ _ _ rfl h
  | raised h => exact .raised h
  | waiting h => exact .waiting h

theorem Read.Alike.remember {α : Type} {r r' : Read α} (h : r.Alike r') (b : Bool) : (r.remember b).Alike (r'.remember b) := by
  cases h with
  | got h => exact .got h
  | raised h => exact .raised h
  | waiting h => exact .waiting { h with stepBits := congrArg (b :: ·) h.stepBits }

theorem Read.Alike.rememberByte {α : Type} {r r' : Read α} (h : r.Alike r') (v : Byte) :
    (r.rememberByte v).Alike (r'.rememberByte v) := by
  cases h with
  | got h => exact .got h
  | raised h => exact .raised h
  | waiting h => exact .waiting { h with stepBits := congrArg (bitsOf 8 v.toNat ++ ·) h.stepBits }

theorem Alike.fetchByte {s s' : State} (h : Alike s s') : (fetchByte s).Alike (fetchByte s') := by
  unfold Machine.fetchByte
  rw [h.bytesRem, h.source]
  split
  · exact .raised { h with bcErrored := rfl, bytesRem := rfl, source := rfl }
  split
  · exact .waiting h
  split
  · exact .got { h with curByte := fun _ => rfl, bitOff := rfl, bytesRem := rfl, source := rfl }
  · exact .raised { h with bcErrored := rfl, bytesRem := rfl, source := rfl }
  · exact .raised { h with bcErrored := rfl, bytesRem := rfl, source := rfl }

theorem Alike.takeBit {s s' : State} (h : Alike s s') (hoff : s.bitOff ≠ 8) : (takeBit s).Alike (takeBit s') := by
  unfold Machine.takeBit
  rw [h.curByte hoff, h.bitOff]
  exact .got { h with bitOff := rfl, curByte := fun _ => rfl }

/-- A byte fetched leaves bits in `cur_byte` (R142). -/
theorem fetchByte_got_bitOff_ne {s t : State} {u : Unit} (h : fetchByte s = .got u t) : t.bitOff ≠ 8 := by
  rw [(fetchByte_got_cursor h).1]
  decide

theorem Alike.readBit {s s' : State} (h : Alike s s') : (readBit s).Alike (readBit s') := by
  unfold Machine.readBit
  rw [h.bcErrored, h.errCode, h.bitOff]
  split
  · exact .raised h
  split
  · exact h.fetchByte.bind fun _ t t' hgot ht => ht.takeBit (fetchByte_got_bitOff_ne hgot)
  · next hoff => exact h.takeBit hoff

theorem Alike.nextBit {s s' : State} (h : Alike s s') : (nextBit s).Alike (nextBit s') := by
  unfold Machine.nextBit
  rw [h.stepBits]
  split
  · exact .got { h with stepBits := rfl }
  · exact h.readBit

theorem Alike.runWalk {α : Type} (w : Walk α) {s s' : State} (h : Alike s s') : (runWalk w s).Alike (runWalk w s') := by
  induction w generalizing s s' with
  | done a => exact .got h
  | ask g ih =>
    have hnext := h.nextBit
    simp only [Machine.runWalk]
    generalize Machine.nextBit s = r, Machine.nextBit s' = r' at hnext ⊢
    cases hnext with
    | got ht => exact (ih _ ht).remember _
    | raised ht => exact .raised ht
    | waiting ht => exact .waiting ht

theorem Alike.readHeaderByte {s s' : State} (h : Alike s s') : (readHeaderByte s).Alike (readHeaderByte s') := by
  refine h.fetchByte.bind fun _ t t' hgot ht => ?_
  rw [ht.curByte (fetchByte_got_bitOff_ne hgot)]
  exact .got { ht with bitOff := rfl, curByte := absurd rfl }

theorem Alike.nextHeaderByte {s s' : State} (h : Alike s s') : (nextHeaderByte s).Alike (nextHeaderByte s') := by
  unfold Machine.nextHeaderByte
  rw [h.stepBits]
  split
  · exact h.readHeaderByte
  · exact .got { h with stepBits := rfl }

theorem Alike.readHeader {s s' : State} (h : Alike s s') : (readHeader s).Alike (readHeader s') := by
  refine h.nextHeaderByte.bind fun m t t' _ ht => Read.Alike.rememberByte ?_ m
  exact ht.nextHeaderByte.bind fun c u u' _ hu => .got hu

/-! ## Beats, errors, the dictionary -/

theorem Alike.clearStepBits {s s' : State} (h : Alike s s') : Alike { s with stepBits := [] } { s' with stepBits := [] } :=
  { h with stepBits := rfl }

theorem Alike.emit {s s' : State} (h : Alike s s') (b : Beat) : Alike (emit b s) (emit b s') := by
  cases b with
  | byte v => exact { h with outHold := rfl, out := congrArg (· ++ [v]) h.out }
  | eos => exact { h with outHold := rfl }
  | err c => exact { h with outHold := rfl }

theorem Alike.raise {s s' : State} (h : Alike s s') (e : ErrCode) : SameOutcome (raise e s) (raise e s') :=
  .next { h with errCode := rfl, state := rfl, outHold := rfl, dictBits := nofun, first := nofun }

/-- Reads that end alike, and then steps that go on alike. -/
theorem Read.Alike.settle {α : Type} {r r' : Read α} {go go' : α → State → Outcome} (h : r.Alike r')
    (hgo : ∀ a t t', r = .got a t → Machine.Alike t t' →
      SameOutcome (go a { t with stepBits := [] }) (go' a { t' with stepBits := [] })) :
    SameOutcome (settle r go) (Machine.settle r' go') := by
  cases h with
  | got h => exact hgo _ _ _ rfl h
  | raised h => exact h.clearStepBits.raise _
  | waiting h => exact .next h

theorem Alike.putIndex {s s' : State} (h : Alike s s') (hs : s.state = .decoding) : putIndex s' = putIndex s := by
  rw [Machine.putIndex, h.first (.inr hs), h.dictBits (.inr hs)]
  rfl

theorem Alike.getIndex {s s' : State} (h : Alike s s') (hs : s.state = .decoding) (off : BitVec 12) :
    getIndex s' off = getIndex s off := by
  rw [Machine.getIndex, h.first (.inr hs), h.dictBits (.inr hs)]
  rfl

theorem Alike.putEmit {s s' : State} (h : Alike s s') (hs : s.state = .decoding) (b : Byte) :
    SameOutcome (putEmit b s) (putEmit b s') := by
  unfold Machine.putEmit put
  rw [h.putIndex hs]
  by_cases hram : Machine.putIndex s < Config.ramSize
  · simp only [if_pos hram]
    have hput : Alike { s with first := BitVec.ofNat 12 (Machine.putIndex s), dict := s.dict.store (Machine.putIndex s) b }
        { s' with first := BitVec.ofNat 12 (Machine.putIndex s), dict := s'.dict.store (Machine.putIndex s) b } :=
      { h with first := fun _ => rfl, dict := congrArg (Memory.store · (Machine.putIndex s) b) h.dict }
    exact .next (hput.emit (.byte b))
  · simp only [if_neg hram]
    exact .fault _

/-- `get(off)` and its beat: the put of the byte loaded, or the fault of an address outside the RAM. -/
theorem getEmit_eq_ite (off : BitVec 12) (s : State) : getEmit off s =
    if getIndex s off < Config.ramSize then putEmit (s.slot (getIndex s off)) s
    else .fault (.dictAddress (getIndex s off)) := by
  split
  · next hram => exact getEmit_eq off s hram
  · next hram => rw [getEmit, get, if_neg hram]

theorem Alike.getEmit {s s' : State} (h : Alike s s') (hs : s.state = .decoding) (off : BitVec 12) :
    SameOutcome (getEmit off s) (getEmit off s') := by
  rw [getEmit_eq_ite, getEmit_eq_ite, h.getIndex hs, slot_congr h.dict]
  split
  · exact h.putEmit hs _
  · exact .fault _

/-! ## Meanings -/

theorem runWalk_got_state {α : Type} {w : Walk α} {s t : State} {a : α} (h : runWalk w s = .got a t) : t.state = s.state := by
  obtain ⟨hmoved, -⟩ := runWalk_got w s t a h
  rw [hmoved]

theorem Alike.setCopy {s s' : State} (h : Alike s s') (off : BitVec 12) {n n' : BitVec 10} (hn : n' = n) (m m' : Mode) :
    Alike { s with copyOff := off, copyRem := n, mode := m } { s' with copyOff := off, copyRem := n', mode := m' } :=
  { h with copyOff := rfl, copyRem := hn }

theorem Alike.copyContinue {s s' : State} (h : Alike s s') (hs : s.state = .decoding) :
    SameOutcome (copyContinue s) (copyContinue s') := by
  unfold Machine.copyContinue
  rw [h.copyOff]
  exact (h.setCopy s.copyOff (congrArg (· - 1) h.copyRem) _ _).getEmit hs s.copyOff

theorem Alike.execLit {s s' : State} (h : Alike s s') (hs : s.state = .decoding) (b : Byte) :
    SameOutcome (execLit b s) (execLit b s') :=
  (h.runWalk _).settle fun _ _ _ hgot ht => ht.clearStepBits.putEmit ((runWalk_got_state hgot).trans hs) b

/-- `COPY` is the read of its bits and what follows it (R95, R221). -/
theorem execCopy_eq (len : BitVec 10) (off : BitVec 12) (s : State) : execCopy len off s =
    settle (readBits (copyFieldBits s.dictBits len.toNat off.toNat) s) fun _ t => copyAfterFields s.dictBits len off t := by
  unfold execCopy readCopyFields copyAfterFields
  cases readBits (copyFieldBits s.dictBits len.toNat off.toNat) s <;> rfl

/-- Once the results of a `COPY`'s walks agree, so do the offset and the first copied byte (R167, R221). -/
theorem Alike.copyStart {s s' : State} (h : Alike s s') (hs : s.state = .decoding) (hlen : s'.lenVal = s.lenVal)
    (hhigh : s'.highVal = s.highVal) (len off : Nat) :
    SameOutcome (copyStart (copyOffset len off s) s) (copyStart (copyOffset len off s') s') := by
  have hoff : copyOffset len off s' = copyOffset len off s := by
    rw [copyOffset, copyOffset, hhigh, h.dictBits (.inr hs)]
  rw [hoff]
  exact (h.setCopy (copyOffset len off s) (congrArg (· - 1) hlen) .copying .copying).getEmit hs _

theorem Alike.copyAfterFields {s s' : State} (h : Alike s s') (hs : s.state = .decoding) (db : BitVec 3) (len : BitVec 10)
    (off : BitVec 12) : SameOutcome (copyAfterFields db len off s) (copyAfterFields db len off s') := by
  have hfound (l : BitVec 10) (v : BitVec 6) :
      Alike { s with lenVal := l, highVal := v } { s' with lenVal := l, highVal := v } := { h with }
  exact (hfound (BitVec.ofNat 10 len.toNat) (BitVec.ofNat 6 (off.toNat >>> lowBits db len.toNat))).copyStart hs rfl rfl
    len.toNat off.toNat

theorem Alike.execCopy {s s' : State} (h : Alike s s') (hs : s.state = .decoding) (len : BitVec 10) (off : BitVec 12) :
    SameOutcome (execCopy len off s) (execCopy len off s') := by
  rw [execCopy_eq, execCopy_eq, h.dictBits (.inr hs)]
  exact (h.runWalk _).settle fun _ _ _ hgot ht =>
    ht.clearStepBits.copyAfterFields ((runWalk_got_state hgot).trans hs) _ len off

theorem Alike.lookupLength {s s' : State} (h : Alike s s') (n len : Nat) :
    (lookupLength n len s).Alike (lookupLength n len s') :=
  (h.runWalk _).bind fun _ _ _ _ ht => .got { ht with }

theorem Alike.lookupOffsetHigh {s s' : State} (h : Alike s s') (n high : Nat) :
    (lookupOffsetHigh n high s).Alike (lookupOffsetHigh n high s') :=
  (h.runWalk _).bind fun _ _ _ _ ht => .got { ht with }

theorem Alike.execEos {s s' : State} (h : Alike s s') : SameOutcome (execEos s) (execEos s') :=
  (h.lookupLength 16 519).settle fun _ _ _ _ ht => .next
    { ht.clearStepBits with state := rfl, outHold := rfl, dictBits := nofun, first := nofun }

theorem Alike.runLength {s s' : State} (h : Alike s s') (n len : Nat) :
    SameOutcome (runLength n len s) (runLength n len s') :=
  (h.lookupLength n len).settle fun _ _ _ _ ht => .next { ht.clearStepBits with lookupReq := rfl }

theorem Alike.runOffsetHigh {s s' : State} (h : Alike s s') (n high : Nat) :
    SameOutcome (runOffsetHigh n high s) (runOffsetHigh n high s') :=
  (h.lookupOffsetHigh n high).settle fun _ _ _ _ ht => .next { ht.clearStepBits with lookupReq := rfl }

theorem Alike.runToken {s s' : State} (h : Alike s s') (hs : s.state = .decoding) (tok : Token) :
    SameOutcome (runToken tok s) (runToken tok s') := by
  cases tok with
  | lit b => exact h.execLit hs b
  | copy len off => exact h.execCopy hs len off
  | eos => exact h.execEos

theorem Alike.exec {s s' : State} (h : Alike s s') (hs : s.state = .decoding) {i : Instr} (hctx : i.context ≠ .header) :
    SameOutcome (exec i s) (exec i s') := by
  cases hi : i.context with
  | header => exact absurd hi hctx
  | token =>
    obtain ⟨tok, rfl⟩ := eq_toInstr_of_context_token i hi
    rw [exec_toInstr, exec_toInstr]
    exact h.runToken hs tok
  | length =>
    obtain ⟨len, hexec⟩ := exec_length_row i hi
    rw [hexec s.dictBits, hexec s.dictBits]
    exact h.runLength _ len
  | offsetHigh =>
    obtain ⟨high, hexec⟩ := exec_offsetHigh_row i hi
    rw [hexec s.dictBits, hexec s.dictBits]
    exact h.runOffsetHigh _ high

theorem Alike.decodeStep {s s' : State} (h : Alike s s') (hs : s.state = .decoding) :
    SameOutcome (decodeStep s) (decodeStep s') := by
  unfold Machine.decodeStep
  rw [h.copyRem, h.dictBits (.inr hs)]
  split
  · exact (h.runWalk _).settle fun tok _ _ _ _ => h.runToken hs tok
  · exact h.copyContinue hs

/-- A valid header writes `dict_bits` and `first`, and the checks read no register (R212, R213). -/
theorem Alike.headerChecks {s s' : State} (h : Alike s s') (m c : Byte) :
    SameOutcome (headerChecks m c s) (headerChecks m c s') := by
  have hrecorded : Alike { s with dictMode := m, dictSizeCode := c } { s' with dictMode := m, dictSizeCode := c } := { h with }
  unfold Machine.headerChecks
  split
  · exact hrecorded.raise _
  split
  · exact Alike.decodeStep { hrecorded with state := rfl, dictBits := fun _ => rfl, first := fun _ => rfl } rfl
  · exact hrecorded.raise _

/-! ## The decoder's step -/

theorem Alike.decoderStep_init {s s' : State} (h : Alike s s') (hs : s.state = .init) :
    SameOutcome (decoderStep s) (decoderStep s') := by
  rw [Machine.decoderStep_init s hs, Machine.decoderStep_init s' (h.state.trans hs)]
  by_cases hlen : s.chunkLen.toNat ≤ 2
  · rw [if_pos hlen, if_pos (h.chunkLen ▸ hlen)]
    exact h.clearStepBits.raise _
  · rw [if_neg hlen, if_neg (h.chunkLen ▸ hlen)]
    exact h.readHeader.settle fun mc _ _ _ ht => ht.clearStepBits.headerChecks mc.1 mc.2

theorem Alike.activity {s s' : State} (h : Alike s s') : s'.activity = s.activity := by
  simp only [State.activity, decodingActivity, h.state, h.lookupReq, h.copyRem]

theorem decoderStep_continueCopy {s : State} (hs : s.state = .decoding) (ha : s.activity = .continueCopy) :
    decoderStep s = copyContinue s := by
  rw [decoderStep, ha]
  exact congrArg copyContinue (leaveHeaderRead_eq s (by rw [hs]; decide))

theorem Alike.decoderStep_decoding {s s' : State} (h : Alike s s') (hs : s.state = .decoding) :
    SameOutcome (decoderStep s) (decoderStep s') := by
  have hs' : s'.state = .decoding := h.state.trans hs
  rcases activity_decoding s hs with ⟨ctx, hctx, ha⟩ | ⟨-, ha⟩
  · rw [Machine.decoderStep_decoding hs ha hctx, Machine.decoderStep_decoding hs' (h.activity.trans ha) hctx,
      h.dictBits (.inr hs)]
    refine (h.runWalk _).settle fun i t _ hgot _ => h.exec hs ?_
    obtain ⟨-, -, -, hruns, -⟩ := runWalk_got _ s t i hgot
    exact context_of_decodeWalk hruns ▸ hctx
  · rw [decoderStep_continueCopy hs ha, decoderStep_continueCopy hs' (h.activity.trans ha)]
    exact h.copyContinue hs

theorem Alike.decoderStep {s s' : State} (h : Alike s s') : SameOutcome (decoderStep s) (decoderStep s') := by
  cases hs : s.state with
  | idle =>
    rw [decoderStep_idle s hs, decoderStep_idle s' (h.state.trans hs)]
    exact .next h
  | init => exact h.decoderStep_init hs
  | headerRead =>
    have hdecoding : Alike { s with state := .decoding } { s' with state := .decoding } :=
      { h with state := rfl, dictBits := fun _ => h.dictBits (.inl hs), first := fun _ => h.first (.inl hs) }
    rw [decoderStep_headerRead hs, decoderStep_headerRead (h.state.trans hs)]
    exact hdecoding.decoderStep_decoding rfl
  | decoding => exact h.decoderStep_decoding hs
  | finished =>
    rw [decoderStep_finished hs, decoderStep_finished (h.state.trans hs)]
    exact .next (h.emit _)
  | errored =>
    rw [decoderStep_errored hs, decoderStep_errored (h.state.trans hs), h.errCode]
    exact .next (h.emit _)

/-! ## Every step, every run -/

/-- `Start` leaves nothing different but what the header writes before a step reads it (R41, R262). -/
theorem applyStart_alike (len : Len) {s s' : State} (hdict : s'.dict = s.dict) (hsource : s'.source = s.source)
    (hhost : s'.host = s.host) : Alike (applyStart len s) (applyStart len s') where
  state := rfl
  errCode := rfl
  chunkLen := rfl
  bitOff := rfl
  bytesRem := rfl
  bcErrored := rfl
  dict := hdict
  copyRem := rfl
  copyOff := rfl
  outHold := rfl
  out := rfl
  stepBits := rfl
  lookupReq := rfl
  source := hsource
  host := hhost
  curByte := absurd rfl
  dictBits := nofun
  first := nofun

theorem applyReset_alike {s s' : State} (hdict : s'.dict = s.dict) (hsource : s'.source = s.source)
    (hhost : s'.host = s.host) : Alike (applyReset s) (applyReset s') :=
  { applyStart_alike 0 hdict hsource hhost with
    state := rfl, curByte := absurd rfl, dictBits := nofun, first := nofun }

theorem Alike.input {s s' : State} (h : Alike s s') : s'.input = s.input := by
  rw [State.input, h.host, State.input]

theorem Alike.takeInput {s s' : State} (h : Alike s s') : Alike (takeInput s) (takeInput s') := by
  refine { h with source := ?_, host := congrArg List.tail h.host }
  rw [takeInput_source, takeInput_source, h.input, h.source]

theorem Alike.handOver {s s' : State} (h : Alike s s') (r : Bool) : Alike (handOver r s) (handOver r s') := by
  cases r with
  | true => exact { h with outHold := rfl }
  | false => exact h

theorem Alike.blockStep {s s' : State} (h : Alike s s') : SameOutcome (blockStep s) (blockStep s') := by
  unfold Machine.blockStep
  rw [h.outHold]
  split
  · exact .next h
  · exact h.decoderStep

theorem Alike.step {s s' : State} (h : Alike s s') : SameOutcome (step s) (step s') := by
  have htaken := h.takeInput
  unfold Machine.step edge
  rw [h.input]
  split
  · exact .next (applyReset_alike htaken.dict htaken.source htaken.host)
  split
  · exact .next (applyStart_alike _ htaken.dict htaken.source htaken.host)
  · exact (htaken.handOver _).blockStep

/-- States that agree run alike; induction on the number of steps. -/
theorem Alike.run (n : Nat) {s s' t : State} (h : Alike s s') (hrun : Host.Core.run core n s = .next t) :
    ∃ t', Host.Core.run core n s' = .next t' ∧ Alike t t' := by
  induction n generalizing s s' with
  | zero =>
    obtain rfl := Host.Outcome.next.inj hrun
    exact ⟨s', rfl, h⟩
  | succ n ih =>
    have hstep : SameOutcome (core.step s) (core.step s') := h.step
    simp only [Host.Core.run] at hrun ⊢
    generalize core.step s = r, core.step s' = r' at hstep hrun ⊢
    cases hstep with
    | next hnext => exact ih hnext hrun
    | fault f => cases hrun

/-- Settles O59: `Start` on the same dictionary, source and host makes the two states agree, and each step keeps that. -/
theorem startForgetsTheRegisters : Obligations.StartForgetsTheRegisters := by
  intro n len s s' t hdict hsource hhost hrun
  obtain ⟨t', hrun', h⟩ := (applyStart_alike len hdict.symm hsource.symm hhost.symm).run n hrun
  exact ⟨t', hrun', h.state, h.errCode, h.outHold, h.out, h.dict, h.source⟩

end Sys2Proof.Machine
end

section
/-! SUPPORT. No step stops (spec/60_exceptions.md R283, R295; spec/20_memory.md R64): the one fault is an address outside the
dictionary RAM, and wherever a step loads or puts, the header's size code is legal. -/

namespace Sys2Proof.Machine

/-- Settles O49: the beat of a raise is no byte, so `emit` writes `out_hold` alone. -/
theorem raiseRule : Obligations.RaiseRule :=
  fun _ _ => rfl

/-! ## Reads -/

/-- A raise and a wait answer a next state, so a step stops only where what follows its reads does. -/
theorem exists_settle_next {α : Type} {r : Read α} {go : α → State → Outcome}
    (h : ∀ a u, r = .got a u → ∃ t, go a { u with stepBits := [] } = .next t) : ∃ t, settle r go = .next t := by
  cases r with
  | got a u => exact h a u rfl
  | raised e u => exact ⟨_, rfl⟩
  | waiting u => exact ⟨u, rfl⟩

theorem runWalk_got_dictBits {α : Type} {w : Walk α} {s t : State} {a : α} (h : runWalk w s = .got a t) :
    t.dictBits = s.dictBits := by
  obtain ⟨hmoved, -⟩ := runWalk_got w s t a h
  rw [hmoved]

/-! ## Meanings under a legal size code -/

theorem exists_execLit_next (b : Byte) {s : State} (h : legalSizeCode s.dictBits.toNat = true) :
    ∃ t, execLit b s = .next t :=
  exists_settle_next fun _ u hgot =>
    putEmit_of_legal b (s := { u with stepBits := [] }) (runWalk_got_dictBits hgot ▸ h)

theorem exists_copyStart_next (off : BitVec 12) {s : State} (h : legalSizeCode s.dictBits.toNat = true) :
    ∃ t, copyStart off s = .next t :=
  copyStart_of_legal off h ▸ putEmit_of_legal _ h

theorem exists_execCopy_next (len : BitVec 10) (off : BitVec 12) {s : State} (h : legalSizeCode s.dictBits.toNat = true) :
    ∃ t, execCopy len off s = .next t := by
  rw [execCopy_eq]
  exact exists_settle_next fun _ u hgot => exists_copyStart_next _ (runWalk_got_dictBits hgot ▸ h)

theorem exists_execEos_next (s : State) : ∃ t, execEos s = .next t :=
  exists_settle_next fun _ _ _ => ⟨_, rfl⟩

theorem exists_runToken_next (tok : Token) {s : State} (h : legalSizeCode s.dictBits.toNat = true) :
    ∃ t, runToken tok s = .next t := by
  cases tok with
  | lit b => exact exists_execLit_next b h
  | copy len off => exact exists_execCopy_next len off h
  | eos => exact exists_execEos_next s

/-- Outside the header a meaning is a token's or a table row's, and a table row touches no slot. -/
theorem exists_exec_next {i : Instr} {s : State} (hctx : i.context ≠ .header)
    (h : legalSizeCode s.dictBits.toNat = true) : ∃ t, exec i s = .next t := by
  cases hi : i.context with
  | header => exact absurd hi hctx
  | token =>
    obtain ⟨tok, rfl⟩ := eq_toInstr_of_context_token i hi
    rw [exec_toInstr]
    exact exists_runToken_next tok h
  | length =>
    obtain ⟨len, hexec⟩ := exec_length_row i hi
    rw [hexec s.dictBits]
    exact exists_settle_next fun _ _ _ => ⟨_, rfl⟩
  | offsetHigh =>
    obtain ⟨high, hexec⟩ := exec_offsetHigh_row i hi
    rw [hexec s.dictBits]
    exact exists_settle_next fun _ _ _ => ⟨_, rfl⟩

/-! ## The decoder's step -/

theorem exists_decoderStep_decoding_next {s : State} (hs : s.state = .decoding)
    (h : legalSizeCode s.dictBits.toNat = true) : ∃ t, decoderStep s = .next t := by
  rcases activity_decoding s hs with ⟨ctx, hctx, ha⟩ | ⟨-, ha⟩
  · rw [decoderStep_decoding hs ha hctx]
    refine exists_settle_next fun i u hgot => exists_exec_next ?_ h
    obtain ⟨hcontext, -⟩ := readBits_of_decodeWalk_got hctx h hgot
    exact hcontext ▸ hctx
  · rw [decoderStep_continueCopy hs ha]
    exact copyContinue_of_ne_seven (dictBits_ne_seven h)

/-- A header that passes the checks has a legal size code, and its first token's step is one of `DECODING` (R213, R217). -/
theorem exists_headerChecks_next (m c : Byte) {u : State} (hl : u.lookupReq = none) :
    ∃ t, headerChecks m c { u with stepBits := [] } = .next t := by
  rcases headerChecks_cases m c u with ⟨t, ht, -⟩ | ⟨hc, hstep⟩
  · exact ⟨t, ht⟩
  · rw [hstep, ← decoderStep_eq_decodeStep (u.afterHeader c) rfl hl]
    exact exists_decoderStep_decoding_next rfl (legalSizeCode_setWidth c hc)

theorem FreshInv.exists_decoderStep_next {s : State} (h : FreshInv s) (hs : s.state = .init) :
    ∃ t, Machine.decoderStep s = .next t := by
  by_cases hlen : s.chunkLen.toNat ≤ 2
  · exact ⟨_, (decoderStep_init s hs).trans (if_pos hlen)⟩
  · rw [decoderStep_init_of_long hs (Nat.lt_of_not_le hlen)]
    exact exists_settle_next fun mc _ hgot => exists_headerChecks_next mc.1 mc.2 (h.readHeader hgot).lookupReq

theorem State.Inv.exists_decoderStep_next {s : State} (h : s.Inv) (ho : s.outHold = none) :
    ∃ t, Machine.decoderStep s = .next t := by
  cases hs : s.state with
  | idle => exact ⟨s, decoderStep_idle s hs⟩
  | init => exact (h.fresh hs ho).exists_decoderStep_next hs
  | headerRead =>
    obtain ⟨-, -, -, -, -, -, -, hne, -⟩ := h
    exact absurd hs hne
  | decoding => exact exists_decoderStep_decoding_next hs (h.decoding hs).legal
  | finished => exact ⟨_, decoderStep_finished hs⟩
  | errored => exact ⟨_, decoderStep_errored hs⟩

theorem State.Inv.exists_blockStep_next {s : State} (h : s.Inv) : ∃ t, Machine.blockStep s = .next t := by
  rcases blockStep_cases s with ⟨-, hheld⟩ | ⟨ho, hstep⟩
  · exact ⟨s, hheld⟩
  · rw [hstep]
    exact h.exists_decoderStep_next ho

/-- Settles O43: reset and `Start` answer; otherwise the block steps from a state that still has the invariant. -/
theorem stepNeverStops : Obligations.StepNeverStops := by
  intro s h
  rcases step_cases s with ⟨-, hstep⟩ | ⟨len, -, -, hstep⟩ | ⟨-, -, hstep⟩
  · exact ⟨_, hstep⟩
  · exact ⟨_, hstep⟩
  · rw [hstep]
    exact h.ready.exists_blockStep_next

end Sys2Proof.Machine
end

section
/-! SUPPORT. No read-ahead (spec/70_reset_and_hazards.md R320, spec/41_code_tables.md R169): with any other answers behind those
taken, a read that ends goes as it did, and so does a step that ends with a beat. -/

namespace Sys2Proof.Machine

/-! ## Ending alike whatever answers follow -/

/-- `op` in `s` answers `answer t`, having taken some of the source's answers; with any others behind these it answers the same,
and leaves those others. -/
def TakesOnly {ρ : Type} (op answer : State → ρ) (s t : State) : Prop :=
  op s = answer t ∧ ∃ used, s.source = used ++ t.source ∧
    ∀ rest, op { s with source := used ++ rest } = answer { t with source := rest }

theorem setSource_eq_self {s : State} {xs : List SrcXfer} (h : s.source = xs) : ({ s with source := xs } : State) = s := by
  rw [← h]

/-- What takes no answer and does not look at them. -/
theorem takesOnly_of_blind {ρ : Type} {op answer : State → ρ} {s t : State} (hsource : t.source = s.source)
    (h : ∀ xs, op { s with source := xs } = answer { t with source := xs }) : TakesOnly op answer s t :=
  ⟨(h s.source).trans (congrArg answer (setSource_eq_self hsource)), [], hsource.symm, h⟩

/-- First `op` to `u`, then `next` to `t`: together they take the answers of both, and no more. -/
theorem TakesOnly.trans {ρ τ : Type} {op mid : State → ρ} {next both answer : State → τ} {s u t : State}
    (h : TakesOnly op mid s u) (hnext : TakesOnly next answer u t)
    (hboth : ∀ xs y, op { s with source := xs } = mid y → both { s with source := xs } = next y) :
    TakesOnly both answer s t := by
  obtain ⟨hop, used, hsource, hswap⟩ := h
  obtain ⟨hrun, used', hsource', hswap'⟩ := hnext
  refine ⟨(hboth s.source u hop).trans hrun, used ++ used', by rw [hsource, hsource', List.append_assoc], fun rest => ?_⟩
  rw [List.append_assoc]
  exact (hboth _ _ (hswap (used' ++ rest))).trans (hswap' rest)

/-- What makes `v` of `s` without the source, and then is `op`, takes what `op` takes. -/
theorem TakesOnly.of_prepared {ρ : Type} {op op' answer : State → ρ} {s v t : State} (h : TakesOnly op answer v t)
    (hsource : v.source = s.source) (hop : ∀ xs, op' { s with source := xs } = op { v with source := xs }) :
    TakesOnly op' answer s t := by
  obtain ⟨hrun, used, htaken, hswap⟩ := h
  have hnow : op' s = op v := (hop s.source).trans (congrArg op (setSource_eq_self hsource))
  exact ⟨hnow.trans hrun, used, hsource.symm.trans htaken, fun rest => (hop _).trans (hswap rest)⟩

/-- A read that ends, with a value or an error, depends on no answer beyond those it took. -/
structure ReadsNoFurther {α : Type} (op : State → Read α) (s : State) : Prop where
  got : ∀ a t, op s = .got a t → TakesOnly op (.got a) s t
  raised : ∀ e t, op s = .raised e t → TakesOnly op (.raised e) s t

/-- A step that ends with a beat depends on no answer beyond those it took. -/
def NoReadAhead (op : State → Outcome) (s : State) : Prop :=
  ∀ t, op s = .next t → t.outHold ≠ none → TakesOnly op .next s t

theorem NoReadAhead.of_prepared {op op' : State → Outcome} {s v : State} (h : NoReadAhead op v) (hsource : v.source = s.source)
    (hop : ∀ xs, op' { s with source := xs } = op { v with source := xs }) : NoReadAhead op' s := by
  have hnow : op' s = op v := (hop s.source).trans (congrArg op (setSource_eq_self hsource))
  exact fun t ht ho => (h t (hnow.symm.trans ht) ho).of_prepared hsource hop

/-! ## Reads -/

/-- A value found without the source. -/
theorem readsNoFurther_of_blind {α : Type} {op : State → Read α} {s : State} (a : α) (t : State)
    (hsource : t.source = s.source) (h : ∀ xs, op { s with source := xs } = .got a { t with source := xs }) :
    ReadsNoFurther op s := by
  have hgot := takesOnly_of_blind hsource h
  refine ⟨fun b u hb => ?_, fun e u he => ?_⟩
  · obtain ⟨rfl, rfl⟩ := Read.got.inj (hgot.1.symm.trans hb)
    exact hgot
  · cases hgot.1.symm.trans he

theorem ReadsNoFurther.congr {α : Type} {op op' : State → Read α} {s : State} (h : ReadsNoFurther op s)
    (hop : ∀ xs, op' { s with source := xs } = op { s with source := xs }) : ReadsNoFurther op' s where
  got a t ht := (h.got a t ((hop s.source).symm.trans ht)).of_prepared rfl hop
  raised e t ht := (h.raised e t ((hop s.source).symm.trans ht)).of_prepared rfl hop

theorem ReadsNoFurther.bind {α β : Type} {op : State → Read α} {f : α → State → Read β} {s : State}
    (h : ReadsNoFurther op s) (hf : ∀ a u, op s = .got a u → ReadsNoFurther (f a) u) :
    ReadsNoFurther (fun x => (op x).bind f) s := by
  have hthen {a : α} (xs : List SrcXfer) (y : State) (hy : op { s with source := xs } = .got a y) :
      (op { s with source := xs }).bind f = f a y := by rw [hy]; rfl
  cases hop : op s with
  | got a u =>
    have hbind : (op s).bind f = f a u := by rw [hop]; rfl
    exact ⟨fun b t ht => (h.got a u hop).trans ((hf a u hop).got b t (hbind.symm.trans ht)) hthen,
      fun e t ht => (h.got a u hop).trans ((hf a u hop).raised e t (hbind.symm.trans ht)) hthen⟩
  | raised e u =>
    have hbind : (op s).bind f = .raised e u := by rw [hop]; rfl
    refine ⟨fun b t ht => (nomatch hbind.symm.trans ht), fun e' t ht => ?_⟩
    obtain ⟨rfl, rfl⟩ := Read.raised.inj (hbind.symm.trans ht)
    obtain ⟨-, used, hsource, hswap⟩ := h.raised e u hop
    exact ⟨hbind, used, hsource, fun rest => by simp only [hswap rest, Read.bind]⟩
  | waiting u =>
    have hbind : (op s).bind f = .waiting u := by rw [hop]; rfl
    exact ⟨fun b t ht => (nomatch hbind.symm.trans ht), fun e t ht => (nomatch hbind.symm.trans ht)⟩

/-- What a wait remembers does not matter to a read that ends: `keep` leaves the ends with a value or an error as they are. -/
theorem ReadsNoFurther.keepEnds {α : Type} {op : State → Read α} {s : State} (h : ReadsNoFurther op s)
    {keep : Read α → Read α} (hgot : ∀ r a t, keep r = .got a t ↔ r = .got a t)
    (hraised : ∀ r e t, keep r = .raised e t ↔ r = .raised e t) :
    ReadsNoFurther (fun x => keep (op x)) s where
  got a t ht := by
    obtain ⟨-, used, hsource, hswap⟩ := h.got a t ((hgot _ a t).mp ht)
    exact ⟨ht, used, hsource, fun rest => (hgot _ _ _).mpr (hswap rest)⟩
  raised e t ht := by
    obtain ⟨-, used, hsource, hswap⟩ := h.raised e t ((hraised _ e t).mp ht)
    exact ⟨ht, used, hsource, fun rest => (hraised _ _ _).mpr (hswap rest)⟩

theorem ReadsNoFurther.remember {α : Type} {op : State → Read α} {s : State} (h : ReadsNoFurther op s) (b : Bool) :
    ReadsNoFurther (fun x => (op x).remember b) s :=
  h.keepEnds (fun r _ _ => by cases r <;> simp [Read.remember]) fun r _ _ => by cases r <;> simp [Read.remember]

theorem ReadsNoFurther.rememberByte {α : Type} {op : State → Read α} {s : State} (h : ReadsNoFurther op s) (v : Byte) :
    ReadsNoFurther (fun x => (op x).rememberByte v) s :=
  h.keepEnds (fun r _ _ => by cases r <;> simp [Read.rememberByte]) fun r _ _ => by cases r <;> simp [Read.rememberByte]

/-- `fetchByte()` takes one answer at most (R142). -/
theorem fetchByte_readsNoFurther (s : State) : ReadsNoFurther fetchByte s where
  got a t h := by
    obtain ⟨hdue, x, v, rest, hsource, hx, rfl⟩ := fetchByte_got s t h
    exact ⟨h, [x], hsource, fun _ => by simp only [fetchByte, if_neg hdue, List.singleton_append, hx]⟩
  raised e t h := by
    obtain ⟨hframe, ⟨hend, rfl, hsource⟩ | ⟨hdue, x, rest, hsource, rfl, hx⟩⟩ := fetchByte_raised s t e h
    · exact ⟨h, [], hsource.symm, fun _ => by rw [hframe]; simp [fetchByte, hend]⟩
    · refine ⟨h, [x], hsource, fun _ => ?_⟩
      rw [hframe]
      rcases hx with ⟨hx, rfl⟩ | ⟨hx, rfl⟩ <;> simp only [fetchByte, if_neg hdue, List.singleton_append, hx]

theorem takeBit_readsNoFurther (s : State) : ReadsNoFurther takeBit s :=
  readsNoFurther_of_blind (s.curByte.getLsbD s.bitOff.val) { s with bitOff := s.bitOff + 1 } rfl fun _ => rfl

theorem readBit_readsNoFurther (s : State) : ReadsNoFurther readBit s := by
  by_cases hbc : s.bcErrored = true
  · have hraised (xs : List SrcXfer) : readBit { s with source := xs } = .raised s.errCode { s with source := xs } := if_pos hbc
    refine ⟨fun b t ht => (nomatch (hraised s.source).symm.trans ht), fun e t ht => ?_⟩
    obtain ⟨rfl, rfl⟩ := Read.raised.inj ((hraised s.source).symm.trans ht)
    exact takesOnly_of_blind rfl hraised
  · by_cases hoff : s.bitOff = 8
    · exact ((fetchByte_readsNoFurther s).bind fun _ t _ => takeBit_readsNoFurther t).congr fun _ =>
        (if_neg hbc).trans (if_pos hoff)
    · exact (takeBit_readsNoFurther s).congr fun _ => (if_neg hbc).trans (if_neg hoff)

theorem nextBit_readsNoFurther (s : State) : ReadsNoFurther nextBit s := by
  cases hbits : s.stepBits with
  | cons b rest => exact readsNoFurther_of_blind b { s with stepBits := rest } rfl fun _ => by simp only [nextBit, hbits]
  | nil => exact (readBit_readsNoFurther s).congr fun _ => by simp only [nextBit, hbits]

/-- A walk asks for no bit beyond its word (R169), so it takes no answer beyond the byte of the last bit. -/
theorem runWalk_readsNoFurther {α : Type} (w : Walk α) (s : State) : ReadsNoFurther (runWalk w) s := by
  induction w generalizing s with
  | done a => exact readsNoFurther_of_blind a s rfl fun _ => rfl
  | ask g ih =>
    refine ((nextBit_readsNoFurther s).bind fun b t _ => (ih b t).remember b).congr fun xs => ?_
    simp only [runWalk]
    cases nextBit { s with source := xs } <;> rfl

theorem readHeaderByte_readsNoFurther (s : State) : ReadsNoFurther readHeaderByte s :=
  (fetchByte_readsNoFurther s).bind fun _ t _ =>
    readsNoFurther_of_blind t.curByte { t with bitOff := 8 } rfl fun _ => rfl

theorem nextHeaderByte_readsNoFurther (s : State) : ReadsNoFurther nextHeaderByte s := by
  cases hbits : s.stepBits with
  | cons b rest =>
    exact readsNoFurther_of_blind (BitVec.ofNat 8 (bitsVal (s.stepBits.take 8))) { s with stepBits := s.stepBits.drop 8 } rfl
      fun _ => by simp only [nextHeaderByte, hbits]
  | nil => exact (readHeaderByte_readsNoFurther s).congr fun _ => by simp only [nextHeaderByte, hbits]

theorem readHeader_readsNoFurther (s : State) : ReadsNoFurther readHeader s :=
  (nextHeaderByte_readsNoFurther s).bind fun m t _ =>
    ((nextHeaderByte_readsNoFurther t).bind fun c u _ => readsNoFurther_of_blind (m, c) u rfl fun _ => rfl).rememberByte m

/-! ## Meanings -/

/-- A step that does not look at the source's answers. -/
theorem noReadAhead_of_blind {op : State → Outcome} {s : State} (t : State) (hsource : t.source = s.source)
    (h : ∀ xs, op { s with source := xs } = .next { t with source := xs }) : NoReadAhead op s := by
  have hnext := takesOnly_of_blind hsource h
  intro u hu _
  obtain rfl := Host.Outcome.next.inj (hnext.1.symm.trans hu)
  exact hnext

theorem raise_noReadAhead (e : ErrCode) (s : State) : NoReadAhead (raise e) s :=
  noReadAhead_of_blind (raisedState e s) rfl fun _ => rfl

/-- A step that stops has no beat. -/
theorem noReadAhead_of_fault {op : State → Outcome} {s : State} {f : Fault} (h : op s = .fault f) : NoReadAhead op s :=
  fun _ ht => nomatch h.symm.trans ht

theorem putEmit_noReadAhead (b : Byte) (s : State) : NoReadAhead (putEmit b) s := by
  by_cases hram : putIndex s < Config.ramSize
  · have hput (xs : List SrcXfer) : put b { s with source := xs } = .ok { s with
        source := xs, first := BitVec.ofNat 12 (putIndex s), dict := s.dict.store (putIndex s) b } := if_pos hram
    exact noReadAhead_of_blind
      (emit (.byte b) { s with first := BitVec.ofNat 12 (putIndex s), dict := s.dict.store (putIndex s) b }) rfl fun xs => by
        rw [putEmit, hput xs]; rfl
  · exact noReadAhead_of_fault (f := .dictAddress (putIndex s)) (by rw [putEmit, put, if_neg hram])

theorem getEmit_noReadAhead (off : BitVec 12) (s : State) : NoReadAhead (getEmit off) s := by
  by_cases hram : getIndex s off < Config.ramSize
  · exact (putEmit_noReadAhead (s.slot (getIndex s off)) s).of_prepared rfl fun xs => getEmit_eq off { s with source := xs } hram
  · exact noReadAhead_of_fault ((getEmit_eq_ite off s).trans (if_neg hram))

theorem copyContinue_noReadAhead (s : State) : NoReadAhead copyContinue s :=
  (getEmit_noReadAhead s.copyOff { s with
    copyRem := s.copyRem - 1, mode := if s.copyRem - 1 = 0 then .literal else s.mode }).of_prepared rfl fun _ => rfl

theorem copyStart_noReadAhead (off : BitVec 12) (s : State) : NoReadAhead (copyStart off) s :=
  (getEmit_noReadAhead off { s with copyOff := off, copyRem := s.lenVal - 1, mode := .copying }).of_prepared rfl fun _ => rfl

theorem copyAfterFields_noReadAhead (db : BitVec 3) (len : BitVec 10) (off : BitVec 12) (s : State) :
    NoReadAhead (copyAfterFields db len off) s :=
  let found := { s with
    lenVal := BitVec.ofNat 10 len.toNat, highVal := BitVec.ofNat 6 (off.toNat >>> lowBits db len.toNat) }
  (copyStart_noReadAhead (copyOffset len.toNat off.toNat found) found).of_prepared rfl fun _ => rfl

/-- Outside the header: what the instruction does once its bits are read, which takes no answer. -/
structure MeaningAfterBits (db : BitVec 3) (i : Instr) (go : State → Outcome) : Prop where
  exec_eq : ∀ {s u : State} {v : Nat}, s.dictBits = db → readBits (Laws.EncodedSize.size db i) s = .got v u →
    exec i s = go { u with stepBits := [] }
  noReadAhead : ∀ u, NoReadAhead go u

theorem ReadsThenRuns.meaningAfterBits {db : BitVec 3} {i : Instr} {go : State → Outcome} (h : ReadsThenRuns db i go)
    (hgo : ∀ u, NoReadAhead go u) : MeaningAfterBits db i go where
  exec_eq hdb hread := by rw [h.exec_eq _ hdb, hread]; rfl
  noReadAhead := hgo

theorem exists_meaningAfterBits (db : BitVec 3) (i : Instr) (hctx : i.context ≠ .header) (hwf : i.wf db = true) :
    ∃ go, MeaningAfterBits db i go := by
  cases hi : i.context with
  | header => exact absurd hi hctx
  | token =>
    obtain ⟨tok, rfl⟩ := eq_toInstr_of_context_token i hi
    cases tok with
    | lit b => exact ⟨_, (readsThenRuns_lit db b).meaningAfterBits (putEmit_noReadAhead b)⟩
    | copy len off => exact ⟨_, (readsThenRuns_copy db len off hwf).meaningAfterBits (copyAfterFields_noReadAhead db len off)⟩
    | eos => exact ⟨_, (readsThenRuns_eos db).meaningAfterBits fun u =>
        noReadAhead_of_blind (emit .eos { u with lenVal := 519, state := .finished }) rfl fun _ => rfl⟩
  | length =>
    obtain ⟨len, hexec⟩ := exec_length_row i hi
    refine ⟨fun u => .next { u with lenVal := BitVec.ofNat 10 len, lookupReq := none }, fun _ hread => ?_, fun u =>
      noReadAhead_of_blind { u with lenVal := BitVec.ofNat 10 len, lookupReq := none } rfl fun _ => rfl⟩
    rw [hexec db, runLength, lookupLength, hread]
    rfl
  | offsetHigh =>
    obtain ⟨high, hexec⟩ := exec_offsetHigh_row i hi
    refine ⟨fun u => .next { u with highVal := BitVec.ofNat 6 high, lookupReq := none }, fun _ hread => ?_, fun u =>
      noReadAhead_of_blind { u with highVal := BitVec.ofNat 6 high, lookupReq := none } rfl fun _ => rfl⟩
    rw [hexec db, runOffsetHigh, lookupOffsetHigh, hread]
    rfl

/-! ## The decoder's step -/

/-- A read, and then from its end a step `go` that does not read ahead; a read that waits is a step without a beat. -/
theorem ReadsNoFurther.settle {α : Type} {op : State → Read α} {run : State → α → State → Outcome} {s : State}
    (h : ReadsNoFurther op s) (hwaits : ∀ t, op s = .waiting t → t.outHold = none)
    (hrun : ∀ a u, op s = .got a u → ∃ go, NoReadAhead go { u with stepBits := [] } ∧
      ∀ xs y, op { s with source := xs } = .got a y →
        run { s with source := xs } a { y with stepBits := [] } = go { y with stepBits := [] }) :
    NoReadAhead (fun x => settle (op x) (run x)) s := by
  intro t ht hbeat
  cases hop : op s with
  | got a u =>
    obtain ⟨go, hgo, hmeaning⟩ := hrun a u hop
    have hcleared : NoReadAhead (fun y => go { y with stepBits := [] }) u := hgo.of_prepared rfl fun _ => rfl
    have hthen (xs : List SrcXfer) (y : State) (hy : op { s with source := xs } = .got a y) :
        Machine.settle (op { s with source := xs }) (run { s with source := xs }) = go { y with stepBits := [] } := by
      rw [hy]; exact hmeaning xs y hy
    exact (h.got a u hop).trans (hcleared t ((hthen s.source u hop).symm.trans ht) hbeat) hthen
  | raised e u =>
    have hcleared : NoReadAhead (fun y => raise e { y with stepBits := [] }) u :=
      (raise_noReadAhead e { u with stepBits := [] }).of_prepared rfl fun _ => rfl
    have hthen (xs : List SrcXfer) (y : State) (hy : op { s with source := xs } = .raised e y) :
        Machine.settle (op { s with source := xs }) (run { s with source := xs }) = raise e { y with stepBits := [] } := by
      rw [hy]; rfl
    exact (h.raised e u hop).trans (hcleared t ((hthen s.source u hop).symm.trans ht) hbeat) hthen
  | waiting u =>
    have hwait : Machine.settle (op s) (run s) = .next u := by rw [hop]; rfl
    obtain rfl := Host.Outcome.next.inj (hwait.symm.trans ht)
    exact absurd (hwaits u hop) hbeat

/-- While decoding: the walk that finds an instruction and the read of its bits take the same answers. -/
theorem DecodingInv.noReadAhead {s : State} (h : DecodingInv s) (ho : s.outHold = none) : NoReadAhead Machine.decoderStep s := by
  rcases activity_decoding s h.state with ⟨ctx, hctx, ha⟩ | ⟨-, ha⟩
  · have hwalk := runWalk_readsNoFurther (decodeWalk ctx s.dictBits) s
    refine (hwalk.settle (run := fun x i _ => Machine.exec i x) (fun t ht => ?_) fun i u hgot => ?_).of_prepared rfl fun xs =>
      decoderStep_decoding (s := { s with source := xs }) h.state ha hctx
    · rw [(runWalk_waits _ s t ht).frame]
      exact ho
    · obtain ⟨rfl, hwf, -⟩ := readBits_of_decodeWalk_got hctx h.legal hgot
      obtain ⟨go, hexec, hgo⟩ := exists_meaningAfterBits s.dictBits i hctx hwf
      refine ⟨go, hgo _, fun xs y hy => ?_⟩
      obtain ⟨-, -, v, hread⟩ := readBits_of_decodeWalk_got (s := { s with source := xs }) hctx h.legal hy
      exact hexec rfl hread
  · exact (copyContinue_noReadAhead s).of_prepared rfl fun xs =>
      decoderStep_continueCopy (s := { s with source := xs }) h.state ha

/-- The checks read nothing; after a valid header the first token does (R213, R217). -/
theorem FreshInv.headerChecks_noReadAhead {s : State} (h : FreshInv s) (m c : Byte) :
    NoReadAhead (Machine.headerChecks m c) s := by
  have hrecorded := fun e => raise_noReadAhead e { s with dictMode := m, dictSizeCode := c }
  by_cases hm : m = 0
  · subst hm
    cases hc : legalSizeCode c.toNat with
    | true =>
      exact ((h.decoding c hc).noReadAhead h.outHold).of_prepared rfl fun xs =>
        headerChecks_eq_decoderStep { s with source := xs } hc h.lookupReq
    | false => exact (hrecorded .unknownDictionarySize).of_prepared rfl fun _ => by simp [Machine.headerChecks, hc]
  · exact (hrecorded .unsupportedStaticDictionary).of_prepared rfl fun _ => if_pos hm

theorem FreshInv.noReadAhead {s : State} (h : FreshInv s) (hs : s.state = .init) : NoReadAhead Machine.decoderStep s := by
  by_cases hlen : s.chunkLen.toNat ≤ 2
  · exact (raise_noReadAhead .chunkTooSmall { s with stepBits := [] }).of_prepared rfl fun xs =>
      (decoderStep_init { s with source := xs } hs).trans (if_pos hlen)
  · refine ((readHeader_readsNoFurther s).settle (run := fun _ mc => Machine.headerChecks mc.1 mc.2) (fun t ht => ?_)
      fun mc u hgot => ?_).of_prepared rfl fun xs =>
        decoderStep_init_of_long (s := { s with source := xs }) hs (Nat.lt_of_not_le hlen)
    · obtain ⟨hmoved, -⟩ := readHeader_waiting s t ht
      rw [hmoved]
      exact h.outHold
    · exact ⟨_, (h.readHeader hgot).headerChecks_noReadAhead mc.1 mc.2, fun _ _ _ => rfl⟩

/-! ## Every step -/

theorem State.Inv.decoderStep_noReadAhead {s : State} (h : s.Inv) (ho : s.outHold = none) :
    NoReadAhead Machine.decoderStep s := by
  cases hs : s.state with
  | idle => exact noReadAhead_of_blind s rfl fun xs => decoderStep_idle { s with source := xs } hs
  | init => exact (h.fresh hs ho).noReadAhead hs
  | headerRead =>
    obtain ⟨-, -, -, -, -, -, -, hne, -⟩ := h
    exact absurd hs hne
  | decoding => exact (h.decoding hs).noReadAhead ho
  | finished => exact noReadAhead_of_blind (emit .eos s) rfl fun xs => decoderStep_finished (s := { s with source := xs }) hs
  | errored =>
    exact noReadAhead_of_blind (emit (.err s.errCode) s) rfl fun xs => decoderStep_errored (s := { s with source := xs }) hs

theorem State.Inv.blockStep_noReadAhead {s : State} (h : s.Inv) : NoReadAhead Machine.blockStep s := by
  cases ho : s.outHold with
  | none => exact (h.decoderStep_noReadAhead ho).of_prepared rfl fun _ => by simp [Machine.blockStep, ho]
  | some b => exact noReadAhead_of_blind s rfl fun _ => by simp [Machine.blockStep, ho]

theorem ready_setSource {s : State} (h : s.undisturbed) (xs : List SrcXfer) :
    ({ s with source := xs } : State).ready = { s.ready with source := xs } := by
  obtain ⟨-, -, hseek, harrive⟩ := h
  have hinput : ({ s with source := xs } : State).input = s.input := rfl
  have htaken : takeInput { s with source := xs } = { takeInput s with source := xs } := by
    simp [takeInput, hinput, hseek, harrive]
  rw [State.ready, State.ready, hinput, htaken]
  cases s.input.outReady <;> rfl

theorem State.Inv.step_noReadAhead {s : State} (h : s.Inv) (hs : s.undisturbed) : NoReadAhead Machine.step s := by
  have hready := ready_setSource hs
  obtain ⟨hrst, hstart, -⟩ := hs
  refine h.ready.blockStep_noReadAhead.of_prepared (congrArg State.source (hready s.source) :) fun xs => ?_
  rw [step_block { s with source := xs } hrst hstart, hready]

/-- Settles O58: what the step takes stands before what it leaves, so it is `used`. -/
theorem stepReadsNoFurtherThanItTakes : Obligations.StepReadsNoFurtherThanItTakes := by
  intro s t used rest rest' h hs hsource hstep hleft hbeat
  obtain ⟨-, taken, htaken, hswap⟩ := h.step_noReadAhead hs t hstep hbeat
  have hused : used = taken := List.append_cancel_right (hsource.symm.trans (hleft ▸ htaken))
  exact hused ▸ hswap rest'

end Sys2Proof.Machine
end
